-- ==== Sys2Proof/Word.lean ====
section
/-! DEFINITION. The plain data types of the block: bytes, positions in the byte source, the Huffman tree, and a
register that knows whether the running decode has written it. -/

namespace Sys2Proof

/-- One 8-bit byte of `SRC` or `OUT` (20_memory.md R201, R210). -/
abbrev Byte := BitVec 8

/-- A cursor position (10_state.md R102): byte index, and bit index within the byte. -/
structure Pos where
  byteIdx : Nat
  bitIdx : BitVec 3
  deriving DecidableEq, Repr

/-- A Huffman tree (10_state.md R123): a leaf with its symbol, or an internal node with a left child (bit 0) and a
right child (bit 1). `absent` is the spec's ABSENT, a child that is no node; it is never a root. -/
inductive Tree where
  | absent
  | leaf (symbol : Nat)
  | internal (left right : Tree)
  deriving DecidableEq, Repr

/-- The empty tree `Internal(ABSENT, ABSENT)` (10_state.md R124). -/
def emptyTree : Tree := .internal .absent .absent

/-- The error kinds (10_state.md R105, 60_exceptions.md R801). `unsupportedFeature` is never raised by the block (R804)
and `emptyAlphabet` never by a decode (R805). -/
inductive ErrKind where
  | none | dataCorruption | unknownSymbol | emptyAlphabet | outOfRange | unsupportedFeature | capacityExceeded
  deriving DecidableEq, Repr

/-- The causes that refine `DataCorruption` (10_state.md R106, 60_exceptions.md R802). -/
inductive ErrCause where
  | none | reservedBtype | storedLenMismatch | distanceTooFar | repeatWithoutPrevious | invalidLitlenSymbol
  | invalidDistanceSymbol | codeLengthOverrun | oversubscribedCode
  deriving DecidableEq, Repr

/-- An internal register (10_state.md R128): it always holds a value, and `written` says whether the running decode
has written it. A rule's read of a register that is not written is the spec's fault UNWRITTEN_REGISTER_READ. -/
structure Reg (α : Type) where
  val : α
  written : Bool
  deriving DecidableEq, Repr

/-- A register the running decode has written with `v` (00_scope.md R17). -/
def wrote {α : Type} (v : α) : Reg α := ⟨v, true⟩

/-- A register that holds `v` from before the running decode (10_state.md R128, R129). -/
def unwritten {α : Type} (v : α) : Reg α := ⟨v, false⟩

end Sys2Proof
end

