-- ==== Sys2Proof/Config.lean ====
section
/-! DEFINITION. What an implementation fixes: the parameters of 00_scope.md R12 that no step changes, and the two OPEN
parameters of the auxiliary frequency build as constants without a body. -/

namespace Sys2Proof

/-- `MAX_BITS` (00_scope.md R12): the longest code length the tree builder accepts. -/
def Config.maxBits : Nat := 15

/-- `WINDOW_SIZE` (00_scope.md R12, 20_memory.md R214): the least history that serves every stream. The model keeps
all of `OUT`, which R214 says behaves the same. DESIGN CHOICE, log entry 21; safe. -/
def Config.windowSize : Nat := 32768

/-- `FREQ_TIE_BREAK` (41_huffman_trees.md R473), OPEN: which of the nodes of least weight the queue yields, as an
index into those nodes in queue order (taken modulo their number). No body: nothing can be proved of its value. Log
entry 13; safe. -/
opaque Config.freqTieBreak : List (Nat × Tree) → Nat

/-- `FREQ_CHILD_ORDER` (41_huffman_trees.md R474), OPEN: whether the node popped first becomes the left child. No
body: nothing can be proved of its value. Log entry 13; safe. -/
opaque Config.freqChildOrder : Nat × Tree → Nat × Tree → Bool

end Sys2Proof
end

