-- ==== Sys2Proof/Machine/Bits.lean ====
section
/-! DEFINITION. Bit strings: the two orders in which the stream writes a value (20_memory.md R206, R207) and the packing
of a bit string into bytes (30_encoding.md R319). A bit string is a list whose head is the bit read first (00_scope.md
R16). -/

namespace Sys2Proof.Machine

/-- The value of a bit as a number. -/
def bitNat (b : Bool) : Nat := if b then 1 else 0

/-- The value of a field: the first-read bit is the least significant (20_memory.md R206). -/
def natOfBitsLsb : List Bool → Nat
  | [] => 0
  | b :: bs => bitNat b + 2 * natOfBitsLsb bs

/-- `n` bits of `v`, least significant first (20_memory.md R206). -/
def bitsLsb : Nat → Nat → List Bool
  | 0, _ => []
  | n + 1, v => decide (v % 2 = 1) :: bitsLsb n (v / 2)

/-- `n` bits of `v`, most significant first (20_memory.md R207, 41_huffman_trees.md R475). -/
def bitsMsb (n v : Nat) : List Bool := (bitsLsb n v).reverse

/-- Bit `k` of a bit string goes to bit `k mod 8` of byte `k / 8`; the last byte is padded with zeros (30_encoding.md
R319). The first argument bounds the number of bytes. -/
def packBits : Nat → List Bool → List Byte
  | 0, _ => []
  | _ + 1, [] => []
  | n + 1, b :: bs => BitVec.ofNat 8 (natOfBitsLsb ((b :: bs).take 8)) :: packBits n ((b :: bs).drop 8)

end Sys2Proof.Machine
end

