-- ==== Sys2Proof/Machine/Tables.lean ====
section
/-! DEFINITION. The read-only constant store (45_static_tables.md R750 to R753, R755): the spec's tables as named
constants. No step writes them. The entries of the length and the distance table are the spec's own general knowledge
(91_not_in_source.md N8), so each is one definition a correction would change. UNVERIFIED, log entry 19. -/

namespace Sys2Proof.Machine

/-- `FIXED_LENGTHS[0..287]` (45_static_tables.md R750). -/
def fixedLengths : List Nat :=
  List.replicate 144 8 ++ List.replicate 112 9 ++ List.replicate 24 7 ++ List.replicate 8 8

/-- `LENGTH_TABLE[0..28]`, (extraBits, baseLength) for the length codes 257 to 285 (45_static_tables.md R751). -/
def lengthTable : List (Nat × Nat) :=
  [(0, 3), (0, 4), (0, 5), (0, 6), (0, 7),
   (0, 8), (0, 9), (0, 10), (1, 11), (1, 13),
   (1, 15), (1, 17), (2, 19), (2, 23), (2, 27)] ++
  [(2, 31), (3, 35), (3, 43), (3, 51), (3, 59),
   (4, 67), (4, 83), (4, 99), (4, 115), (5, 131),
   (5, 163), (5, 195), (5, 227), (0, 258)]

/-- `DIST_TABLE[0..29]`, (extraBits, baseDistance) for the distance codes 0 to 29 (45_static_tables.md R752). -/
def distTable : List (Nat × Nat) :=
  [(0, 1), (0, 2), (0, 3), (0, 4), (1, 5),
   (1, 7), (2, 9), (2, 13), (3, 17), (3, 25),
   (4, 33), (4, 49), (5, 65), (5, 97), (6, 129)] ++
  [(6, 193), (7, 257), (7, 385), (8, 513), (8, 769),
   (9, 1025), (9, 1537), (10, 2049), (10, 3073), (11, 4097),
   (11, 6145), (12, 8193), (12, 12289), (13, 16385), (13, 24577)]

/-- `CL_ORDER[0..18]` (45_static_tables.md R753). -/
def clOrder : List Nat := [16, 17, 18, 0, 8, 7, 9, 6, 10, 5, 11, 4, 12, 3, 13, 2, 14, 1, 15]

end Sys2Proof.Machine
end

