-- ==== Sys2Proof/Machine/Trees.lean ====
section
/-! DEFINITION. The tree unit as functions of plain data (41_huffman_trees.md): the canonical builder, the walk of a bit
string, the encoder, and the frequency-based builder. The operations that read `SRC` or write registers stand in
Machine/Ops.lean and Machine/Builds.lean. -/

namespace Sys2Proof.Machine

/-! ## The canonical builder (41_huffman_trees.md R451 to R458) -/

/-- `CountLengths(L)` (R453): how many symbols use each length; entry 0 stays 0. -/
def countLengths (L : List Nat) : List Nat :=
  L.foldl (fun bl l => if l = 0 then bl else bl.set l (bl.getD l 0 + 1)) (List.replicate (Config.maxBits + 1) 0)

/-- The Kraft sum of `CheckNotOversubscribed`, in units of 2^(-`MAX_BITS`) (R456). -/
def kraftSum (blCount : List Nat) : Nat :=
  ((List.range Config.maxBits).map fun i =>
    blCount.getD (i + 1) 0 * 2 ^ (Config.maxBits - (i + 1))).sum

/-- The check of R456: the code lengths are over-subscribed. -/
def oversubscribed (blCount : List Nat) : Bool :=
  decide (2 ^ Config.maxBits < kraftSum blCount)

/-- The recurrence of `FirstCodes` (R454), run over every length from 1, used or not (90_conflicts.md C4). -/
def firstCode (blCount : List Nat) : Nat → Nat
  | 0 => 0
  | b + 1 => (firstCode blCount b + blCount.getD b 0) <<< 1

/-- `FirstCodes(BL_COUNT)` (R454): `NEXT_CODE[1..15]`; entry 0 is no entry of `NEXT_CODE` and stays 0. -/
def firstCodes (blCount : List Nat) : List Nat :=
  (List.range (Config.maxBits + 1)).map (firstCode blCount)

/-- `AssignCodes(L, NEXT_CODE)` (R455): the code of each symbol in ascending order (0 for an unused symbol), and
`NEXT_CODE` as the assignment leaves it. -/
def assignCodes : List Nat → List Nat → List Nat × List Nat
  | [], next => ([], next)
  | l :: L, next =>
    if l = 0 then
      let r := assignCodes L next
      (0 :: r.1, r.2)
    else
      let c := next.getD l 0
      let r := assignCodes L (next.set l (c + 1))
      (c :: r.1, r.2)

/-- `Insert(T, s, c, len)` (R457) along the bits of the code, most significant first. By R456 the path never meets a
leaf and ends at an absent slot; the two arms that R456 rules out leave a tree all the same, log entry 20. -/
def insertCode : Tree → List Bool → Nat → Tree
  | _, [], s => .leaf s
  | .internal l r, b :: bs, s => if b then .internal l (insertCode r bs s) else .internal (insertCode l bs s) r
  | .absent, b :: bs, s =>
    if b then .internal .absent (insertCode .absent bs s) else .internal (insertCode .absent bs s) .absent
  | .leaf x, _ :: _, _ => .leaf x

/-- The insertion loop of `BuildCanonical` (R452): symbols from `s` on, with their lengths and codes. -/
def insertAll : Nat → List Nat → List Nat → Tree → Tree
  | s, l :: L, c :: C, t => insertAll (s + 1) L C (if l = 0 then t else insertCode t (bitsMsb l c) s)
  | _, _, _, t => t

/-- The tree of `BuildCanonical(L)` once the Kraft check has passed (R452, steps 2 to 4). -/
def canonicalTree (L : List Nat) : Tree :=
  insertAll 0 L (assignCodes L (firstCodes (countLengths L))).1 emptyTree

/-- `BuildCanonical(L)` (R452): the tree, or nothing where it raises `DataCorruption(OVERSUBSCRIBED_CODE)` (R456). -/
def buildCanonical (L : List Nat) : Option Tree :=
  if oversubscribed (countLengths L) then none else some (canonicalTree L)

/-- The complete tree of depth `d` whose leaves are the symbols `s`, `s + 1`, … from left to right. -/
def fullTree : Nat → Nat → Tree
  | 0, s => .leaf s
  | d + 1, s => .internal (fullTree d s) (fullTree d (s + 2 ^ d))

/-- `FIXED_LIT_TREE` (45_static_tables.md R754), written as its complete subtrees so that one path of it can be
evaluated without building all 288 codes. It IS `BuildCanonical(FIXED_LENGTHS)`: Laws/Trees.lean,
`buildCanonical_fixedLengths`. -/
def fixedLitTree : Tree :=
  .internal
    (.internal (.internal (fullTree 4 256) (.internal (fullTree 3 272) (fullTree 4 0))) (fullTree 6 16))
    (.internal (fullTree 6 80)
      (.internal (.internal (.internal (fullTree 3 280) (fullTree 4 144)) (fullTree 5 160)) (fullTree 6 192)))

/-! ## Walking a bit string (41_huffman_trees.md R460) -/

/-- How a walk over a finite bit string ends. -/
inductive Walk where
  | found (symbol : Nat) (rest : List Bool)
  | absent (rest : List Bool)
  | truncated
  deriving DecidableEq, Repr

/-- The walk of `Decode(T)` (R460) over the bits of a list: a bit is taken before the child is examined. -/
def walk : Tree → List Bool → Walk
  | .leaf x, bs => .found x bs
  | .absent, bs => .absent bs
  | .internal _ _, [] => .truncated
  | .internal l r, b :: bs => if b then walk r bs else walk l bs

/-! ## The encoder (41_huffman_trees.md R475, R476) -/

/-- One entry of the code table: the symbol's code and its length. -/
structure CodeEntry where
  symbol : Nat
  code : Nat
  length : Nat
  deriving DecidableEq, Repr

/-- The full tree walk of `CodeTable(T)` (R475) below a node reached by the `d`-bit path of value `c`. -/
def codesBelow : Tree → Nat → Nat → List CodeEntry
  | .absent, _, _ => []
  | .leaf x, c, d => [⟨x, c, d⟩]
  | .internal l r, c, d => codesBelow l (2 * c) (d + 1) ++ codesBelow r (2 * c + 1) (d + 1)

/-- `CodeTable(T)` (R475). -/
def codeTable (T : Tree) : List CodeEntry := codesBelow T 0 0

/-- `Encode(T, s)` (R475): the bits of the symbol's code, most significant first; `UnknownSymbol` for a symbol with no
leaf (R476). -/
def encodeSymbol (T : Tree) (s : Nat) : Except ErrKind (List Bool) :=
  match (codeTable T).find? (fun e => e.symbol == s) with
  | some e => .ok (bitsMsb e.length e.code)
  | none => .error .unknownSymbol

/-! ## The frequency-based builder (41_huffman_trees.md R470 to R474) -/

/-- The least weight in a queue of weighted nodes. -/
def leastWeight : List (Nat × Tree) → Nat
  | [] => 0
  | [n] => n.1
  | n :: q => min n.1 (leastWeight q)

/-- Take the `k`-th node of weight `w` out of the queue. -/
def takeNth (w : Nat) : Nat → List (Nat × Tree) → Option ((Nat × Tree) × List (Nat × Tree))
  | _, [] => none
  | k, n :: q =>
    if n.1 = w then
      match k with
      | 0 => some (n, q)
      | k + 1 => (takeNth w k q).map fun r => (r.1, n :: r.2)
    else (takeNth w k q).map fun r => (r.1, n :: r.2)

/-- Pop a node of least weight; `tie` picks among the nodes of that weight (R473). -/
def popLeast (tie : List (Nat × Tree) → Nat) (q : List (Nat × Tree)) :
    Option ((Nat × Tree) × List (Nat × Tree)) :=
  let least := q.filter fun n => n.1 == leastWeight q
  takeNth (leastWeight q) (tie least % least.length) q

/-- The merge loop of R470, run at most `fuel` times; each pass leaves the queue one node shorter. -/
def mergeLoop (tie : List (Nat × Tree) → Nat) (order : Nat × Tree → Nat × Tree → Bool) :
    Nat → List (Nat × Tree) → Option Tree
  | _, [] => none
  | _, [n] => some n.2
  | 0, _ => none
  | fuel + 1, q =>
    match popLeast tie q with
    | none => none
    | some (a, q1) =>
      match popLeast tie q1 with
      | none => none
      | some (b, q2) =>
        let node := if order a b then Tree.internal a.2 b.2 else Tree.internal b.2 a.2
        mergeLoop tie order fuel (q2 ++ [(a.1 + b.1, node)])

/-- `BuildFromFrequencies(F)` (R470) for a map of (symbol, frequency) pairs, with both OPEN parameters as arguments;
`EmptyAlphabet` for the empty map and for nothing else (R471). -/
def buildFromFrequenciesWith (tie : List (Nat × Tree) → Nat) (order : Nat × Tree → Nat × Tree → Bool)
    (F : List (Nat × Nat)) : Except ErrKind Tree :=
  match mergeLoop tie order F.length (F.map fun p => (p.2, .leaf p.1)) with
  | some t => .ok t
  | none => .error .emptyAlphabet

/-- `BuildFromFrequencies(F)` of this block: the OPEN parameters are its own, unknown ones (R473, R474). -/
def buildFromFrequencies (F : List (Nat × Nat)) : Except ErrKind Tree :=
  buildFromFrequenciesWith Config.freqTieBreak Config.freqChildOrder F

end Sys2Proof.Machine
end

