-- ==== Sys2Proof/Syntax.lean ====
section
/-! DEFINITION. The syntax elements of the stream as one inductive, one constructor per row of spec/opcode_table.json
(30_encoding.md R310 to R314). An element carries what its row leaves free in the decoded VALUE (BFINAL, the literal's
symbol, which of two invalid symbols, the code length); its extra bits are read by the element itself, in the order its
rule gives (43_token_loop.md R553, 44_dynamic_header.md R707), so they are no operand. DESIGN CHOICE, log entry 14. -/

namespace Sys2Proof

/-- The format whose decoded value selects the element (30_encoding.md R314). -/
inductive Format where
  | blockHdr      -- 3-bit header value (R301)
  | litlenSymbol  -- 9-bit `SYM` (R305)
  | distSymbol    -- 5-bit `DSYM` (R306)
  | clSymbol      -- 5-bit CL symbol (R304)
  deriving DecidableEq, Repr

/-- One element kind of the stream per constructor, in the order of spec/opcode_table.json. -/
inductive Instr where
  /-- `BLK_STORED` (42_inflate_blocks.md R504), `bfinal` = v[0]. -/
  | blkStored (bfinal : Bool)
  /-- `BLK_FIXED` (42_inflate_blocks.md R505). -/
  | blkFixed (bfinal : Bool)
  /-- `BLK_DYNAMIC` (42_inflate_blocks.md R506). -/
  | blkDynamic (bfinal : Bool)
  /-- `BLK_RESERVED` (42_inflate_blocks.md R507). -/
  | blkReserved (bfinal : Bool)
  /-- `LIT` (43_token_loop.md R551), the 9-bit symbol, 0 to 255. -/
  | lit (sym : BitVec 9)
  /-- `EOB` (43_token_loop.md R552). -/
  | eob
  /-- `LEN_257` to `LEN_285` (43_token_loop.md R554 to R582). -/
  | len257
  | len258
  | len259
  | len260
  | len261
  | len262
  | len263
  | len264
  | len265
  | len266
  | len267
  | len268
  | len269
  | len270
  | len271
  | len272
  | len273
  | len274
  | len275
  | len276
  | len277
  | len278
  | len279
  | len280
  | len281
  | len282
  | len283
  | len284
  | len285
  /-- `LITLEN_INVALID` (43_token_loop.md R583), the symbol 286 or 287. -/
  | litlenInvalid (sym : BitVec 9)
  /-- `DIST_0` to `DIST_29` (43_token_loop.md R586 to R615). -/
  | dist0
  | dist1
  | dist2
  | dist3
  | dist4
  | dist5
  | dist6
  | dist7
  | dist8
  | dist9
  | dist10
  | dist11
  | dist12
  | dist13
  | dist14
  | dist15
  | dist16
  | dist17
  | dist18
  | dist19
  | dist20
  | dist21
  | dist22
  | dist23
  | dist24
  | dist25
  | dist26
  | dist27
  | dist28
  | dist29
  /-- `DIST_INVALID` (43_token_loop.md R616), the symbol 30 or 31. -/
  | distInvalid (dsym : BitVec 5)
  /-- `CL_LEN` (44_dynamic_header.md R706), the CL symbol 0 to 15, itself the code length. -/
  | clLen (c : BitVec 5)
  /-- `CL_REP16` (44_dynamic_header.md R707). -/
  | clRep16
  /-- `CL_ZERO17` (44_dynamic_header.md R708). -/
  | clZero17
  /-- `CL_ZERO18` (44_dynamic_header.md R709). -/
  | clZero18
  deriving DecidableEq, Repr

end Sys2Proof
end

