-- ==== Sys2Proof/WellFormed.lean ====
section
/-! DEFINITION. Which terms of `Instr` are elements of the opcode table: the free part of a row's value lies where the
row's match and mask put it (30_encoding.md R311 to R314). -/

namespace Sys2Proof

/-- The operand of an element lies in its row's range. -/
def wellFormed : Instr → Bool
  | .lit sym => decide (sym.toNat < 256)
  | .litlenInvalid sym => decide (sym.toNat = 286 ∨ sym.toNat = 287)
  | .distInvalid dsym => decide (dsym.toNat = 30 ∨ dsym.toNat = 31)
  | .clLen c => decide (c.toNat < 16)
  | _ => true

end Sys2Proof
end

