-- ==== Sys2Proof/Decode.lean ====
section
/-! DEFINITION. The decoder and the encoder of the stream (30_encoding.md). Decoding has two layers, as the spec has: a
value of a format selects the element (R310 to R314), and the bits of the stream give the value (R301, R304 to R306).
Both layers are total and reject by name. -/

namespace Sys2Proof

open Sys2Proof.Machine

/-! ## From a value to an element (R310 to R314) -/

/-- Why no element is decoded: the value has no row in the format, the bits end in a path with no code (R307), or the
bits end too soon. -/
inductive DecodeError where
  | noTableRow (f : Format) (v : Nat)
  | noCode
  | truncated
  deriving DecidableEq, Repr

/-- The 29 length codes in the order of their symbols 257 to 285 (R311). -/
def lengthCodes : List Instr :=
  [.len257, .len258, .len259, .len260, .len261, .len262,
   .len263, .len264, .len265, .len266, .len267, .len268,
   .len269, .len270, .len271, .len272, .len273, .len274,
   .len275, .len276, .len277, .len278, .len279, .len280,
   .len281, .len282, .len283, .len284, .len285]

/-- The 30 distance codes in the order of their symbols 0 to 29 (R312). -/
def distanceCodes : List Instr :=
  [.dist0, .dist1, .dist2, .dist3, .dist4, .dist5,
   .dist6, .dist7, .dist8, .dist9, .dist10, .dist11,
   .dist12, .dist13, .dist14, .dist15, .dist16, .dist17,
   .dist18, .dist19, .dist20, .dist21, .dist22, .dist23,
   .dist24, .dist25, .dist26, .dist27, .dist28, .dist29]

/-- The header value v: `BFINAL = v[0]`, `BTYPE = v[2:1]` (R301, R310). -/
def decodeBlockHdr (v : Nat) : Except DecodeError Instr :=
  match v / 2 with
  | 0 => .ok (.blkStored (decide (v % 2 = 1)))
  | 1 => .ok (.blkFixed (decide (v % 2 = 1)))
  | 2 => .ok (.blkDynamic (decide (v % 2 = 1)))
  | 3 => .ok (.blkReserved (decide (v % 2 = 1)))
  | _ => .error (.noTableRow .blockHdr v)

/-- A literal/length symbol (R311). -/
def decodeLitlen (v : Nat) : Except DecodeError Instr :=
  if v < 256 then .ok (.lit (BitVec.ofNat 9 v))
  else if v = 256 then .ok .eob
  else
    match lengthCodes[v - 257]? with
    | some i => .ok i
    | none => if v < 288 then .ok (.litlenInvalid (BitVec.ofNat 9 v)) else .error (.noTableRow .litlenSymbol v)

/-- A distance symbol (R312). -/
def decodeDist (v : Nat) : Except DecodeError Instr :=
  match distanceCodes[v]? with
  | some i => .ok i
  | none => if v < 32 then .ok (.distInvalid (BitVec.ofNat 5 v)) else .error (.noTableRow .distSymbol v)

/-- A code-length symbol (R313). -/
def decodeCl (v : Nat) : Except DecodeError Instr :=
  if v < 16 then .ok (.clLen (BitVec.ofNat 5 v))
  else
    match v - 16 with
    | 0 => .ok .clRep16
    | 1 => .ok .clZero17
    | 2 => .ok .clZero18
    | _ => .error (.noTableRow .clSymbol v)

/-- The element that a decoded value of a format selects (R310 to R314). -/
def decodeValue : Format → Nat → Except DecodeError Instr
  | .blockHdr, v => decodeBlockHdr v
  | .litlenSymbol, v => decodeLitlen v
  | .distSymbol, v => decodeDist v
  | .clSymbol, v => decodeCl v

/-! ## From the bits of the stream to a value (R301, R304 to R307) -/

/-- How the stream writes the next value: the 3-bit header field (R301), a Huffman code of a tree whose value is a
symbol of the format (R304 to R306), or the 5-bit distance number of a fixed block (R306). -/
inductive ValueCode where
  | header
  | huffman (f : Format) (T : Tree)
  | fixedDist
  deriving DecidableEq, Repr

/-- The format of the value so written. -/
def codeFormat : ValueCode → Format
  | .header => .blockHdr
  | .huffman f _ => f
  | .fixedDist => .distSymbol

/-- The value at the head of a bit string, and the bits after it. -/
def readCode : ValueCode → List Bool → Except DecodeError (Nat × List Bool)
  | .header, bs => if bs.length < 3 then .error .truncated else .ok (natOfBitsLsb (bs.take 3), bs.drop 3)
  | .fixedDist, bs =>
    if bs.length < 5 then .error .truncated else .ok (natOfBitsLsb (bs.take 5).reverse, bs.drop 5)
  | .huffman _ T, bs =>
    match walk T bs with
    | .found s rest => .ok (s, rest)
    | .absent _ => .error .noCode
    | .truncated => .error .truncated

/-- The decoder: the element at the head of a bit string, and the bits after its value (its extra bits among them). -/
def decodeBits (k : ValueCode) (bs : List Bool) : Except DecodeError (Instr × List Bool) :=
  match readCode k bs with
  | .error e => .error e
  | .ok (v, rest) =>
    match decodeValue (codeFormat k) v with
    | .error e => .error e
    | .ok i => .ok (i, rest)

/-! ## The encoder (R301, R309 to R314) -/

/-- The format of an element (spec/opcode_table.json). -/
def formatOf : Instr → Format
  | .blkStored _ | .blkFixed _ | .blkDynamic _ | .blkReserved _ => .blockHdr
  | .lit _ | .eob | .litlenInvalid _
  | .len257 | .len258 | .len259 | .len260 | .len261 | .len262
  | .len263 | .len264 | .len265 | .len266 | .len267 | .len268
  | .len269 | .len270 | .len271 | .len272 | .len273 | .len274
  | .len275 | .len276 | .len277 | .len278 | .len279 | .len280
  | .len281 | .len282 | .len283 | .len284 | .len285 => .litlenSymbol
  | .distInvalid _
  | .dist0 | .dist1 | .dist2 | .dist3 | .dist4 | .dist5
  | .dist6 | .dist7 | .dist8 | .dist9 | .dist10 | .dist11
  | .dist12 | .dist13 | .dist14 | .dist15 | .dist16 | .dist17
  | .dist18 | .dist19 | .dist20 | .dist21 | .dist22 | .dist23
  | .dist24 | .dist25 | .dist26 | .dist27 | .dist28 | .dist29 => .distSymbol
  | .clLen _ | .clRep16 | .clZero17 | .clZero18 => .clSymbol

/-- The header value v of a block type and its final bit (R301). -/
def headerValue (btype : Nat) (bfinal : Bool) : Nat := 2 * btype + bitNat bfinal

/-- The value of an element in its format: its row's `match`, with the free bits of the row filled in (R310 to R314). -/
def encode : Instr → Nat
  | .blkStored f => headerValue 0 f
  | .blkFixed f => headerValue 1 f
  | .blkDynamic f => headerValue 2 f
  | .blkReserved f => headerValue 3 f
  | .lit sym => sym.toNat
  | .eob => 256
  | .len257 => 257
  | .len258 => 258
  | .len259 => 259
  | .len260 => 260
  | .len261 => 261
  | .len262 => 262
  | .len263 => 263
  | .len264 => 264
  | .len265 => 265
  | .len266 => 266
  | .len267 => 267
  | .len268 => 268
  | .len269 => 269
  | .len270 => 270
  | .len271 => 271
  | .len272 => 272
  | .len273 => 273
  | .len274 => 274
  | .len275 => 275
  | .len276 => 276
  | .len277 => 277
  | .len278 => 278
  | .len279 => 279
  | .len280 => 280
  | .len281 => 281
  | .len282 => 282
  | .len283 => 283
  | .len284 => 284
  | .len285 => 285
  | .litlenInvalid sym => sym.toNat
  | .dist0 => 0
  | .dist1 => 1
  | .dist2 => 2
  | .dist3 => 3
  | .dist4 => 4
  | .dist5 => 5
  | .dist6 => 6
  | .dist7 => 7
  | .dist8 => 8
  | .dist9 => 9
  | .dist10 => 10
  | .dist11 => 11
  | .dist12 => 12
  | .dist13 => 13
  | .dist14 => 14
  | .dist15 => 15
  | .dist16 => 16
  | .dist17 => 17
  | .dist18 => 18
  | .dist19 => 19
  | .dist20 => 20
  | .dist21 => 21
  | .dist22 => 22
  | .dist23 => 23
  | .dist24 => 24
  | .dist25 => 25
  | .dist26 => 26
  | .dist27 => 27
  | .dist28 => 28
  | .dist29 => 29
  | .distInvalid dsym => dsym.toNat
  | .clLen c => c.toNat
  | .clRep16 => 16
  | .clZero17 => 17
  | .clZero18 => 18

/-- The fixed literal/length code of a symbol, first-read bit first (the table of R309). -/
def fixedCodeBits (sym : Nat) : List Bool :=
  if sym < 144 then bitsMsb 8 (0x30 + sym)
  else if sym < 256 then bitsMsb 9 (0x190 + (sym - 144))
  else if sym < 280 then bitsMsb 7 (sym - 256)
  else if sym < 288 then bitsMsb 8 (0xC0 + (sym - 280))
  else []

/-- The bits in stream order of a value, where the format has a code of its own: the header field (R301), the fixed
literal/length code (R309), the fixed-block distance number (R306). A CL symbol has none (spec/opcode_table.json), since
its code is the block's: here it is written in the code of `plainClTree`. -/
def fixedBits : Format → Nat → List Bool
  | .blockHdr, v => bitsLsb 3 v
  | .litlenSymbol, v => fixedCodeBits v
  | .distSymbol, v => bitsMsb 5 v
  | .clSymbol, v => bitsMsb 5 v

/-- A tree of the code-length alphabet in which every symbol s has the 5-bit code s: what `BuildCanonical` makes of 19
lengths of 5 (44_dynamic_header.md R705 allows it). Only `decodeTableWord` and `withFetchWord` use it, where the table
gives a CL symbol no code; log entry 16. -/
def plainClTree : Tree := .internal (fullTree 4 0) (.internal (.internal (.internal
  (.internal (.leaf 16) (.leaf 17)) (.internal (.leaf 18) .absent)) .absent) .absent)

/-- How `fixedBits` writes the values of a format. -/
def fixedValueCode : Format → ValueCode
  | .blockHdr => .header
  | .litlenSymbol => .huffman .litlenSymbol fixedLitTree
  | .distSymbol => .fixedDist
  | .clSymbol => .huffman .clSymbol plainClTree

/-- The bits in stream order of an element (its value, without extra bits). -/
def encodeBits (i : Instr) : List Bool := fixedBits (formatOf i) (encode i)

/-! ## The words of the opcode table

The table numbers the bits of the decoded VALUE, and its four formats number their values from 0, so a word alone does
not say its format. The words of two bytes are those of LITLEN_SYMBOL, but for the values 18 to 29, which the table's
`fields` make two bytes of the rows DIST_18 to DIST_29. Of the words of one byte, 0, 2, 4, 6 are read as the BLOCK_HDR
rows (with BFINAL 0), 16, 17, 18 as the CL_SYMBOL rows, and the others as DIST_SYMBOL values. DESIGN CHOICE, log entry
16. -/

/-- The format and the value of a word of the opcode table. -/
def tableWord (nbits w : Nat) : Format × Nat :=
  if 8 < nbits then
    let v := w % 512
    if 18 ≤ v ∧ v ≤ 29 then (.distSymbol, v) else (.litlenSymbol, v)
  else
    let v := w % 32
    if w = 0 ∨ w = 2 ∨ w = 4 ∨ w = 6 then (.blockHdr, w)
    else if v = 16 ∨ v = 17 ∨ v = 18 then (.clSymbol, v)
    else (.distSymbol, v)

/-- The bits in stream order of a word of the opcode table; the bits after it (the extra bits) are zeros. -/
def tableWordBits (nbits w : Nat) : List Bool := fixedBits (tableWord nbits w).1 (tableWord nbits w).2

/-- The element the decoder reads from a word of the opcode table. -/
def decodeTableWord (nbits w : Nat) : Option Instr :=
  match decodeBits (fixedValueCode (tableWord nbits w).1) (tableWordBits nbits w) with
  | .ok (i, _) => some i
  | .error _ => none

end Sys2Proof
end

