-- ==== Sys2Proof/Machine/State.lean ====
section
/-! DEFINITION. The architectural state (10_state.md), as plain data, and its value at power-on reset. -/

namespace Sys2Proof.Machine

/-- The safety policy of the byte source (10_state.md R109). -/
inductive Policy where
  | checked | raw
  deriving DecidableEq, Repr

/-- The block state machine (10_state.md R110). `STATUS` is a function of it (Machine/Flags.lean). -/
inductive Phase where
  | idle | blockHeader | stored | dynHeader | tokens | done | error
  deriving DecidableEq, Repr

/-- A command of the host (60_exceptions.md R830, 70_reset_and_hazards.md R902). -/
inductive HostCmd where
  /-- Supply the byte source and the policy (10_state.md R109). -/
  | setup (bytes : List Byte) (policy : Policy)
  /-- The command `START` (42_inflate_blocks.md R500). -/
  | start
  /-- Power-on reset (70_reset_and_hazards.md R901, R902), applied once `delay` further steps have been taken. -/
  | powerOnReset (delay : Nat)
  deriving DecidableEq, Repr

/-- A byte space: (address, byte) cells in canonical form, addresses strictly rising and no byte 0, since an unlisted
address reads as 0. DESIGN CHOICE, log entry 7; unsafe only for a space whose length covers bytes nobody wrote. -/
abbrev Memory := List Host.Cell

/-- The whole state of one decoder instance (10_state.md R100, R101, R125). -/
structure State where
  /-- `SRC` (R109, 20_memory.md R201), its bytes at 0 to `SRC_LEN` − 1. -/
  src : Memory
  /-- `SRC_LEN` (R109). -/
  srcLen : Nat
  /-- `POLICY` (R109). -/
  policy : Policy
  /-- `OUT_CAPACITY` (00_scope.md R12, 20_memory.md R211), `none` for `UNBOUNDED`; no step writes it. DESIGN CHOICE, log
  entry 6; safe. -/
  outCapacity : Option Nat
  /-- The host's coming commands, next first: the model's own field. DESIGN CHOICE, log entry 2. -/
  hostCmds : List HostCmd
  /-- `PHASE` (R110), and through it `STATUS` (R104). -/
  phase : Phase
  /-- `ERR_KIND` (R105). -/
  errKind : ErrKind
  /-- `ERR_CAUSE` (R106). -/
  errCause : ErrCause
  /-- `FINAL_POS` (R108). -/
  finalPos : Pos
  /-- `BYTE_IDX` (R102, R103). -/
  byteIdx : Nat
  /-- `BIT_IDX` (R102, R103). -/
  bitIdx : BitVec 3
  /-- `BFINAL` (R111), the only flag of the block. -/
  bfinal : Reg Bool
  /-- `BTYPE` (R112). -/
  btype : Reg (BitVec 2)
  /-- `LEN` (R113). -/
  len : Reg (BitVec 16)
  /-- `NLEN` (R113). -/
  nlen : Reg (BitVec 16)
  /-- `REMAIN` (R113). -/
  remain : Reg (BitVec 16)
  /-- `HLIT` (R114). -/
  hlit : Reg (BitVec 9)
  /-- `HDIST` (R114). -/
  hdist : Reg (BitVec 6)
  /-- `HCLEN` (R114). -/
  hclen : Reg (BitVec 5)
  /-- `CLL[0..18]` (R115). -/
  cll : Reg (Vector (BitVec 3) 19)
  /-- `LENGTHS` (R116). -/
  lengths : Reg (List (BitVec 4))
  /-- `CL_TREE` (R117). -/
  clTree : Reg Tree
  /-- `LIT_TREE` (R117). -/
  litTree : Reg Tree
  /-- `DIST_TREE` (R117). -/
  distTree : Reg Tree
  /-- `BL_COUNT[0..15]` (R120), scratch of one build: never written for a later read (log entry 24). -/
  blCount : Reg (List Nat)
  /-- `NEXT_CODE[1..15]` (R120), scratch of one build, with an entry 0 that is no entry (log entry 24). -/
  nextCode : Reg (List Nat)
  /-- `SYM` (R121). -/
  sym : Reg (BitVec 9)
  /-- `DSYM` (R121). -/
  dsym : Reg (BitVec 5)
  /-- `MATCH_LEN` (R121). -/
  matchLen : Reg (BitVec 9)
  /-- `MATCH_DIST` (R121). -/
  matchDist : Reg (BitVec 16)
  /-- `COPY_REMAIN` (R121). -/
  copyRemain : Reg (BitVec 9)
  /-- The position inside `LengthCode` (43_token_loop.md R553): a length code has been read and its distance symbol is
  the next element. The model's own field. DESIGN CHOICE, log entry 9; safe. -/
  distPending : Bool
  /-- `OUT` (R122, 20_memory.md R210), its bytes at 0 to `OUT_LEN` − 1. -/
  out : Memory
  /-- `OUT_LEN` (R122). -/
  outLen : Nat
  deriving DecidableEq, Repr

/-- Why the machine stops with a fault (60_exceptions.md R810). None of them is a status the hardware reports. -/
inductive Fault where
  /-- `UNDEFINED_SOURCE_READ`: raised by a cursor read at `BYTE_IDX` >= `SRC_LEN` under `RAW` (40_bit_cursor.md R406).
  Safe: the spec gives no value. -/
  | undefinedSourceRead
  /-- `UNALIGNED_READ_BYTE`: raised by `readByte` at `BIT_IDX` != 0 (40_bit_cursor.md R405). Safe, and not reachable by
  the rules (R407). -/
  | unalignedReadByte
  /-- `UNWRITTEN_REGISTER_READ`: raised by a rule's read of an internal register this decode has not written (10_state.md
  R128). Safe, and not reachable by the rules. -/
  | unwrittenRegisterRead
  /-- Raised by a read of `OUT` at or past `OUT_LEN`, an address that does not exist (20_memory.md R210, R213). The
  model's own guard: safe, and not reachable by the rules. DESIGN CHOICE, log entry 11. -/
  | outputReadPastEnd
  deriving DecidableEq, Repr

/-- Why a step gives no meaning. -/
inductive Refusal where
  /-- An instruction without a meaning in the model, by its mnemonic: raised by an arm of `exec` alone. Safe. No arm does. -/
  | notModelled (mnemonic : String)
  /-- A tree gave a value that has no row in its format: raised by the step. Safe: no tree that the rules build has such
  a symbol (30_encoding.md R311 to R314). DESIGN CHOICE, log entry 10. -/
  | noTableRow
  deriving DecidableEq, Repr

/-- Power-on reset of a new instance (70_reset_and_hazards.md R901, 10_state.md R129): status registers as the spec says,
every register the spec leaves unspecified at a named value and unwritten (DESIGN CHOICE, log entry 4; unsafe), the
host's inputs not yet supplied (DESIGN CHOICE, log entry 5; unsafe), the capacity at its reference value. -/
def State.reset : State where
  src := []
  srcLen := 0
  policy := .checked
  outCapacity := none
  hostCmds := []
  phase := .idle
  errKind := .none
  errCause := .none
  finalPos := ⟨0, 0⟩
  byteIdx := 0
  bitIdx := 0
  bfinal := unwritten false
  btype := unwritten 0
  len := unwritten 0
  nlen := unwritten 0
  remain := unwritten 0
  hlit := unwritten 0
  hdist := unwritten 0
  hclen := unwritten 0
  cll := unwritten (Vector.replicate 19 0)
  lengths := unwritten []
  clTree := unwritten emptyTree
  litTree := unwritten emptyTree
  distTree := unwritten emptyTree
  blCount := unwritten (List.replicate 16 0)
  nextCode := unwritten (List.replicate 16 0)
  sym := unwritten 0
  dsym := unwritten 0
  matchLen := unwritten 0
  matchDist := unwritten 0
  copyRemain := unwritten 0
  distPending := false
  out := []
  outLen := 0

end Sys2Proof.Machine
end

