-- ==== Sys2Proof/Machine/Ops.lean ====
section
/-! DEFINITION. The named operations over memory and registers: the two byte spaces, register reads, the five operations
of the bit cursor, appending to and reading `OUT`, the walk of `Decode`, and raising an error, which every element
shares. -/

namespace Sys2Proof.Machine

/-! ## Byte spaces (20_memory.md R201, R210) -/

/-- The byte at an address; an unlisted address reads as 0 (log entry 7). -/
def Memory.read : Memory → Nat → Byte
  | [], _ => 0
  | (x, b) :: m, a => if x = a then b else Memory.read m a

/-- Write the byte at an address and keep the canonical form. -/
def Memory.write : Memory → Nat → Byte → Memory
  | [], a, b => if b = 0 then [] else [(a, b)]
  | (x, y) :: m, a, b =>
    if a < x then (if b = 0 then (x, y) :: m else (a, b) :: (x, y) :: m)
    else if a = x then (if b = 0 then m else (a, b) :: m)
    else (x, y) :: Memory.write m a b

/-- The canonical form from address `lo` up: addresses strictly rising, no byte 0. -/
def Memory.wfFrom : Nat → Memory → Bool
  | _, [] => true
  | lo, (x, b) :: m => decide (lo ≤ x) && decide (b ≠ 0) && Memory.wfFrom (x + 1) m

/-- The canonical form. -/
def Memory.wf (m : Memory) : Bool := Memory.wfFrom 0 m

/-- The cells of a list of bytes laid out from address `a`. -/
def Memory.ofBytesAt : Nat → List Byte → Memory
  | _, [] => []
  | a, b :: bs => if b = 0 then Memory.ofBytesAt (a + 1) bs else (a, b) :: Memory.ofBytesAt (a + 1) bs

/-- The byte space that holds a list of bytes from address 0. -/
def Memory.ofBytes (bs : List Byte) : Memory := Memory.ofBytesAt 0 bs

/-! ## The result of an operation (00_scope.md R21) -/

/-- How an operation ends: with a value and the state it leaves; with `raise E(cause)`, which stops the decode in the
state so far (60_exceptions.md R820); or at a `fault`, where the model has no meaning (60_exceptions.md R810). -/
inductive Res (α : Type) where
  | ok (a : α) (s : State)
  | raise (kind : ErrKind) (cause : ErrCause) (s : State)
  | fault (f : Fault)
  deriving Repr

/-- Run an operation after another; nothing runs after a `raise` or a `fault` (00_scope.md R21). -/
def Res.bind {α β : Type} (r : Res α) (f : α → State → Res β) : Res β :=
  match r with
  | .ok a s => f a s
  | .raise k c s => .raise k c s
  | .fault x => .fault x

/-- `Abort(E, cause)` (60_exceptions.md R820), the one exception mechanism of the block: the error's kind and cause are
recorded, `PHASE` becomes `ERROR` and with it `STATUS` becomes `DONE_ERR`. Nothing is saved and nothing returns (R822). -/
def State.abort (s : State) (kind : ErrKind) (cause : ErrCause) : State :=
  { s with errKind := kind, errCause := cause, phase := .error }

/-- The outcome of an element: its next state, the aborted state of an error it raises, or a fault. -/
def Res.outcome (r : Res Unit) : Host.Outcome State Fault Refusal :=
  match r with
  | .ok _ s => .next s
  | .raise k c s => .next (s.abort k c)
  | .fault x => .fault x

/-! ## Registers (10_state.md R128) -/

/-- A rule's read of an internal register: a fault where this decode has not written it. -/
def readReg {α : Type} (r : Reg α) (s : State) : Res α :=
  if r.written then .ok r.val s else .fault .unwrittenRegisterRead

/-! ## The bit cursor (40_bit_cursor.md) -/

/-- `SourceOverrun()` (R406): what a cursor read does at `BYTE_IDX` >= `SRC_LEN`. -/
def sourceOverrun {α : Type} (s : State) : Res α :=
  match s.policy with
  | .checked => .raise .outOfRange .none s
  | .raw => .fault .undefinedSourceRead

/-- The cursor one bit further on (R401): past bit 7 comes bit 0 of the next byte. -/
def State.stepBit (s : State) : State :=
  if s.bitIdx = 7 then { s with byteIdx := s.byteIdx + 1, bitIdx := 0 } else { s with bitIdx := s.bitIdx + 1 }

/-- `nextBit()` (R401). -/
def nextBit (s : State) : Res Bool :=
  if s.srcLen ≤ s.byteIdx then sourceOverrun s
  else .ok ((Memory.read s.src s.byteIdx).getLsbD s.bitIdx.toNat) s.stepBit

/-- `readBits(n)` (R402): the first-read bit is the least significant. -/
def readBits : Nat → State → Res Nat
  | 0, s => .ok 0 s
  | n + 1, s => (nextBit s).bind fun b s => (readBits n s).bind fun v s => .ok (bitNat b + 2 * v) s

/-- The loop of `readBitsReversed` with `v` read so far. -/
def readBitsReversedFrom (v : Nat) : Nat → State → Res Nat
  | 0, s => .ok v s
  | n + 1, s => (nextBit s).bind fun b s => readBitsReversedFrom (2 * v + bitNat b) n s

/-- `readBitsReversed(n)` (R403): the first-read bit is the most significant. -/
def readBitsReversed (n : Nat) (s : State) : Res Nat := readBitsReversedFrom 0 n s

/-- `alignToByte()` (R404): at a byte boundary nothing changes. -/
def alignToByte (s : State) : State :=
  if s.bitIdx = 0 then s else { s with byteIdx := s.byteIdx + 1, bitIdx := 0 }

/-- `readByte()` (R405). -/
def readByte (s : State) : Res Byte :=
  if s.bitIdx ≠ 0 then .fault .unalignedReadByte
  else if s.srcLen ≤ s.byteIdx then sourceOverrun s
  else .ok (Memory.read s.src s.byteIdx) { s with byteIdx := s.byteIdx + 1 }

/-! ## The output buffer (20_memory.md R211 to R213) -/

/-- The buffer is full (R211). -/
def State.outFull (s : State) : Bool := s.outCapacity == some s.outLen

/-- The state after the byte `b` is appended at `OUT_LEN`. -/
def State.pushByte (s : State) (b : Byte) : State :=
  { s with out := Memory.write s.out s.outLen b, outLen := s.outLen + 1 }

/-- `OutAppend(b)` (R212). -/
def outAppend (b : Byte) (s : State) : Res Unit :=
  if s.outFull then .raise .capacityExceeded .none s else .ok () (s.pushByte b)

/-- `OutByte(i)` (R213); an address at or past `OUT_LEN` does not exist (R210). -/
def outByte (i : Nat) (s : State) : Res Byte :=
  if i < s.outLen then .ok (Memory.read s.out i) s else .fault .outputReadPastEnd

/-- The loop of `CopyStored()` (42_inflate_blocks.md R512) with `n` bytes still to copy. -/
def copyStoredLoop : Nat → State → Res Unit
  | 0, s => .ok () s
  | n + 1, s =>
    (readByte s).bind fun b s =>
      (outAppend b s).bind fun _ s =>
        copyStoredLoop n { s with remain := wrote (BitVec.ofNat 16 n) }

/-- The loop of `CopyMatch()` (43_token_loop.md R618) at distance `dist` with `n` bytes still to copy. -/
def copyMatchLoop (dist : Nat) : Nat → State → Res Unit
  | 0, s => .ok () s
  | n + 1, s =>
    (outByte (s.outLen - dist) s).bind fun b s =>
      (outAppend b s).bind fun _ s =>
        copyMatchLoop dist n { s with copyRemain := wrote (BitVec.ofNat 9 n) }

/-! ## The decoder (41_huffman_trees.md R460) -/

/-- `Decode(T)` (R460): a bit is read before the child is examined; an absent child raises `UnknownSymbol`; a leaf root
reads nothing (R462). -/
def decodeSymbol : Tree → State → Res Nat
  | .leaf x, s => .ok x s
  | .absent, s => .raise .unknownSymbol .none s
  | .internal l r, s => (nextBit s).bind fun b s => if b then decodeSymbol r s else decodeSymbol l s

end Sys2Proof.Machine
end

