-- ==== Sys2Proof/Machine/Operands.lean ====
section
/-! DEFINITION. Operand assembly (30_encoding.md R308): every operand of an element is an unsigned value read from the
stream by the element, in the order its rule gives. -/

namespace Sys2Proof.Machine

/-- A base plus an extra field of `n` bits (30_encoding.md R308). -/
def readBasePlus (base n : Nat) (s : State) : Res Nat :=
  (readBits n s).bind fun x s => .ok (base + x) s

/-- `HLIT` = `readBits(5) + 257` (44_dynamic_header.md R701). -/
def readHlit (s : State) : Res Nat := readBasePlus 257 5 s

/-- `HDIST` = `readBits(5) + 1` (44_dynamic_header.md R702). -/
def readHdist (s : State) : Res Nat := readBasePlus 1 5 s

/-- `HCLEN` = `readBits(4) + 4` (44_dynamic_header.md R703). -/
def readHclen (s : State) : Res Nat := readBasePlus 4 4 s

/-- The repeat count of CL symbol 16 (44_dynamic_header.md R707). -/
def readRep16 (s : State) : Res Nat := readBasePlus 3 2 s

/-- The repeat count of CL symbol 17 (44_dynamic_header.md R708). -/
def readZero17 (s : State) : Res Nat := readBasePlus 3 3 s

/-- The repeat count of CL symbol 18 (44_dynamic_header.md R709). -/
def readZero18 (s : State) : Res Nat := readBasePlus 11 7 s

/-- `LENGTH_TABLE[sym − 257]` (43_token_loop.md R553). -/
def lengthEntry (sym : Nat) : Nat × Nat := lengthTable.getD (sym - 257) (0, 0)

/-- `DIST_TABLE[d]` (43_token_loop.md R585). -/
def distEntry (d : Nat) : Nat × Nat := distTable.getD d (0, 0)

/-- The match length of a length code: `baseLength + readBits(extraBits)` (43_token_loop.md R553). -/
def readMatchLength (sym : Nat) (s : State) : Res Nat :=
  readBasePlus (lengthEntry sym).2 (lengthEntry sym).1 s

/-- The match distance of a distance code: `baseDistance + readBits(extraBits)` (43_token_loop.md R585). -/
def readMatchDist (d : Nat) (s : State) : Res Nat :=
  readBasePlus (distEntry d).2 (distEntry d).1 s

/-- A 16-bit field of a stored block: two bytes, low byte first (20_memory.md R208, 42_inflate_blocks.md R510). -/
def readLe16 (s : State) : Res (BitVec 16) :=
  (readByte s).bind fun lo s => (readByte s).bind fun hi s => .ok (hi ++ lo) s

end Sys2Proof.Machine
end

