-- ==== Sys2Proof/Machine/Builds.lean ====
section
/-! DEFINITION. The dynamic-block header's shared operations over registers: building a tree, reading the code-length
code lengths, expanding code lengths, and the split (44_dynamic_header.md). -/

namespace Sys2Proof.Machine

/-- `BuildCanonical(L)` as the block runs it (41_huffman_trees.md R452): `BL_COUNT` is counted, the Kraft check may
raise, `NEXT_CODE` is used up. No value of the two survives for a later read (10_state.md R120, log entry 24). -/
def buildTree (L : List Nat) (s : State) : Res Tree :=
  let bl := countLengths L
  let s := { s with blCount := unwritten bl }
  if oversubscribed bl then .raise .dataCorruption .oversubscribedCode s
  else .ok (canonicalTree L) { s with nextCode := unwritten (assignCodes L (firstCodes bl)).2 }

/-- The reads of `ReadCodeLengthCodeLengths()` (R704) for the CL symbols of a list, in its order. -/
def readCll : List Nat → State → Res Unit
  | [], s => .ok () s
  | c :: cs, s =>
    (readBits 3 s).bind fun v s =>
      (readReg s.cll s).bind fun cll s =>
        readCll cs { s with cll := wrote (cll.setIfInBounds c (BitVec.ofNat 3 v)) }

/-- `ReadCodeLengthCodeLengths()` (R704): `CLL` is cleared, then `HCLEN` entries are read in the order `CL_ORDER`. -/
def readCodeLengthCodeLengths (s : State) : Res Unit :=
  (readReg s.hclen s).bind fun hclen s =>
    readCll (clOrder.take hclen.toNat) { s with cll := wrote (Vector.replicate 19 0) }

/-- `CL_TREE <- BuildCanonical(CLL[0..18])` (R705). -/
def buildClTree (s : State) : Res Unit :=
  (readReg s.cll s).bind fun cll s =>
    (buildTree (cll.toList.map BitVec.toNat) s).bind fun t s => .ok () { s with clTree := wrote t }

/-- `AppendLengths(v, n)` (R710): the run must fit before any of it is appended. -/
def appendLengths (v : BitVec 4) (n : Nat) (s : State) : Res Unit :=
  (readReg s.lengths s).bind fun lengths s =>
    (readReg s.hlit s).bind fun hlit s =>
      (readReg s.hdist s).bind fun hdist s =>
        if hlit.toNat + hdist.toNat < lengths.length + n then .raise .dataCorruption .codeLengthOverrun s
        else .ok () { s with lengths := wrote (lengths ++ List.replicate n v) }

/-- `SplitAndBuild()` (R711), then the token loop begins at a literal/length symbol (42_inflate_blocks.md R506). -/
def splitAndBuild (s : State) : Res Unit :=
  (readReg s.lengths s).bind fun lengths s =>
    (readReg s.hlit s).bind fun hlit s =>
      (readReg s.hdist s).bind fun hdist s =>
        let L := lengths.map BitVec.toNat
        (buildTree (L.take hlit.toNat) s).bind fun lit s =>
          let s := { s with litTree := wrote lit }
          (buildTree ((L.drop hlit.toNat).take hdist.toNat) s).bind fun dist s =>
            .ok () { s with distTree := wrote dist, phase := .tokens, distPending := false }

/-- The test of the loop of `DynamicHeader()` after an element (R700): the loop runs while fewer than `HLIT + HDIST`
lengths are there, and then the lengths are split. -/
def endOfClElement (s : State) : Res Unit :=
  (readReg s.lengths s).bind fun lengths s =>
    (readReg s.hlit s).bind fun hlit s =>
      (readReg s.hdist s).bind fun hdist s =>
        if lengths.length < hlit.toNat + hdist.toNat then .ok () s else splitAndBuild s

/-- A code-length element's run of `n` lengths `v`, with the loop test after it (R706 to R710, R700). -/
def clRun (v : BitVec 4) (n : Nat) (s : State) : Res Unit :=
  (appendLengths v n s).bind fun _ s => endOfClElement s

end Sys2Proof.Machine
end

