-- ==== Sys2Proof/Machine/Flags.lean ====
section
/-! DEFINITION. The one flag of the block, BFINAL, and what reads it (10_state.md R111, R126), the status the host sees,
and the numbers of the status and error codes (R104 to R106, R110). -/

namespace Sys2Proof.Machine

/-- The values of `STATUS` (10_state.md R104). -/
inductive Status where
  | idle | busy | doneOk | doneErr
  deriving DecidableEq, Repr

/-- `STATUS` as the function of `PHASE` (10_state.md R110). -/
def statusOf : Phase → Status
  | .idle => .idle
  | .blockHeader | .stored | .dynHeader | .tokens => .busy
  | .done => .doneOk
  | .error => .doneErr

/-- The register `STATUS` (10_state.md R104, R110). -/
def State.status (s : State) : Status := statusOf s.phase

/-- A decode is running. -/
def State.busy (s : State) : Bool := decide (s.status = .busy)

/-- The number of a `STATUS` value (10_state.md R104). -/
def statusCode : Status → BitVec 2
  | .idle => 0
  | .busy => 1
  | .doneOk => 2
  | .doneErr => 3

/-- The number of an `ERR_KIND` value (10_state.md R105). -/
def errKindCode : ErrKind → BitVec 3
  | .none => 0
  | .dataCorruption => 1
  | .unknownSymbol => 2
  | .emptyAlphabet => 3
  | .outOfRange => 4
  | .unsupportedFeature => 5
  | .capacityExceeded => 6

/-- The number of an `ERR_CAUSE` value (10_state.md R106). -/
def errCauseCode : ErrCause → BitVec 4
  | .none => 0
  | .reservedBtype => 1
  | .storedLenMismatch => 2
  | .distanceTooFar => 3
  | .repeatWithoutPrevious => 4
  | .invalidLitlenSymbol => 5
  | .invalidDistanceSymbol => 6
  | .codeLengthOverrun => 7
  | .oversubscribedCode => 8

/-- `Complete()` (42_inflate_blocks.md R509). -/
def State.complete (s : State) : State :=
  { s with finalPos := ⟨s.byteIdx, s.bitIdx⟩, phase := .done }

/-- The end of a block (42_inflate_blocks.md R508): BFINAL decides between the end of the decode and the next block
header, read at the cursor as it stands. -/
def endOfBlock (s : State) : Res Unit :=
  (readReg s.bfinal s).bind fun final s =>
    if final then .ok () s.complete else .ok () { s with phase := .blockHeader }

end Sys2Proof.Machine
end

