-- ==== Sys2Proof/Machine/Blocks.lean ====
section
/-! DEFINITION. The four block kinds (42_inflate_blocks.md R504 to R507). A block element writes BFINAL and BTYPE, the
registers of its header value (R502), and does what its rule says up to the next element. -/

namespace Sys2Proof.Machine

/-- The state after the header value of a block is read (R502). -/
def State.withHeader (s : State) (bfinal : Bool) (btype : BitVec 2) : State :=
  { s with bfinal := wrote bfinal, btype := wrote btype }

/-- `ReadStoredLengths()` (R510): all four bytes, before the check. -/
def readStoredLengths (s : State) : Res Unit :=
  (readLe16 s).bind fun len s =>
    let s := { s with len := wrote len }
    (readLe16 s).bind fun nlen s => .ok () { s with nlen := wrote nlen }

/-- `CheckStoredLengths()` (R511). -/
def checkStoredLengths (s : State) : Res Unit :=
  (readReg s.len s).bind fun len s =>
    (readReg s.nlen s).bind fun nlen s =>
      if len ≠ 0xFFFF - nlen then .raise .dataCorruption .storedLenMismatch s else .ok () s

/-- `CopyStored()` (R512). -/
def copyStored (s : State) : Res Unit :=
  (readReg s.len s).bind fun len s => copyStoredLoop len.toNat { s with remain := wrote len }

/-- `BLK_STORED` (R504). -/
def blkStored (bfinal : Bool) (s : State) : Res Unit :=
  (readStoredLengths (alignToByte { s.withHeader bfinal 0 with phase := .stored })).bind fun _ s =>
    (checkStoredLengths s).bind fun _ s =>
      (copyStored s).bind fun _ s => endOfBlock s

/-- The header of `BLK_DYNAMIC` up to its first code-length element (R506, 44_dynamic_header.md R700 to R705). -/
def blkDynamic (bfinal : Bool) (s : State) : Res Unit :=
  (readHlit { s.withHeader bfinal 2 with phase := .dynHeader }).bind fun hlit s =>
    let s := { s with hlit := wrote (BitVec.ofNat 9 hlit) }
    (readHdist s).bind fun hdist s =>
      let s := { s with hdist := wrote (BitVec.ofNat 6 hdist) }
      (readHclen s).bind fun hclen s =>
        let s := { s with hclen := wrote (BitVec.ofNat 5 hclen) }
        (readCodeLengthCodeLengths s).bind fun _ s =>
          (buildClTree s).bind fun _ s => .ok () { s with lengths := wrote [] }

/-- `BLK_STORED` (R504). -/
def execBlkStored (bfinal : Bool) (s : State) : Host.Outcome State Fault Refusal := (blkStored bfinal s).outcome

/-- `BLK_FIXED` (R505): the token loop begins at a literal/length symbol. -/
def execBlkFixed (bfinal : Bool) (s : State) : Host.Outcome State Fault Refusal :=
  .next { s.withHeader bfinal 1 with phase := .tokens, distPending := false }

/-- `BLK_DYNAMIC` (R506): the header up to its first code-length element; those follow as elements of their own. -/
def execBlkDynamic (bfinal : Bool) (s : State) : Host.Outcome State Fault Refusal := (blkDynamic bfinal s).outcome

/-- `BLK_RESERVED` (R507): always `DataCorruption(RESERVED_BTYPE)`. -/
def execBlkReserved (bfinal : Bool) (s : State) : Host.Outcome State Fault Refusal :=
  .next ((s.withHeader bfinal 3).abort .dataCorruption .reservedBtype)

end Sys2Proof.Machine
end

