-- ==== Sys2Proof/Machine/CodeLengths.lean ====
section
/-! DEFINITION. The code-length elements of a dynamic header (44_dynamic_header.md R706 to R709). -/

namespace Sys2Proof.Machine

/-- `ClRep16()` (R707): the no-previous check, then the extra bits, then the run. -/
def clRep16 (s : State) : Res Unit :=
  (readReg s.lengths s).bind fun lengths s =>
    match lengths.getLast? with
    | none => .raise .dataCorruption .repeatWithoutPrevious s
    | some p => (readRep16 s).bind fun n s => clRun p n s

/-- `CL_LEN` (R706): the symbol is the code length. -/
def execClLen (c : BitVec 5) (s : State) : Host.Outcome State Fault Refusal := (clRun (c.setWidth 4) 1 s).outcome

/-- `CL_REP16` (R707). -/
def execClRep16 (s : State) : Host.Outcome State Fault Refusal := (clRep16 s).outcome

/-- `CL_ZERO17` (R708). -/
def execClZero17 (s : State) : Host.Outcome State Fault Refusal :=
  ((readZero17 s).bind fun n s => clRun 0 n s).outcome

/-- `CL_ZERO18` (R709). -/
def execClZero18 (s : State) : Host.Outcome State Fault Refusal :=
  ((readZero18 s).bind fun n s => clRun 0 n s).outcome

end Sys2Proof.Machine
end

