-- ==== Sys2Proof/Machine/Distances.lean ====
section
/-! DEFINITION. The distance symbols and the copy engine (43_token_loop.md R584 to R621). A symbol's element writes
`DSYM` (R553) and does what its rule says; after the copy a literal/length symbol is next (R550). -/

namespace Sys2Proof.Machine

/-- The state after the distance symbol `d` is read (R553). -/
def State.withDsym (s : State) (d : BitVec 5) : State := { s with dsym := wrote d }

/-- `CheckDistance()` (R617), once, before the first byte of the copy. -/
def checkDistance (s : State) : Res Unit :=
  (readReg s.matchDist s).bind fun dist s =>
    if s.outLen < dist.toNat then .raise .dataCorruption .distanceTooFar s else .ok () s

/-- `CopyMatch()` (R618). -/
def copyMatch (s : State) : Res Unit :=
  (readReg s.matchLen s).bind fun n s =>
    (readReg s.matchDist s).bind fun dist s =>
      copyMatchLoop dist.toNat n.toNat { s with copyRemain := wrote n }

/-- `DistanceCode(DSYM)` (R585) with the rest of `LengthCode` (R553): the distance, its check, the copy. -/
def distanceCode (d : Nat) (s : State) : Res Unit :=
  (readMatchDist d (s.withDsym (BitVec.ofNat 5 d))).bind fun dist s =>
    (checkDistance { s with matchDist := wrote (BitVec.ofNat 16 dist) }).bind fun _ s =>
      (copyMatch s).bind fun _ s => .ok () { s with distPending := false }

/-- `DIST_0` (R586). -/
def execDist0 (s : State) : Host.Outcome State Fault Refusal := (distanceCode 0 s).outcome

/-- `DIST_1` (R587). -/
def execDist1 (s : State) : Host.Outcome State Fault Refusal := (distanceCode 1 s).outcome

/-- `DIST_2` (R588). -/
def execDist2 (s : State) : Host.Outcome State Fault Refusal := (distanceCode 2 s).outcome

/-- `DIST_3` (R589). -/
def execDist3 (s : State) : Host.Outcome State Fault Refusal := (distanceCode 3 s).outcome

/-- `DIST_4` (R590). -/
def execDist4 (s : State) : Host.Outcome State Fault Refusal := (distanceCode 4 s).outcome

/-- `DIST_5` (R591). -/
def execDist5 (s : State) : Host.Outcome State Fault Refusal := (distanceCode 5 s).outcome

/-- `DIST_6` (R592). -/
def execDist6 (s : State) : Host.Outcome State Fault Refusal := (distanceCode 6 s).outcome

/-- `DIST_7` (R593). -/
def execDist7 (s : State) : Host.Outcome State Fault Refusal := (distanceCode 7 s).outcome

/-- `DIST_8` (R594). -/
def execDist8 (s : State) : Host.Outcome State Fault Refusal := (distanceCode 8 s).outcome

/-- `DIST_9` (R595). -/
def execDist9 (s : State) : Host.Outcome State Fault Refusal := (distanceCode 9 s).outcome

/-- `DIST_10` (R596). -/
def execDist10 (s : State) : Host.Outcome State Fault Refusal := (distanceCode 10 s).outcome

/-- `DIST_11` (R597). -/
def execDist11 (s : State) : Host.Outcome State Fault Refusal := (distanceCode 11 s).outcome

/-- `DIST_12` (R598). -/
def execDist12 (s : State) : Host.Outcome State Fault Refusal := (distanceCode 12 s).outcome

/-- `DIST_13` (R599). -/
def execDist13 (s : State) : Host.Outcome State Fault Refusal := (distanceCode 13 s).outcome

/-- `DIST_14` (R600). -/
def execDist14 (s : State) : Host.Outcome State Fault Refusal := (distanceCode 14 s).outcome

/-- `DIST_15` (R601). -/
def execDist15 (s : State) : Host.Outcome State Fault Refusal := (distanceCode 15 s).outcome

/-- `DIST_16` (R602). -/
def execDist16 (s : State) : Host.Outcome State Fault Refusal := (distanceCode 16 s).outcome

/-- `DIST_17` (R603). -/
def execDist17 (s : State) : Host.Outcome State Fault Refusal := (distanceCode 17 s).outcome

/-- `DIST_18` (R604). -/
def execDist18 (s : State) : Host.Outcome State Fault Refusal := (distanceCode 18 s).outcome

/-- `DIST_19` (R605). -/
def execDist19 (s : State) : Host.Outcome State Fault Refusal := (distanceCode 19 s).outcome

/-- `DIST_20` (R606). -/
def execDist20 (s : State) : Host.Outcome State Fault Refusal := (distanceCode 20 s).outcome

/-- `DIST_21` (R607). -/
def execDist21 (s : State) : Host.Outcome State Fault Refusal := (distanceCode 21 s).outcome

/-- `DIST_22` (R608). -/
def execDist22 (s : State) : Host.Outcome State Fault Refusal := (distanceCode 22 s).outcome

/-- `DIST_23` (R609). -/
def execDist23 (s : State) : Host.Outcome State Fault Refusal := (distanceCode 23 s).outcome

/-- `DIST_24` (R610). -/
def execDist24 (s : State) : Host.Outcome State Fault Refusal := (distanceCode 24 s).outcome

/-- `DIST_25` (R611). -/
def execDist25 (s : State) : Host.Outcome State Fault Refusal := (distanceCode 25 s).outcome

/-- `DIST_26` (R612). -/
def execDist26 (s : State) : Host.Outcome State Fault Refusal := (distanceCode 26 s).outcome

/-- `DIST_27` (R613). -/
def execDist27 (s : State) : Host.Outcome State Fault Refusal := (distanceCode 27 s).outcome

/-- `DIST_28` (R614). -/
def execDist28 (s : State) : Host.Outcome State Fault Refusal := (distanceCode 28 s).outcome

/-- `DIST_29` (R615). -/
def execDist29 (s : State) : Host.Outcome State Fault Refusal := (distanceCode 29 s).outcome

/-- `DIST_INVALID` (R616): always `DataCorruption(INVALID_DISTANCE_SYMBOL)`, before any extra bit is read. -/
def execDistInvalid (dsym : BitVec 5) (s : State) : Host.Outcome State Fault Refusal :=
  .next ((s.withDsym dsym).abort .dataCorruption .invalidDistanceSymbol)

end Sys2Proof.Machine
end

