-- ==== Sys2Proof/Machine/Tokens.lean ====
section
/-! DEFINITION. The literal/length symbols (43_token_loop.md R551 to R583). A symbol's element writes `SYM` (R550) and
does what its rule says; a length code ends where its distance symbol, an element of its own, is next (R553). -/

namespace Sys2Proof.Machine

/-- The state after the literal/length symbol `sym` is decoded (R550). -/
def State.withSym (s : State) (sym : BitVec 9) : State := { s with sym := wrote sym }

/-- The length-code part of `LengthCode(SYM, mode)` (R553): `MATCH_LEN` from the table and the extra bits; the distance
symbol is next. -/
def lengthCode (sym : Nat) (s : State) : Res Unit :=
  (readMatchLength sym (s.withSym (BitVec.ofNat 9 sym))).bind fun n s =>
    .ok () { s with matchLen := wrote (BitVec.ofNat 9 n), distPending := true }

/-- `LIT` (R551): append the byte whose value is the symbol. -/
def execLit (sym : BitVec 9) (s : State) : Host.Outcome State Fault Refusal :=
  (outAppend (sym.setWidth 8) (s.withSym sym)).outcome

/-- `EOB` (R552): the block ends (42_inflate_blocks.md R508). -/
def execEob (s : State) : Host.Outcome State Fault Refusal := (endOfBlock (s.withSym 256)).outcome

/-- `LEN_257` (R554). -/
def execLen257 (s : State) : Host.Outcome State Fault Refusal := (lengthCode 257 s).outcome

/-- `LEN_258` (R555). -/
def execLen258 (s : State) : Host.Outcome State Fault Refusal := (lengthCode 258 s).outcome

/-- `LEN_259` (R556). -/
def execLen259 (s : State) : Host.Outcome State Fault Refusal := (lengthCode 259 s).outcome

/-- `LEN_260` (R557). -/
def execLen260 (s : State) : Host.Outcome State Fault Refusal := (lengthCode 260 s).outcome

/-- `LEN_261` (R558). -/
def execLen261 (s : State) : Host.Outcome State Fault Refusal := (lengthCode 261 s).outcome

/-- `LEN_262` (R559). -/
def execLen262 (s : State) : Host.Outcome State Fault Refusal := (lengthCode 262 s).outcome

/-- `LEN_263` (R560). -/
def execLen263 (s : State) : Host.Outcome State Fault Refusal := (lengthCode 263 s).outcome

/-- `LEN_264` (R561). -/
def execLen264 (s : State) : Host.Outcome State Fault Refusal := (lengthCode 264 s).outcome

/-- `LEN_265` (R562). -/
def execLen265 (s : State) : Host.Outcome State Fault Refusal := (lengthCode 265 s).outcome

/-- `LEN_266` (R563). -/
def execLen266 (s : State) : Host.Outcome State Fault Refusal := (lengthCode 266 s).outcome

/-- `LEN_267` (R564). -/
def execLen267 (s : State) : Host.Outcome State Fault Refusal := (lengthCode 267 s).outcome

/-- `LEN_268` (R565). -/
def execLen268 (s : State) : Host.Outcome State Fault Refusal := (lengthCode 268 s).outcome

/-- `LEN_269` (R566). -/
def execLen269 (s : State) : Host.Outcome State Fault Refusal := (lengthCode 269 s).outcome

/-- `LEN_270` (R567). -/
def execLen270 (s : State) : Host.Outcome State Fault Refusal := (lengthCode 270 s).outcome

/-- `LEN_271` (R568). -/
def execLen271 (s : State) : Host.Outcome State Fault Refusal := (lengthCode 271 s).outcome

/-- `LEN_272` (R569). -/
def execLen272 (s : State) : Host.Outcome State Fault Refusal := (lengthCode 272 s).outcome

/-- `LEN_273` (R570). -/
def execLen273 (s : State) : Host.Outcome State Fault Refusal := (lengthCode 273 s).outcome

/-- `LEN_274` (R571). -/
def execLen274 (s : State) : Host.Outcome State Fault Refusal := (lengthCode 274 s).outcome

/-- `LEN_275` (R572). -/
def execLen275 (s : State) : Host.Outcome State Fault Refusal := (lengthCode 275 s).outcome

/-- `LEN_276` (R573). -/
def execLen276 (s : State) : Host.Outcome State Fault Refusal := (lengthCode 276 s).outcome

/-- `LEN_277` (R574). -/
def execLen277 (s : State) : Host.Outcome State Fault Refusal := (lengthCode 277 s).outcome

/-- `LEN_278` (R575). -/
def execLen278 (s : State) : Host.Outcome State Fault Refusal := (lengthCode 278 s).outcome

/-- `LEN_279` (R576). -/
def execLen279 (s : State) : Host.Outcome State Fault Refusal := (lengthCode 279 s).outcome

/-- `LEN_280` (R577). -/
def execLen280 (s : State) : Host.Outcome State Fault Refusal := (lengthCode 280 s).outcome

/-- `LEN_281` (R578). -/
def execLen281 (s : State) : Host.Outcome State Fault Refusal := (lengthCode 281 s).outcome

/-- `LEN_282` (R579). -/
def execLen282 (s : State) : Host.Outcome State Fault Refusal := (lengthCode 282 s).outcome

/-- `LEN_283` (R580). -/
def execLen283 (s : State) : Host.Outcome State Fault Refusal := (lengthCode 283 s).outcome

/-- `LEN_284` (R581). -/
def execLen284 (s : State) : Host.Outcome State Fault Refusal := (lengthCode 284 s).outcome

/-- `LEN_285` (R582). -/
def execLen285 (s : State) : Host.Outcome State Fault Refusal := (lengthCode 285 s).outcome

/-- `LITLEN_INVALID` (R583): always `DataCorruption(INVALID_LITLEN_SYMBOL)`, before any extra bit is read. -/
def execLitlenInvalid (sym : BitVec 9) (s : State) : Host.Outcome State Fault Refusal :=
  .next ((s.withSym sym).abort .dataCorruption .invalidLitlenSymbol)

end Sys2Proof.Machine
end

