-- ==== Sys2Proof/Machine/HostPort.lean ====
section
/-! DEFINITION. The host interface (60_exceptions.md R830): the effects of the host's commands, whose turn it is, and
what the host may read (10_state.md R127). -/

namespace Sys2Proof.Machine

/-- A register as a new decode finds it: unwritten, whatever value it holds (10_state.md R128). -/
def forgetReg {α : Type} (r : Reg α) : Reg α := unwritten r.val

/-- The host supplies `SRC`, `SRC_LEN` and `POLICY` (10_state.md R109). -/
def State.setup (s : State) (bytes : List Byte) (policy : Policy) : State :=
  { s with src := Memory.ofBytes bytes, srcLen := bytes.length, policy := policy }

/-- `START` (42_inflate_blocks.md R500, 70_reset_and_hazards.md R903): the cursor, the output and the error registers
are set, every other internal register becomes unwritten, and the first block header is next (R501). -/
def State.start (s : State) : State :=
  { s with
    phase := .blockHeader, errKind := .none, errCause := .none, byteIdx := 0, bitIdx := 0, out := [], outLen := 0
    bfinal := forgetReg s.bfinal, btype := forgetReg s.btype
    len := forgetReg s.len, nlen := forgetReg s.nlen, remain := forgetReg s.remain
    hlit := forgetReg s.hlit, hdist := forgetReg s.hdist, hclen := forgetReg s.hclen
    cll := forgetReg s.cll, lengths := forgetReg s.lengths
    clTree := forgetReg s.clTree, litTree := forgetReg s.litTree, distTree := forgetReg s.distTree
    blCount := forgetReg s.blCount, nextCode := forgetReg s.nextCode
    sym := forgetReg s.sym, dsym := forgetReg s.dsym, matchLen := forgetReg s.matchLen
    matchDist := forgetReg s.matchDist, copyRemain := forgetReg s.copyRemain, distPending := false }

/-- Power-on reset (70_reset_and_hazards.md R901, R902): the instance is as a new one, a running decode is abandoned
without output or error, `SRC` is not changed, and neither are the host's inputs or the capacity. The registers R901
leaves unspecified take their named reset values; log entries 4 and 22. -/
def State.powerOn (s : State) : State :=
  { State.reset with
    src := s.src, srcLen := s.srcLen, policy := s.policy, outCapacity := s.outCapacity, hostCmds := s.hostCmds }

/-- The host's turn: its next command where it may take effect now. A set-up or a `START` waits while `STATUS` is `BUSY`,
since issuing it then has no move (60_exceptions.md R830); a power-on reset may come at any time (R902). -/
def hostTurn (s : State) : Option State :=
  match s.hostCmds with
  | [] => none
  | .setup bytes policy :: cs => if s.busy then none else some ({ s with hostCmds := cs }.setup bytes policy)
  | .start :: cs => if s.busy then none else some { s with hostCmds := cs }.start
  | .powerOnReset 0 :: cs => some { s with hostCmds := cs }.powerOn
  | .powerOnReset (_ + 1) :: _ => none

/-- A step that is not the host's brings a coming power-on reset one step nearer. -/
def State.hostTick (s : State) : State :=
  match s.hostCmds with
  | .powerOnReset (n + 1) :: cs => { s with hostCmds := .powerOnReset n :: cs }
  | _ => s

/-! ## What the host may read (10_state.md R107, R108, R127; 20_memory.md R220) -/

/-- The bytes of `OUT` at addresses `a` to `a + n` − 1. -/
def outBytesFrom (m : Memory) : Nat → Nat → List Byte
  | _, 0 => []
  | a, n + 1 => Memory.read m a :: outBytesFrom m (a + 1) n

/-- The host's read of `OUT`: the decoded bytes at `DONE_OK`, no value otherwise (R107). -/
def hostOut (s : State) : Option (List Byte) :=
  if s.status = .doneOk then some (outBytesFrom s.out 0 s.outLen) else none

/-- The host's read of `OUT_LEN` (R127). -/
def hostOutLen (s : State) : Option Nat := if s.status = .doneOk then some s.outLen else none

/-- The host's read of `FINAL_POS` (R108). -/
def hostFinalPos (s : State) : Option Pos := if s.status = .doneOk then some s.finalPos else none

/-- The host's read of `STATUS`, `ERR_KIND` and `ERR_CAUSE`, at any time (R127), as their numbers (R104 to R106). -/
def hostStatus (s : State) : BitVec 2 × BitVec 3 × BitVec 4 :=
  (statusCode s.status, errKindCode s.errKind, errCauseCode s.errCause)

end Sys2Proof.Machine
end

