-- ==== Sys2Proof/Machine/Fetch.lean ====
section
/-! DEFINITION. Fetching the next element: which format the block state machine awaits, reading its value at the cursor,
and running the element the value selects. Also how a word of the opcode table is laid out where the step fetches. -/

namespace Sys2Proof.Machine

/-- The format of the next element, where the phase awaits one (42_inflate_blocks.md R501, 43_token_loop.md R550, R553,
44_dynamic_header.md R700). -/
def fetchFormat (s : State) : Option Format :=
  match s.phase with
  | .blockHeader => some .blockHdr
  | .dynHeader => some .clSymbol
  | .tokens => some (if s.distPending then .distSymbol else .litlenSymbol)
  | .idle | .stored | .done | .error => none

/-- The mode of the token loop is `FIXED` (43_token_loop.md R550): the block's type is 1 (42_inflate_blocks.md R505). -/
def readFixedMode (s : State) : Res Bool :=
  (readReg s.btype s).bind fun btype s => .ok (decide (btype = 1)) s

/-- `BlockHeader()` (42_inflate_blocks.md R502): the final bit, kept as soon as it is read, then the type. -/
def fetchHeader (s : State) : Res Nat :=
  (nextBit s).bind fun b s =>
    (readBits 2 { s with bfinal := wrote b }).bind fun t s => .ok (headerValue t b) s

/-- The literal/length symbol of the token loop (43_token_loop.md R550). -/
def fetchLitlen (s : State) : Res Nat :=
  (readFixedMode s).bind fun fixed s =>
    if fixed then decodeSymbol fixedLitTree s else (readReg s.litTree s).bind fun T s => decodeSymbol T s

/-- `ReadDistSymbol(mode)` (43_token_loop.md R584). -/
def fetchDist (s : State) : Res Nat :=
  (readFixedMode s).bind fun fixed s =>
    if fixed then readBitsReversed 5 s else (readReg s.distTree s).bind fun T s => decodeSymbol T s

/-- The code-length symbol of a dynamic header (44_dynamic_header.md R700). -/
def fetchCl (s : State) : Res Nat := (readReg s.clTree s).bind fun T s => decodeSymbol T s

/-- The value of the next element, read at the cursor. -/
def fetchValue (f : Format) (s : State) : Res Nat :=
  match f with
  | .blockHdr => fetchHeader s
  | .litlenSymbol => fetchLitlen s
  | .distSymbol => fetchDist s
  | .clSymbol => fetchCl s

/-- Run the element that a value selects. -/
def runValue (f : Format) (v : Nat) (s : State) : Host.Outcome State Fault Refusal :=
  match decodeValue f v with
  | .ok i => exec i s
  | .error _ => .refused .noTableRow

/-- Read the next element at the cursor and run it; an error of the read aborts the decode (60_exceptions.md R820). -/
def fetchAndRun (f : Format) (s : State) : Host.Outcome State Fault Refusal :=
  match fetchValue f s with
  | .ok v s' => runValue f v s'
  | .raise k c s' => .next (s'.abort k c)
  | .fault x => .fault x

/-- The rest of a stored block whose copy is under way (42_inflate_blocks.md R512). The model's steps leave no such state:
`BLK_STORED` copies within its own step. Log entry 18. -/
def resumeStored (s : State) : Res Unit :=
  (readReg s.remain s).bind fun n s =>
    (copyStoredLoop n.toNat s).bind fun _ s => endOfBlock s

/-- The instance's own turn: the next element while `BUSY`; an instance that is not `BUSY` keeps its state
(60_exceptions.md R829). -/
def instanceTurn (s : State) : Host.Outcome State Fault Refusal :=
  match fetchFormat s with
  | some f => fetchAndRun f s
  | none => if s.phase = .stored then (resumeStored s).outcome else .next s

/-! ## Laying out a word of the opcode table -/

/-- The state in which the bits of a value of a format are the whole of what is read next: they stand at the start of
`SRC`, zeros after them up to the longest element (a stored block of 65535 bytes), and the block is where it awaits such
a value, with the registers that a decode has written by then. Log entries 3 and 16. -/
def State.placeBits (s : State) (f : Format) (bits : List Bool) : State :=
  let t := { s with
    hostCmds := [], src := Memory.ofBytes (packBits 2 bits), srcLen := 65540, byteIdx := 0, bitIdx := 0
    distPending := false }
  match f with
  | .blockHdr => { t with phase := .blockHeader }
  | .litlenSymbol => { t with phase := .tokens, bfinal := wrote false, btype := wrote 1 }
  | .distSymbol =>
    { t with phase := .tokens, bfinal := wrote false, btype := wrote 1, matchLen := wrote 3, distPending := true }
  | .clSymbol =>
    { t with
      phase := .dynHeader, bfinal := wrote false, btype := wrote 2, hlit := wrote 257, hdist := wrote 1
      clTree := wrote plainClTree, lengths := wrote [] }

/-- A word of the opcode table laid out where the next step fetches. -/
def State.placeTableWord (s : State) (nbits w : Nat) : State :=
  s.placeBits (tableWord nbits w).1 (tableWordBits nbits w)

end Sys2Proof.Machine
end

