-- ==== Sys2Proof/Machine/Step.lean ====
section
/-! DEFINITION. One step of the machine: the host's command where one takes effect, and else the next element of the
decode (70_reset_and_hazards.md R930, R931; log entry 1). -/

namespace Sys2Proof.Machine

/-- One step. -/
def step (s : State) : Host.Outcome State Fault Refusal :=
  match hostTurn s with
  | some t => .next t
  | none => instanceTurn s.hostTick

/-- The state with a word of the opcode table stored where the next step fetches, so that the step runs it; it stands
for the host's set-up and `START` and the decode up to there (log entry 3). -/
def State.withFetchWord (s : State) (nbits w : Nat) : State := s.placeTableWord nbits w

end Sys2Proof.Machine
end

