-- ==== Sys2Proof/Safety.lean ====
section
/-! DEFINITION. The terms in which claims speak of the machine: the stream as a sequence of bits, the room left in the
output, what the next element is read with, and the invariant of the machine. -/

namespace Sys2Proof.Machine

/-! ## The stream as bits (30_encoding.md R319) -/

/-- The cursor as a number of bits from the start of `SRC`. -/
def State.pos (s : State) : Nat := 8 * s.byteIdx + s.bitIdx.toNat

/-- The state with the cursor at bit `p` of `SRC`. -/
def State.moveTo (s : State) (p : Nat) : State :=
  { s with byteIdx := p / 8, bitIdx := BitVec.ofNat 3 (p % 8) }

/-- Bit `p` of `SRC`: bit `p mod 8` of byte `p / 8` (20_memory.md R205). -/
def State.streamBit (s : State) (p : Nat) : Bool := (Memory.read s.src (p / 8)).getLsbD (p % 8)

/-- The `n` bits of `SRC` from bit `p` on. -/
def State.bitsAt (s : State) (p n : Nat) : List Bool := (List.range n).map fun i => s.streamBit (p + i)

/-- The `n`-bit field of `SRC` at bit `p`, its first-read bit least significant (20_memory.md R206). -/
def State.field (s : State) (p n : Nat) : Nat := natOfBitsLsb (s.bitsAt p n)

/-- `SRC` has at least `n` more bits at the cursor. -/
def State.hasBits (s : State) (n : Nat) : Prop := s.pos + n ≤ 8 * s.srcLen

/-- All the bits of `SRC` from the cursor on. -/
def State.bitsLeft (s : State) : List Bool := s.bitsAt s.pos (8 * s.srcLen - s.pos)

/-- The first byte boundary of `SRC` at or after the cursor, in bits (40_bit_cursor.md R404). -/
def State.alignedPos (s : State) : Nat := 8 * ((s.pos + 7) / 8)

/-- The `n` bytes of `SRC` from byte `i` on. -/
def State.srcBytes (s : State) (i n : Nat) : List Byte := (List.range n).map fun k => Memory.read s.src (i + k)

/-- The state of a read that has used up `SRC`: the cursor at its end (or where it stood, past the end). -/
def State.atEnd (s : State) : State := s.moveTo (max s.pos (8 * s.srcLen))

/-- What comes of a read past the end of `SRC` that the state `s` begins: `OutOfRange` under `CHECKED`, the fault of an
undefined read under `RAW` (40_bit_cursor.md R406, 60_exceptions.md R820). -/
def State.overrun (s : State) : Host.Outcome State Fault Refusal :=
  match s.policy with
  | .checked => .next (s.atEnd.abort .outOfRange .none)
  | .raw => .fault .undefinedSourceRead

/-! ## The output -/

/-- `n` more bytes fit into `OUT` (20_memory.md R211). -/
def State.hasRoom (s : State) (n : Nat) : Prop := ∀ c, s.outCapacity = some c → s.outLen + n ≤ c

/-- Write the bytes of a list from address `a` on. -/
def Memory.writeBytes : Memory → Nat → List Byte → Memory
  | m, _, [] => m
  | m, a, b :: bs => Memory.writeBytes (Memory.write m a b) (a + 1) bs

/-- The state after the bytes of a list are appended to `OUT` in order. -/
def State.append (s : State) (bs : List Byte) : State :=
  { s with out := Memory.writeBytes s.out s.outLen bs, outLen := s.outLen + bs.length }

/-- The `n` bytes a match at distance `dist` appends, from `OUT` as it stands: its last `dist` bytes, repeated
(43_token_loop.md R619). -/
def State.matchBytes (s : State) (dist n : Nat) : List Byte :=
  (List.range n).map fun k => Memory.read s.out (s.outLen - dist + k % dist)

/-! ## The end of a block and of a dynamic header -/

/-- The state at the end of a block (42_inflate_blocks.md R508, R509), the final bit being known. -/
def State.endBlock (s : State) : State :=
  if s.bfinal.val then { s with finalPos := ⟨s.byteIdx, s.bitIdx⟩, phase := .done } else { s with phase := .blockHeader }

/-- The code-length code lengths that `n` fields of 3 bits from bit `p` on give: the field number i for the CL symbol
`CL_ORDER[i]`, 0 for a symbol that is not reached (44_dynamic_header.md R704). -/
def State.clLengths (s : State) (p n : Nat) : Vector (BitVec 3) 19 :=
  Vector.ofFn fun c =>
    if clOrder.idxOf c.val < n then BitVec.ofNat 3 (s.field (p + 3 * clOrder.idxOf c.val) 3) else 0

/-- The state once the block's code lengths `L` are complete and both trees are built from them (44_dynamic_header.md
R711). -/
def State.treesBuilt (s : State) (L : List (BitVec 4)) : State :=
  let lit := (L.map BitVec.toNat).take s.hlit.val.toNat
  let dist := ((L.map BitVec.toNat).drop s.hlit.val.toNat).take s.hdist.val.toNat
  { s with
    lengths := wrote L, litTree := wrote (canonicalTree lit), distTree := wrote (canonicalTree dist)
    blCount := unwritten (countLengths dist)
    nextCode := unwritten (assignCodes dist (firstCodes (countLengths dist))).2
    phase := .tokens, distPending := false }

/-- The run a code-length element appends: its extra bits, its length, and how often (44_dynamic_header.md R706 to R709);
nothing for `CL_REP16` without a previous length. -/
def clRunOf (i : Instr) (s : State) : Option (Nat × BitVec 4 × Nat) :=
  match i with
  | .clLen c => some (0, c.setWidth 4, 1)
  | .clRep16 => s.lengths.val.getLast?.map fun p => (2, p, 3 + s.field s.pos 2)
  | .clZero17 => some (3, 0, 3 + s.field s.pos 3)
  | .clZero18 => some (7, 0, 11 + s.field s.pos 7)
  | _ => none

/-! ## What the next element is read with -/

/-- How the stream writes the value the block awaits (30_encoding.md R301, R304 to R306), where the registers that say
so are written. -/
def State.awaitedCode (s : State) : Option ValueCode :=
  match s.phase with
  | .blockHeader => some .header
  | .dynHeader => if s.clTree.written then some (.huffman .clSymbol s.clTree.val) else none
  | .tokens =>
    if s.btype.written = false then none
    else if s.btype.val = 1 then
      some (if s.distPending then .fixedDist else .huffman .litlenSymbol fixedLitTree)
    else if s.distPending then
      (if s.distTree.written then some (.huffman .distSymbol s.distTree.val) else none)
    else (if s.litTree.written then some (.huffman .litlenSymbol s.litTree.val) else none)
  | _ => none

/-- The state once the value at the cursor is read and `n` bits are used up: only the cursor has moved, and for a block
header BFINAL holds the header's first bit (42_inflate_blocks.md R502). -/
def State.afterValue (s : State) (n : Nat) : State :=
  if s.phase = .blockHeader then { s.moveTo (s.pos + n) with bfinal := wrote (s.streamBit s.pos) }
  else s.moveTo (s.pos + n)

/-! ## The length and distance codes as their rules write them -/

/-- The 29 length codes with their symbols, their numbers of extra bits and their base lengths, as 43_token_loop.md R554 to
R582 write them. The spec marks the numbers as general knowledge: UNVERIFIED, log entry 19. -/
def lengthRows : List (Instr × Nat × Nat × Nat) :=
  [(.len257, 257, 0, 3), (.len258, 258, 0, 4), (.len259, 259, 0, 5), (.len260, 260, 0, 6),
   (.len261, 261, 0, 7), (.len262, 262, 0, 8), (.len263, 263, 0, 9), (.len264, 264, 0, 10),
   (.len265, 265, 1, 11), (.len266, 266, 1, 13), (.len267, 267, 1, 15), (.len268, 268, 1, 17),
   (.len269, 269, 2, 19), (.len270, 270, 2, 23), (.len271, 271, 2, 27), (.len272, 272, 2, 31),
   (.len273, 273, 3, 35), (.len274, 274, 3, 43), (.len275, 275, 3, 51), (.len276, 276, 3, 59),
   (.len277, 277, 4, 67), (.len278, 278, 4, 83), (.len279, 279, 4, 99), (.len280, 280, 4, 115),
   (.len281, 281, 5, 131), (.len282, 282, 5, 163), (.len283, 283, 5, 195), (.len284, 284, 5, 227),
   (.len285, 285, 0, 258)]

/-- The 30 distance codes with their symbols, their numbers of extra bits and their base distances, as 43_token_loop.md
R586 to R615 write them. The spec marks the numbers as general knowledge: UNVERIFIED, log entry 19. -/
def distRows : List (Instr × Nat × Nat × Nat) :=
  [(.dist0, 0, 0, 1), (.dist1, 1, 0, 2), (.dist2, 2, 0, 3), (.dist3, 3, 0, 4), (.dist4, 4, 1, 5),
   (.dist5, 5, 1, 7), (.dist6, 6, 2, 9), (.dist7, 7, 2, 13), (.dist8, 8, 3, 17), (.dist9, 9, 3, 25),
   (.dist10, 10, 4, 33), (.dist11, 11, 4, 49), (.dist12, 12, 5, 65), (.dist13, 13, 5, 97), (.dist14, 14, 6, 129),
   (.dist15, 15, 6, 193), (.dist16, 16, 7, 257), (.dist17, 17, 7, 385), (.dist18, 18, 8, 513),
   (.dist19, 19, 8, 769), (.dist20, 20, 9, 1025), (.dist21, 21, 9, 1537), (.dist22, 22, 10, 2049),
   (.dist23, 23, 10, 3073), (.dist24, 24, 11, 4097), (.dist25, 25, 11, 6145), (.dist26, 26, 12, 8193),
   (.dist27, 27, 12, 12289), (.dist28, 28, 13, 16385), (.dist29, 29, 13, 24577)]

/-! ## Trees -/

/-- The symbols of a tree's leaves, from left to right. -/
def leaves : Tree → List Nat
  | .absent => []
  | .leaf x => [x]
  | .internal l r => leaves l ++ leaves r

/-- The depth of the leftmost leaf with a symbol. -/
def depthOf (x : Nat) : Tree → Option Nat
  | .absent => none
  | .leaf y => if y = x then some 0 else none
  | .internal l r => ((depthOf x l).or (depthOf x r)).map (· + 1)

/-- The code `BuildCanonical(L)` gives symbol `x` (41_huffman_trees.md R455), `CODES[x]`. -/
def codeOf (L : List Nat) (x : Nat) : Nat := (assignCodes L (firstCodes (countLengths L))).1.getD x 0

/-! ## The host's view -/

/-- No internal register that 10_state.md R128 names is written. -/
def State.allUnwritten (s : State) : Prop :=
  s.bfinal.written = false ∧ s.btype.written = false ∧ s.len.written = false ∧ s.nlen.written = false ∧
  s.remain.written = false ∧ s.hlit.written = false ∧ s.hdist.written = false ∧ s.hclen.written = false ∧
  s.cll.written = false ∧ s.lengths.written = false ∧ s.clTree.written = false ∧ s.litTree.written = false ∧
  s.distTree.written = false ∧ s.blCount.written = false ∧ s.nextCode.written = false ∧ s.sym.written = false ∧
  s.dsym.written = false ∧ s.matchLen.written = false ∧ s.matchDist.written = false ∧ s.copyRemain.written = false

/-- Everything the host may read of an instance (10_state.md R127). -/
def hostView (s : State) : (BitVec 2 × BitVec 3 × BitVec 4) × Option (List Byte) × Option Nat × Option Pos :=
  (hostStatus s, hostOut s, hostOutLen s, hostFinalPos s)

/-! ## The invariant -/

/-- Every symbol of the tree is below `n`. -/
def symbolsBelow (n : Nat) : Tree → Bool
  | .absent => true
  | .leaf x => decide (x < n)
  | .internal l r => symbolsBelow n l && symbolsBelow n r

/-- The root is an internal node (10_state.md R124). -/
def isInternal : Tree → Bool
  | .internal _ _ => true
  | _ => false

/-- A tree of an alphabet of `n` symbols, as `BuildCanonical` makes one (10_state.md R124, 41_huffman_trees.md R451). -/
def treeOver (n : Nat) (T : Tree) : Prop := isInternal T = true ∧ symbolsBelow n T = true

/-- What holds of the machine between its steps. -/
structure Inv (s : State) : Prop where
  /-- `SRC` is in canonical form. -/
  srcWf : Memory.wf s.src = true
  /-- `OUT` is in canonical form. -/
  outWf : Memory.wf s.out = true
  /-- No byte of `OUT` stands at or past `OUT_LEN` (20_memory.md R210). -/
  outBelow : ∀ a, s.outLen ≤ a → Memory.read s.out a = 0
  /-- `OUT_LEN` never exceeds `OUT_CAPACITY` (20_memory.md R211). -/
  capacity : s.hasRoom 0
  /-- The cursor stands in `SRC` or at its end while a decode runs (10_state.md R102). -/
  cursor : s.busy = true → s.hasBits 0
  /-- An error is recorded exactly in the phase `ERROR` (60_exceptions.md R820, 10_state.md R129). -/
  errKind : s.phase = .error ↔ s.errKind ≠ .none
  /-- A cause is recorded exactly with `DataCorruption` (10_state.md R106). -/
  errCause : s.errCause ≠ .none ↔ s.errKind = .dataCorruption
  /-- A decode never raises `EmptyAlphabet` or `UnsupportedFeature` (60_exceptions.md R804, R805). -/
  neverRaised : s.errKind ≠ .emptyAlphabet ∧ s.errKind ≠ .unsupportedFeature
  /-- A stored block is copied within one step (log entry 1). -/
  notStored : s.phase ≠ .stored
  /-- Inside a block BFINAL and BTYPE are written (10_state.md R128). -/
  inBlock : s.phase = .dynHeader ∨ s.phase = .tokens → s.bfinal.written = true ∧ s.btype.written = true
  /-- Between the elements of a dynamic header (44_dynamic_header.md R700 to R710). -/
  inHeader : s.phase = .dynHeader → s.btype.val = 2 ∧
    s.hlit.written = true ∧ s.hdist.written = true ∧ s.lengths.written = true ∧ s.clTree.written = true ∧
    257 ≤ s.hlit.val.toNat ∧ s.hlit.val.toNat ≤ 288 ∧ 1 ≤ s.hdist.val.toNat ∧ s.hdist.val.toNat ≤ 32 ∧
    s.lengths.val.length < s.hlit.val.toNat + s.hdist.val.toNat ∧ treeOver 19 s.clTree.val
  /-- In the token loop the block is fixed, or dynamic with its two trees built (43_token_loop.md R550). -/
  inTokens : s.phase = .tokens → s.btype.val = 1 ∨ (s.btype.val = 2 ∧
    s.litTree.written = true ∧ treeOver 288 s.litTree.val ∧ s.distTree.written = true ∧ treeOver 32 s.distTree.val)
  /-- Where a distance symbol is next, the match length is known and in range (43_token_loop.md R553). -/
  inMatch : s.phase = .tokens → s.distPending = true →
    s.matchLen.written = true ∧ 3 ≤ s.matchLen.val.toNat ∧ s.matchLen.val.toNat ≤ 258

end Sys2Proof.Machine
end

