-- ==== Sys2Proof/Certificates/Slice0/Obligations.lean ====
section
/-! DEFINITION. The statements for the provers. Each docstring names the rules of spec/ it rests on; an equation
`exec i s = .next { s with … }` says what the element does and, by what it does not name, that nothing else changes. -/

open Sys2Proof Sys2Proof.Machine

/-! ## The host: reset, set-up, START, reading the result -/

/-- 10_state.md R129, 70_reset_and_hazards.md R901: the instance of `State.reset` is idle without an error, no internal
register holds a value a rule can read, and the host can read no output. -/
def Obligations.ResetIsIdleWithNothingWritten : Prop :=
  State.reset.status = .idle ∧ State.reset.phase = .idle ∧ State.reset.errKind = .none ∧
  State.reset.errCause = .none ∧ State.reset.allUnwritten ∧
  hostView State.reset = ((0, 0, 0), none, none, none)

/-- 70_reset_and_hazards.md R902 with R901: a power-on reset that comes due, in any phase, leaves the instance idle
without an error or an output, with nothing written and `SRC` as it was. That it keeps the host's other inputs and its
coming commands is the model's choice (log entry 22). -/
def Obligations.PowerOnResetEndsAnyDecode : Prop :=
  ∀ (s : State) (cs : List HostCmd), s.hostCmds = .powerOnReset 0 :: cs →
    ∃ t, step s = .next t ∧ t.status = .idle ∧ t.phase = .idle ∧ t.errKind = .none ∧ t.errCause = .none ∧
      t.allUnwritten ∧ hostOut t = none ∧ hostOutLen t = none ∧ hostFinalPos t = none ∧ t.src = s.src ∧
      t.srcLen = s.srcLen ∧ t.policy = s.policy ∧ t.outCapacity = s.outCapacity ∧ t.hostCmds = cs

/-- 70_reset_and_hazards.md R903, 42_inflate_blocks.md R500, R501: `START` on an instance that is not busy sets the
cursor, the output and the error registers, makes every other internal register unwritten, leaves the host's inputs, and
the first block header is next. That commands stand in a queue, of which the rest is left, is the model's choice (log
entry 2). -/
def Obligations.StartBeginsADecode : Prop :=
  ∀ (s : State) (cs : List HostCmd), s.hostCmds = .start :: cs → s.status ≠ .busy →
    ∃ t, step s = .next t ∧ t.byteIdx = 0 ∧ t.bitIdx = 0 ∧ t.outLen = 0 ∧ (∀ a, Memory.read t.out a = 0) ∧
      t.errKind = .none ∧ t.errCause = .none ∧ t.status = .busy ∧ t.phase = .blockHeader ∧ t.allUnwritten ∧
      t.src = s.src ∧ t.srcLen = s.srcLen ∧ t.policy = s.policy ∧ t.outCapacity = s.outCapacity ∧ t.hostCmds = cs

/-- 10_state.md R109, R127: a set-up on an instance that is not busy supplies the bytes, the length and the policy, and
changes nothing else but the queue of commands, which is the model's (log entry 2). -/
def Obligations.SetupSuppliesTheInputs : Prop :=
  ∀ (s : State) (bytes : List Byte) (policy : Policy) (cs : List HostCmd),
    s.hostCmds = .setup bytes policy :: cs → s.status ≠ .busy →
    ∃ t, step s = .next t ∧ (∀ i, i < bytes.length → Memory.read t.src i = bytes.getD i 0) ∧
      t = { s with src := t.src, srcLen := bytes.length, policy := policy, hostCmds := cs }

/-- 10_state.md R127, 60_exceptions.md R830: while a decode runs, a set-up or a `START` has no move, and the step is the
decode's own. That such a command waits is the model's choice (log entry 2). -/
def Obligations.SetupAndStartWaitWhileBusy : Prop :=
  ∀ (s : State) (cs : List HostCmd), s.status = .busy →
    (s.hostCmds = .start :: cs ∨ ∃ bytes policy, s.hostCmds = .setup bytes policy :: cs) →
    step s = instanceTurn s

/-- 60_exceptions.md R829, R822: an instance that is not busy, with no command to take, keeps its state. -/
def Obligations.IdleInstanceKeepsItsState : Prop :=
  ∀ s : State, s.hostCmds = [] → s.status ≠ .busy → step s = .next s

/-- 10_state.md R107, R108, R127: the host reads the output, its length and `FINAL_POS` at `DONE_OK` and only then, and
what it then reads is what the instance holds. -/
def Obligations.OutputIsReadableExactlyAfterSuccess : Prop :=
  ∀ s : State,
    (s.status ≠ .doneOk → hostOut s = none ∧ hostOutLen s = none ∧ hostFinalPos s = none) ∧
    (s.status = .doneOk → hostOutLen s = some s.outLen ∧ hostFinalPos s = some s.finalPos ∧
      ∃ bs, hostOut s = some bs ∧ bs.length = s.outLen ∧ ∀ i, i < s.outLen → bs.getD i 0 = Memory.read s.out i)

/-- 10_state.md R104, R105, R106, R110: the numbers of the status and of the error registers, and `STATUS` as the function
of `PHASE`. -/
def Obligations.StatusAndErrorNumbers : Prop :=
  [Phase.idle, .blockHeader, .stored, .dynHeader, .tokens, .done, .error].map (fun p => statusCode (statusOf p)) =
    [0, 1, 1, 1, 1, 2, 3] ∧
  [ErrKind.none, .dataCorruption, .unknownSymbol, .emptyAlphabet, .outOfRange, .unsupportedFeature,
    .capacityExceeded].map errKindCode = [0, 1, 2, 3, 4, 5, 6] ∧
  [ErrCause.none, .reservedBtype, .storedLenMismatch, .distanceTooFar, .repeatWithoutPrevious, .invalidLitlenSymbol,
    .invalidDistanceSymbol, .codeLengthOverrun, .oversubscribedCode].map errCauseCode = [0, 1, 2, 3, 4, 5, 6, 7, 8]

/-! ## The step and the decoder -/

/-- 42_inflate_blocks.md R501, R502, R503, 43_token_loop.md R550, R584, 44_dynamic_header.md R700: where no host command
takes effect and the bits at the cursor decode to an element in the code the block awaits, the step is `exec` of that
element at the state with the cursor past the element's value (and BFINAL read, for a header). One element a step is the
model's choice (log entry 1). -/
def Obligations.StepRunsTheDecodedElement : Prop :=
  ∀ (s : State) (k : ValueCode) (i : Instr) (rest : List Bool),
    hostTurn s = none → s.hasBits 0 → s.awaitedCode = some k → decodeBits k s.bitsLeft = .ok (i, rest) →
    step s = exec i (s.hostTick.afterValue (s.bitsLeft.length - rest.length))

/-- 41_huffman_trees.md R460, R458: where the bits at the cursor lead to an absent child, the step ends the decode with
`UnknownSymbol` and writes nothing but the cursor and the error. -/
def Obligations.UnusedCodeRaisesUnknownSymbol : Prop :=
  ∀ (s : State) (k : ValueCode), hostTurn s = none → s.hasBits 0 → s.awaitedCode = some k →
    decodeBits k s.bitsLeft = .error .noCode →
    ∃ p, s.pos ≤ p ∧ p ≤ 8 * s.srcLen ∧ step s = .next ((s.hostTick.moveTo p).abort .unknownSymbol .none)

/-- 40_bit_cursor.md R406, 60_exceptions.md R810: where `SRC` ends inside the next element's value, the step ends the
decode with `OutOfRange` under `CHECKED`, the output as it was, and is the undefined-read fault under `RAW`. -/
def Obligations.SourceEndingInAValueOverruns : Prop :=
  ∀ (s : State) (k : ValueCode), hostTurn s = none → s.hasBits 0 → s.awaitedCode = some k →
    decodeBits k s.bitsLeft = .error .truncated →
    (s.policy = .checked → ∃ t, step s = .next t ∧ t.phase = .error ∧ t.errKind = .outOfRange ∧ t.errCause = .none ∧
      t.out = s.out ∧ t.outLen = s.outLen ∧ t.src = s.src) ∧
    (s.policy = .raw → step s = .fault .undefinedSourceRead)

/-- 30_encoding.md R301, R306, R309, 43_token_loop.md R551 to R616: words written out bit by bit, the first-read bit
first, decode to the elements they stand for. -/
def Obligations.WrittenWordsDecode : Prop :=
  decodeBits .header [true, false, false] = .ok (.blkStored true, []) ∧
  decodeBits .header [false, true, false] = .ok (.blkFixed false, []) ∧
  decodeBits .header [true, false, true] = .ok (.blkDynamic true, []) ∧
  decodeBits .header [false, true, true] = .ok (.blkReserved false, []) ∧
  decodeBits (.huffman .litlenSymbol fixedLitTree) [false, true, true, true, false, false, false, true] =
    .ok (.lit 65, []) ∧
  decodeBits (.huffman .litlenSymbol fixedLitTree) [true, true, false, false, true, false, false, false, false] =
    .ok (.lit 144, []) ∧
  decodeBits (.huffman .litlenSymbol fixedLitTree) [false, false, false, false, false, false, false] = .ok (.eob, []) ∧
  decodeBits (.huffman .litlenSymbol fixedLitTree) [false, false, false, false, false, false, true] =
    .ok (.len257, []) ∧
  decodeBits (.huffman .litlenSymbol fixedLitTree) [true, true, false, false, false, true, true, false] =
    .ok (.litlenInvalid 286, []) ∧
  decodeBits .fixedDist [false, false, true, false, false] = .ok (.dist4, []) ∧
  decodeBits .fixedDist [true, true, true, true, false] = .ok (.distInvalid 30, [])

/-- 30_encoding.md R301, R306, R309 to R314: for every well-formed element, decoding its encoding gives it back, whatever
follows. For a CL symbol, whose code is the block's, the encoding is that of `plainClTree` (log entry 16). -/
def Obligations.EncodedElementsDecodeBack : Prop :=
  ∀ (i : Instr) (rest : List Bool), wellFormed i = true →
    decodeBits (fixedValueCode (formatOf i)) (encodeBits i ++ rest) = .ok (i, rest)

/-- 30_encoding.md R310 to R314: a value of a format selects an element exactly where the opcode table has a row for it,
and the element is then well-formed, of that format, and has that value: the map loses no bit and no two values share an
element. -/
def Obligations.OpcodeMapIsOneToOne : Prop :=
  (∀ v, (∃ i, decodeValue .blockHdr v = .ok i) ↔ v < 8) ∧
  (∀ v, (∃ i, decodeValue .litlenSymbol v = .ok i) ↔ v < 288) ∧
  (∀ v, (∃ i, decodeValue .distSymbol v = .ok i) ↔ v < 32) ∧
  (∀ v, (∃ i, decodeValue .clSymbol v = .ok i) ↔ v < 19) ∧
  ∀ (f : Format) (v : Nat) (i : Instr), decodeValue f v = .ok i → wellFormed i = true ∧ formatOf i = f ∧ encode i = v

/-! ## Trees -/

/-- 41_huffman_trees.md R453, R454, R455: `BL_COUNT` counts the symbols of each length, and the codes of one length are
consecutive from its first code, in ascending symbol order. -/
def Obligations.CodesOfALengthAreConsecutive : Prop :=
  ∀ (L : List Nat), (∀ l ∈ L, l ≤ 15) →
    (∀ l, 1 ≤ l → l ≤ 15 → (countLengths L).getD l 0 = L.count l) ∧
    ∀ x, x < L.length → L.getD x 0 ≠ 0 →
      codeOf L x = firstCode (countLengths L) (L.getD x 0) + (L.take x).count (L.getD x 0)

/-- 41_huffman_trees.md R452, R456, R457, R460: in the tree built from code lengths that are not over-subscribed, the code
of every used symbol leads to that symbol and uses exactly its length in bits. -/
def Obligations.CanonicalTreeDecodesItsCodes : Prop :=
  ∀ (L : List Nat) (T : Tree), (∀ l ∈ L, l ≤ 15) → buildCanonical L = some T →
    ∀ (x : Nat) (rest : List Bool), x < L.length → L.getD x 0 ≠ 0 →
      codeOf L x < 2 ^ L.getD x 0 ∧ walk T (bitsMsb (L.getD x 0) (codeOf L x) ++ rest) = .found x rest

/-- 41_huffman_trees.md R452, R457, R460: the tree so built has no other codes: whatever bits lead to a symbol are the code
of a used symbol, so a symbol of length 0 is never returned. -/
def Obligations.CanonicalTreeHasNoOtherCodes : Prop :=
  ∀ (L : List Nat) (T : Tree), (∀ l ∈ L, l ≤ 15) → buildCanonical L = some T →
    ∀ (bs : List Bool) (x : Nat) (rest : List Bool), walk T bs = .found x rest →
      x < L.length ∧ L.getD x 0 ≠ 0 ∧ bs = bitsMsb (L.getD x 0) (codeOf L x) ++ rest

/-- 41_huffman_trees.md R459: in the worked example of the builder, the counts, the first codes and the codes are those of
the rule, the tree decodes the bits of each code, the Kraft sum is 1, and no path of the tree is absent. -/
def Obligations.BuilderWorkedExample : Prop :=
  countLengths [3, 3, 3, 3, 3, 2, 4, 4] = [0, 0, 1, 5, 2, 0, 0, 0, 0, 0, 0, 0, 0, 0, 0, 0] ∧
  (firstCodes (countLengths [3, 3, 3, 3, 3, 2, 4, 4])).take 5 = [0, 0, 0, 2, 14] ∧
  (List.range 8).map (codeOf [3, 3, 3, 3, 3, 2, 4, 4]) =
    [0b010, 0b011, 0b100, 0b101, 0b110, 0b00, 0b1110, 0b1111] ∧
  ∃ T, buildCanonical [3, 3, 3, 3, 3, 2, 4, 4] = some T ∧
    walk T [false, true, false] = .found 0 [] ∧ walk T [false, true, true] = .found 1 [] ∧
    walk T [true, false, false] = .found 2 [] ∧ walk T [true, false, true] = .found 3 [] ∧
    walk T [true, true, false] = .found 4 [] ∧ walk T [false, false] = .found 5 [] ∧
    walk T [true, true, true, false] = .found 6 [] ∧ walk T [true, true, true, true] = .found 7 [] ∧
    kraftSum (countLengths [3, 3, 3, 3, 3, 2, 4, 4]) = 2 ^ 15 ∧
    ∀ a b d e : Bool, ∀ rest, walk T [a, b, d, e] ≠ .absent rest

/-- 41_huffman_trees.md R477, R475, R476: for every tree and every symbol with a leaf, `Encode` gives bits, and `Decode` at
a cursor where `SRC` holds those bits returns the symbol and reads exactly them; a symbol without a leaf has no code. -/
def Obligations.EncodeThenDecodeReturnsTheSymbol : Prop :=
  ∀ (T : Tree) (x : Nat),
    (x ∈ leaves T → ∃ bits, encodeSymbol T x = .ok bits ∧
      ∀ s : State, s.hasBits bits.length → s.bitsAt s.pos bits.length = bits →
        decodeSymbol T s = .ok x (s.moveTo (s.pos + bits.length))) ∧
    (x ∉ leaves T → encodeSymbol T x = .error .unknownSymbol)

/-- 41_huffman_trees.md R470, R471, R472, whatever the OPEN parameters of R473 and R474: the frequency-based build fails,
with `EmptyAlphabet`, exactly on the empty map; a one-symbol map gives a leaf; and the leaves of the tree are the symbols
of the map. -/
def Obligations.FrequencyBuildHasTheMapsSymbols : Prop :=
  ∀ (tie : List (Nat × Tree) → Nat) (order : Nat × Tree → Nat × Tree → Bool) (F : List (Nat × Nat)),
    (buildFromFrequenciesWith tie order F = .error .emptyAlphabet ↔ F = []) ∧
    (∀ x f, F = [(x, f)] → buildFromFrequenciesWith tie order F = .ok (.leaf x)) ∧
    (F ≠ [] → ∃ T, buildFromFrequenciesWith tie order F = .ok T ∧ (leaves T).Perm (F.map Prod.fst))

/-- 41_huffman_trees.md R470, the example X: 1, Y: 1, Z: 2 (symbols 0, 1, 2): whatever the OPEN parameters, Z has a code of
length 1 and X and Y have codes of length 2. -/
def Obligations.FrequencyBuildExampleLengths : Prop :=
  ∀ (tie : List (Nat × Tree) → Nat) (order : Nat × Tree → Nat × Tree → Bool),
    ∃ T, buildFromFrequenciesWith tie order [(0, 1), (1, 1), (2, 2)] = .ok T ∧
      depthOf 2 T = some 1 ∧ depthOf 0 T = some 2 ∧ depthOf 1 T = some 2

/-! ## The cursor -/

/-- 40_bit_cursor.md R402, R403: the two field reads take the same bits, move the cursor alike, and give values below 2^n
that are bit reversals of each other over n bits. -/
def Obligations.FieldReadsAreBitReversals : Prop :=
  ∀ (s : State) (n : Nat), s.hasBits n →
    ∃ v w t, readBits n s = .ok v t ∧ readBitsReversed n s = .ok w t ∧ t.pos = s.pos + n ∧ v < 2 ^ n ∧ w < 2 ^ n ∧
      ∀ i, i < n → (v.testBit i = s.streamBit (s.pos + i) ∧ w.testBit (n - 1 - i) = s.streamBit (s.pos + i))

/-- 40_bit_cursor.md R404: `alignToByte` ends at a byte boundary less than a byte ahead, changes nothing else, and at a
boundary changes nothing at all. -/
def Obligations.AlignMovesToTheNextBoundary : Prop :=
  ∀ s : State, (alignToByte s).bitIdx = 0 ∧ s.pos ≤ (alignToByte s).pos ∧ (alignToByte s).pos < s.pos + 8 ∧
    (s.bitIdx = 0 → alignToByte s = s) ∧
    alignToByte s = { s with byteIdx := (alignToByte s).byteIdx, bitIdx := (alignToByte s).bitIdx }

/-- 40_bit_cursor.md R405: at bit index 0 `readByte` returns the byte at the cursor, which is the value of `readBits(8)`, and
leaves the same position as that; at the end of `SRC` it overruns it; at any other bit index it is the fault
`UNALIGNED_READ_BYTE`. -/
def Obligations.ReadByteIsReadBitsEight : Prop :=
  ∀ s : State,
    (s.bitIdx = 0 → s.byteIdx < s.srcLen →
      ∃ (b : Byte) (t : State), readByte s = .ok b t ∧ readBits 8 s = .ok b.toNat t ∧ b = Memory.read s.src s.byteIdx ∧
        t = { s with byteIdx := s.byteIdx + 1 }) ∧
    (s.bitIdx = 0 → s.srcLen ≤ s.byteIdx →
      readByte s = if s.policy = .checked then .raise .outOfRange .none s else .fault .undefinedSourceRead) ∧
    (s.bitIdx ≠ 0 → readByte s = .fault .unalignedReadByte)

/-- 40_bit_cursor.md R406, R408: a field read raises `OutOfRange` under `CHECKED`, or faults under `RAW`, exactly where one
of its bits lies past the end of `SRC`. -/
def Obligations.OverrunExactlyPastTheEnd : Prop :=
  ∀ (s : State) (n : Nat), s.hasBits 0 →
    ((∃ t, readBits n s = .raise .outOfRange .none t) ↔ s.policy = .checked ∧ 8 * s.srcLen < s.pos + n) ∧
    (readBits n s = .fault .undefinedSourceRead ↔ s.policy = .raw ∧ 8 * s.srcLen < s.pos + n)

/-! ## Block elements -/

/-- 42_inflate_blocks.md R504, R510, R511, R512, R513, R508: a stored block whose lengths agree and whose bytes are there
and fit appends exactly `LEN` bytes of `SRC` after the lengths, and the block ends. -/
def Obligations.StoredBlockCopiesItsBytes : Prop :=
  ∀ (bfinal : Bool) (s : State),
    let p := s.alignedPos
    let len := s.field p 16
    let nlen := s.field (p + 16) 16
    p + 32 + 8 * len ≤ 8 * s.srcLen → len + nlen = 65535 → s.hasRoom len →
    exec (.blkStored bfinal) s =
      .next (State.endBlock
        { (s.append (s.srcBytes (p / 8 + 4) len)).moveTo (p + 32 + 8 * len) with
          bfinal := wrote bfinal, btype := wrote 0, phase := .stored, len := wrote (BitVec.ofNat 16 len)
          nlen := wrote (BitVec.ofNat 16 nlen), remain := wrote 0 })

/-- 42_inflate_blocks.md R511: a stored block whose lengths do not agree raises `DataCorruption(STORED_LEN_MISMATCH)` after
all four length bytes are read, and copies nothing. -/
def Obligations.StoredLengthMismatchIsCorruption : Prop :=
  ∀ (bfinal : Bool) (s : State),
    let p := s.alignedPos
    let len := s.field p 16
    let nlen := s.field (p + 16) 16
    p + 32 ≤ 8 * s.srcLen → len ≠ 65535 - nlen →
    exec (.blkStored bfinal) s =
      .next (State.abort
        { s.moveTo (p + 32) with
          bfinal := wrote bfinal, btype := wrote 0, phase := .stored, len := wrote (BitVec.ofNat 16 len)
          nlen := wrote (BitVec.ofNat 16 nlen) } .dataCorruption .storedLenMismatch)

/-- 42_inflate_blocks.md R504, R510, R512, 20_memory.md R212: a stored block whose source ends in its length bytes, or in
its payload while the output has room, overruns the source; one whose payload is there but does not fit raises
`CapacityExceeded`. -/
def Obligations.StoredBlockCutShort : Prop :=
  ∀ (bfinal : Bool) (s : State), s.hasBits 0 →
    let p := s.alignedPos
    let len := s.field p 16
    let nlen := s.field (p + 16) 16
    ((8 * s.srcLen < p + 32 ∨ (8 * s.srcLen < p + 32 + 8 * len ∧ len + nlen = 65535 ∧ s.hasRoom len)) →
      (s.policy = .checked → ∃ t, exec (.blkStored bfinal) s = .next t ∧ t.phase = .error ∧ t.errKind = .outOfRange ∧
        t.errCause = .none) ∧
      (s.policy = .raw → exec (.blkStored bfinal) s = .fault .undefinedSourceRead)) ∧
    (p + 32 + 8 * len ≤ 8 * s.srcLen → len + nlen = 65535 → s.hasRoom 0 → ¬ s.hasRoom len →
      ∃ t, exec (.blkStored bfinal) s = .next t ∧ t.phase = .error ∧ t.errKind = .capacityExceeded ∧
        t.errCause = .none ∧ s.outCapacity = some t.outLen)

/-- 42_inflate_blocks.md R505, R507: a fixed block begins its token loop; a reserved block type always raises
`DataCorruption(RESERVED_BTYPE)`. -/
def Obligations.FixedAndReservedBlocks : Prop :=
  ∀ (bfinal : Bool) (s : State),
    exec (.blkFixed bfinal) s =
      .next { s with bfinal := wrote bfinal, btype := wrote 1, phase := .tokens, distPending := false } ∧
    exec (.blkReserved bfinal) s =
      .next { s with
        bfinal := wrote bfinal, btype := wrote 3, errKind := .dataCorruption, errCause := .reservedBtype, phase := .error }

/-- 42_inflate_blocks.md R506, 44_dynamic_header.md R700 to R705: a dynamic block reads its three counts and the
code-length code lengths in the order of `CL_ORDER`, the unreached ones 0, builds the code-length tree, and its first
code-length element is next. That `BL_COUNT` and `NEXT_CODE` hold what the build left, unwritten, is the model's choice
(log entry 24). -/
def Obligations.DynamicBlockReadsItsHeader : Prop :=
  ∀ (bfinal : Bool) (s : State),
    let p := s.pos
    let hlit := s.field p 5 + 257
    let hdist := s.field (p + 5) 5 + 1
    let hclen := s.field (p + 10) 4 + 4
    let cll := s.clLengths (p + 14) hclen
    let lens := cll.toList.map BitVec.toNat
    s.hasBits (14 + 3 * hclen) → oversubscribed (countLengths lens) = false →
    exec (.blkDynamic bfinal) s =
      .next { s.moveTo (p + 14 + 3 * hclen) with
        bfinal := wrote bfinal, btype := wrote 2, phase := .dynHeader, hlit := wrote (BitVec.ofNat 9 hlit)
        hdist := wrote (BitVec.ofNat 6 hdist), hclen := wrote (BitVec.ofNat 5 hclen), cll := wrote cll
        clTree := wrote (canonicalTree lens), lengths := wrote [], blCount := unwritten (countLengths lens)
        nextCode := unwritten (assignCodes lens (firstCodes (countLengths lens))).2 }

/-- 44_dynamic_header.md R701 to R705, 41_huffman_trees.md R456: a dynamic block whose code-length code is over-subscribed
raises `DataCorruption(OVERSUBSCRIBED_CODE)`; one whose source ends in its counts or its code-length code lengths
overruns the source. The output is as it was. -/
def Obligations.DynamicHeaderErrors : Prop :=
  ∀ (bfinal : Bool) (s : State), s.hasBits 0 →
    let p := s.pos
    let hclen := s.field (p + 10) 4 + 4
    (s.hasBits (14 + 3 * hclen) →
      oversubscribed (countLengths ((s.clLengths (p + 14) hclen).toList.map BitVec.toNat)) = true →
      ∃ t, exec (.blkDynamic bfinal) s = .next t ∧ t.phase = .error ∧ t.errKind = .dataCorruption ∧
        t.errCause = .oversubscribedCode ∧ t.out = s.out ∧ t.outLen = s.outLen) ∧
    (¬ s.hasBits 14 ∨ ¬ s.hasBits (14 + 3 * hclen) →
      (s.policy = .checked → ∃ t, exec (.blkDynamic bfinal) s = .next t ∧ t.phase = .error ∧
        t.errKind = .outOfRange ∧ t.errCause = .none ∧ t.out = s.out ∧ t.outLen = s.outLen) ∧
      (s.policy = .raw → exec (.blkDynamic bfinal) s = .fault .undefinedSourceRead))

/-! ## Literal/length elements -/

/-- 43_token_loop.md R551, 20_memory.md R212: a literal appends the byte whose value is the symbol; where the output is
full it raises `CapacityExceeded` and appends nothing. -/
def Obligations.LiteralAppendsItsByte : Prop :=
  ∀ (sym : BitVec 9) (s : State), wellFormed (.lit sym) = true →
    (s.outCapacity ≠ some s.outLen →
      exec (.lit sym) s =
        .next { s with
          sym := wrote sym, out := Memory.write s.out s.outLen (BitVec.ofNat 8 sym.toNat), outLen := s.outLen + 1 }) ∧
    (s.outCapacity = some s.outLen →
      exec (.lit sym) s =
        .next { s with sym := wrote sym, errKind := .capacityExceeded, errCause := .none, phase := .error })

/-- 43_token_loop.md R552, 42_inflate_blocks.md R508, R509: end of block completes the decode where BFINAL is 1, with
`FINAL_POS` the cursor, and else makes the next block header next, at the cursor as it stands. -/
def Obligations.EndOfBlockFollowsTheFinalBit : Prop :=
  ∀ s : State, s.bfinal.written = true →
    (s.bfinal.val = true →
      exec .eob s = .next { s with sym := wrote 256, finalPos := ⟨s.byteIdx, s.bitIdx⟩, phase := .done }) ∧
    (s.bfinal.val = false → exec .eob s = .next { s with sym := wrote 256, phase := .blockHeader })

/-- 43_token_loop.md R553, R554 to R582: each of the 29 length codes, with the symbol, the number of extra bits and the
base length that `lengthRows` writes out for it, writes `SYM` and `MATCH_LEN`, the base plus the extra bits at the cursor, moves past those bits,
and its distance symbol is next. The literals of the table are the rules' own numbers, which the spec marks as general
knowledge (log entry 19). -/
def Obligations.LengthCodesReadTheirLengths : Prop :=
  ∀ row ∈ lengthRows,
    ∀ s : State, s.hasBits row.2.2.1 →
      exec row.1 s =
        .next { s.moveTo (s.pos + row.2.2.1) with
          sym := wrote (BitVec.ofNat 9 row.2.1)
          matchLen := wrote (BitVec.ofNat 9 (row.2.2.2 + s.field s.pos row.2.2.1))
          distPending := true }

/-- 43_token_loop.md R583, R616: the symbols 286 and 287, and the distance symbols 30 and 31, always raise
`DataCorruption` with their causes, before any extra bit is read. -/
def Obligations.InvalidSymbolsAreCorruption : Prop :=
  (∀ (sym : BitVec 9) (s : State), wellFormed (.litlenInvalid sym) = true →
    exec (.litlenInvalid sym) s =
      .next { s with sym := wrote sym, errKind := .dataCorruption, errCause := .invalidLitlenSymbol, phase := .error }) ∧
  (∀ (dsym : BitVec 5) (s : State), wellFormed (.distInvalid dsym) = true →
    exec (.distInvalid dsym) s =
      .next { s with
        dsym := wrote dsym, errKind := .dataCorruption, errCause := .invalidDistanceSymbol, phase := .error })

/-! ## Distance elements and the copy -/

/-- 43_token_loop.md R585 to R615, R617, R618: each of the 30 distance codes reads its distance, the base plus the extra
bits at the cursor; where that is at most `OUT_LEN` and the match fits, the bytes of the match are appended and a
literal/length symbol is next. -/
def Obligations.DistanceCodesCopyTheirMatch : Prop :=
  ∀ row ∈ distRows, ∀ s : State,
    let d := row.2.2.2 + s.field s.pos row.2.2.1
    let n := s.matchLen.val.toNat
    s.hasBits row.2.2.1 → s.matchLen.written = true → d ≤ s.outLen → s.hasRoom n → Memory.wf s.out = true →
    exec row.1 s =
      .next { (s.append (s.matchBytes d n)).moveTo (s.pos + row.2.2.1) with
        dsym := wrote (BitVec.ofNat 5 row.2.1), matchDist := wrote (BitVec.ofNat 16 d), copyRemain := wrote 0
        distPending := false }

/-- 43_token_loop.md R619, byte by byte: after any distance code that completes, the k-th appended byte is the byte of the
output before the copy at `OUT_LEN − MATCH_DIST + (k mod MATCH_DIST)`, every byte before is as it was, and so is every
address past the new end. -/
def Obligations.MatchRepeatsTheLastBytes : Prop :=
  ∀ row ∈ distRows, ∀ s : State,
    let d := row.2.2.2 + s.field s.pos row.2.2.1
    let n := s.matchLen.val.toNat
    s.hasBits row.2.2.1 → s.matchLen.written = true → d ≤ s.outLen → s.hasRoom n → Memory.wf s.out = true →
    ∃ t, exec row.1 s = .next t ∧ t.outLen = s.outLen + n ∧
      (∀ k, k < n → Memory.read t.out (s.outLen + k) = Memory.read s.out (s.outLen - d + k % d)) ∧
      (∀ a, a < s.outLen ∨ s.outLen + n ≤ a → Memory.read t.out a = Memory.read s.out a) ∧
      (∀ a, Memory.read t.src a = Memory.read s.src a)

/-- 43_token_loop.md R617: a distance beyond the bytes output so far raises `DataCorruption(DISTANCE_TOO_FAR)` after the
extra bits are read, and nothing is copied. -/
def Obligations.DistanceTooFarIsCorruption : Prop :=
  ∀ row ∈ distRows, ∀ s : State,
    let d := row.2.2.2 + s.field s.pos row.2.2.1
    s.hasBits row.2.2.1 → s.outLen < d →
    exec row.1 s =
      .next { s.moveTo (s.pos + row.2.2.1) with
        dsym := wrote (BitVec.ofNat 5 row.2.1), matchDist := wrote (BitVec.ofNat 16 d)
        errKind := .dataCorruption, errCause := .distanceTooFar, phase := .error }

/-- 43_token_loop.md R621, 20_memory.md R211, R212: a match that does not fit raises `CapacityExceeded` once the output is
full, and the host reads no output. -/
def Obligations.CopyThatDoesNotFitRaises : Prop :=
  ∀ row ∈ distRows, ∀ s : State,
    let d := row.2.2.2 + s.field s.pos row.2.2.1
    let n := s.matchLen.val.toNat
    s.hasBits row.2.2.1 → s.matchLen.written = true → d ≤ s.outLen → s.hasRoom 0 → ¬ s.hasRoom n →
    Memory.wf s.out = true →
    ∃ t, exec row.1 s = .next t ∧ t.phase = .error ∧ t.errKind = .capacityExceeded ∧ t.errCause = .none ∧
      s.outCapacity = some t.outLen ∧ hostOut t = none

/-- 40_bit_cursor.md R406, R402: an element whose extra bits run past the end of `SRC` overruns it: `OutOfRange` under
`CHECKED`, the fault under `RAW`; the output is as it was. It covers every element with extra bits: the length codes 265
to 284, the distance codes 4 to 29, and `CL_REP16` with a previous length, `CL_ZERO17` and `CL_ZERO18`. -/
def Obligations.ExtraBitsCutShortOverrun : Prop :=
  ∀ (i : Instr) (e : Nat) (s : State), s.hasBits 0 → ¬ s.hasBits e →
    ((∃ x base, (i, x, e, base) ∈ lengthRows ++ distRows) ∨
      (s.lengths.written = true ∧ ∃ v n, clRunOf i s = some (e, v, n))) →
    (s.policy = .checked → ∃ t, exec i s = .next t ∧ t.phase = .error ∧ t.errKind = .outOfRange ∧ t.errCause = .none ∧
      t.out = s.out ∧ t.outLen = s.outLen) ∧
    (s.policy = .raw → exec i s = .fault .undefinedSourceRead)

/-! ## Code-length elements -/

/-- 44_dynamic_header.md R706 to R710: a code-length element whose run leaves the code lengths incomplete appends its run,
moves past its extra bits, and changes nothing else. -/
def Obligations.CodeLengthRunsAppend : Prop :=
  ∀ (i : Instr) (s : State) (e n : Nat) (v : BitVec 4), wellFormed i = true → clRunOf i s = some (e, v, n) →
    s.hasBits e → s.lengths.written = true → s.hlit.written = true → s.hdist.written = true →
    s.lengths.val.length + n < s.hlit.val.toNat + s.hdist.val.toNat →
    exec i s =
      .next { s.moveTo (s.pos + e) with lengths := wrote (s.lengths.val ++ List.replicate n v) }

/-- 44_dynamic_header.md R711, R700, 42_inflate_blocks.md R506: the element that completes the code lengths builds the
literal/length tree from the first `HLIT` of them and the distance tree from the rest, and the token loop begins. That
`BL_COUNT` and `NEXT_CODE` hold what the second build left, unwritten, is the model's choice (log entry 24). -/
def Obligations.LastCodeLengthBuildsBothTrees : Prop :=
  ∀ (i : Instr) (s : State) (e n : Nat) (v : BitVec 4), wellFormed i = true → clRunOf i s = some (e, v, n) →
    s.hasBits e → s.lengths.written = true → s.hlit.written = true → s.hdist.written = true →
    let L := s.lengths.val ++ List.replicate n v
    let lit := (L.map BitVec.toNat).take s.hlit.val.toNat
    let dist := (L.map BitVec.toNat).drop s.hlit.val.toNat
    L.length = s.hlit.val.toNat + s.hdist.val.toNat →
    oversubscribed (countLengths lit) = false → oversubscribed (countLengths dist) = false →
    exec i s =
      .next { s.moveTo (s.pos + e) with
        lengths := wrote L, litTree := wrote (canonicalTree lit), distTree := wrote (canonicalTree dist)
        blCount := unwritten (countLengths dist)
        nextCode := unwritten (assignCodes dist (firstCodes (countLengths dist))).2
        phase := .tokens, distPending := false }

/-- 44_dynamic_header.md R711, 41_huffman_trees.md R456: where either set of code lengths is over-subscribed, the element
that completes them raises `DataCorruption(OVERSUBSCRIBED_CODE)`. -/
def Obligations.OverSubscribedTreesAreCorruption : Prop :=
  ∀ (i : Instr) (s : State) (e n : Nat) (v : BitVec 4), wellFormed i = true → clRunOf i s = some (e, v, n) →
    s.hasBits e → s.lengths.written = true → s.hlit.written = true → s.hdist.written = true →
    let L := s.lengths.val ++ List.replicate n v
    L.length = s.hlit.val.toNat + s.hdist.val.toNat →
    (oversubscribed (countLengths ((L.map BitVec.toNat).take s.hlit.val.toNat)) = true ∨
      oversubscribed (countLengths ((L.map BitVec.toNat).drop s.hlit.val.toNat)) = true) →
    ∃ t, exec i s = .next t ∧ t.phase = .error ∧ t.errKind = .dataCorruption ∧ t.errCause = .oversubscribedCode ∧
      t.lengths = wrote L ∧ t.out = s.out ∧ t.outLen = s.outLen

/-- 44_dynamic_header.md R710: a run past `HLIT + HDIST` raises `DataCorruption(CODE_LENGTH_OVERRUN)` after its extra bits
are read, and appends nothing of the run. -/
def Obligations.RunPastTheEndIsCorruption : Prop :=
  ∀ (i : Instr) (s : State) (e n : Nat) (v : BitVec 4), wellFormed i = true → clRunOf i s = some (e, v, n) →
    s.hasBits e → s.lengths.written = true → s.hlit.written = true → s.hdist.written = true →
    s.hlit.val.toNat + s.hdist.val.toNat < s.lengths.val.length + n →
    exec i s =
      .next { s.moveTo (s.pos + e) with
        errKind := .dataCorruption, errCause := .codeLengthOverrun, phase := .error }

/-- 44_dynamic_header.md R707: `CL_REP16` as the first element raises `DataCorruption(REPEAT_WITHOUT_PREVIOUS)` before its
extra bits are read. -/
def Obligations.RepeatWithoutPreviousIsCorruption : Prop :=
  ∀ s : State, s.lengths.written = true → s.lengths.val = [] →
    exec .clRep16 s =
      .next { s with errKind := .dataCorruption, errCause := .repeatWithoutPrevious, phase := .error }

/-! ## What is stored, byte by byte, and reads that are no read -/

/-- 43_token_loop.md R551, 42_inflate_blocks.md R512, 20_memory.md R212, byte by byte: a literal writes one byte of `OUT`, at
`OUT_LEN`; a stored block that completes writes its `LEN` bytes from there on, each the byte of `SRC` in its place; every
other byte of `OUT`, and every byte of `SRC`, reads as before. -/
def Obligations.StoredBytesAndNoOthersAreWritten : Prop :=
  (∀ (sym : BitVec 9) (s : State), wellFormed (.lit sym) = true → s.outCapacity ≠ some s.outLen →
    Memory.wf s.out = true →
    ∃ t, exec (.lit sym) s = .next t ∧ t.outLen = s.outLen + 1 ∧
      (Memory.read t.out s.outLen).toNat = sym.toNat ∧
      (∀ a, a ≠ s.outLen → Memory.read t.out a = Memory.read s.out a) ∧
      ∀ a, Memory.read t.src a = Memory.read s.src a) ∧
  ∀ (bfinal : Bool) (s : State),
    let p := s.alignedPos
    let len := s.field p 16
    p + 32 + 8 * len ≤ 8 * s.srcLen → len + s.field (p + 16) 16 = 65535 → s.hasRoom len → Memory.wf s.out = true →
    ∃ t, exec (.blkStored bfinal) s = .next t ∧ t.outLen = s.outLen + len ∧
      (∀ k, k < len → Memory.read t.out (s.outLen + k) = Memory.read s.src (p / 8 + 4 + k)) ∧
      (∀ a, a < s.outLen ∨ s.outLen + len ≤ a → Memory.read t.out a = Memory.read s.out a) ∧
      ∀ a, Memory.read t.src a = Memory.read s.src a

/-- 10_state.md R128, 60_exceptions.md R810: an element, or the read of the next element's value, that reads a register this
decode has not written stops in the fault `UNWRITTEN_REGISTER_READ`: end of block without BFINAL, a distance in reach
without `MATCH_LEN`, a code-length element without `LENGTHS`, `HLIT` or `HDIST`; in a dynamic header without `CL_TREE`;
in the token loop without BTYPE, or without the tree the next symbol of a dynamic block is read with; and in the phase
`STORED`, in which the model's steps leave no state (log entry 18), without `REMAIN`, or, once the bytes are copied,
without BFINAL. -/
def Obligations.UnwrittenReadsFault : Prop :=
  (∀ s : State, s.bfinal.written = false → exec .eob s = .fault .unwrittenRegisterRead) ∧
  (∀ row ∈ distRows, ∀ s : State, s.hasBits row.2.2.1 → row.2.2.2 + s.field s.pos row.2.2.1 ≤ s.outLen →
    s.matchLen.written = false → exec row.1 s = .fault .unwrittenRegisterRead) ∧
  (∀ (c : BitVec 5) (s : State), s.lengths.written = false → exec (.clLen c) s = .fault .unwrittenRegisterRead) ∧
  (∀ s : State, s.lengths.written = false → exec .clRep16 s = .fault .unwrittenRegisterRead) ∧
  (∀ s : State, s.lengths.written = false → s.hasBits 3 → exec .clZero17 s = .fault .unwrittenRegisterRead) ∧
  (∀ s : State, s.lengths.written = false → s.hasBits 7 → exec .clZero18 s = .fault .unwrittenRegisterRead) ∧
  (∀ (i : Instr) (s : State) (e n : Nat) (v : BitVec 4), clRunOf i s = some (e, v, n) → s.hasBits e →
    s.hlit.written = false ∨ s.hdist.written = false → exec i s = .fault .unwrittenRegisterRead) ∧
  ∀ s : State, hostTurn s = none →
    (s.phase = .dynHeader → s.clTree.written = false → step s = .fault .unwrittenRegisterRead) ∧
    (s.phase = .tokens → s.btype.written = false → step s = .fault .unwrittenRegisterRead) ∧
    (s.phase = .tokens → s.btype.val ≠ 1 → s.distPending = false → s.litTree.written = false →
      step s = .fault .unwrittenRegisterRead) ∧
    (s.phase = .tokens → s.btype.val ≠ 1 → s.distPending = true → s.distTree.written = false →
      step s = .fault .unwrittenRegisterRead) ∧
    (s.phase = .stored → s.remain.written = false → step s = .fault .unwrittenRegisterRead) ∧
    (s.phase = .stored → s.bitIdx = 0 → s.hasBits (8 * s.remain.val.toNat) → s.hasRoom s.remain.val.toNat →
      s.bfinal.written = false → step s = .fault .unwrittenRegisterRead)

/-! ## The whole machine -/

/-- 10_state.md R108, R111 to R117, R121, R125, R126, R109, 20_memory.md R210: what each kind of element may write. No
element writes `SRC`, the host's inputs or the capacity; only a block element writes BFINAL and BTYPE; only `BLK_STORED`
the stored-block registers; only `BLK_DYNAMIC` the counts of a dynamic header, `CLL` and `CL_TREE`; only `BLK_DYNAMIC` and
code-length elements `LENGTHS` and the scratch of a build, which every other element leaves as it is (log entry 24, the
model's choice); only code-length elements `LIT_TREE` and `DIST_TREE`; only literal/length elements `SYM`, and of them only
the length codes `MATCH_LEN`; only distance elements `DSYM`, and of them only the 30 distance codes `MATCH_DIST` and
`COPY_REMAIN`; only `BLK_STORED` and `EOB` `FINAL_POS`; and only `BLK_STORED`, `LIT` and the distance codes change the
output. -/
def Obligations.ElementsWriteOnlyTheirRegisters : Prop :=
  ∀ (i : Instr) (s t : State), exec i s = .next t →
    (t.src = s.src ∧ t.srcLen = s.srcLen ∧ t.policy = s.policy ∧ t.outCapacity = s.outCapacity ∧
      t.hostCmds = s.hostCmds) ∧
    (formatOf i ≠ .blockHdr → t.bfinal = s.bfinal ∧ t.btype = s.btype) ∧
    ((∀ f, i ≠ .blkStored f) → t.len = s.len ∧ t.nlen = s.nlen ∧ t.remain = s.remain) ∧
    ((∀ f, i ≠ .blkDynamic f) →
      t.hlit = s.hlit ∧ t.hdist = s.hdist ∧ t.hclen = s.hclen ∧ t.cll = s.cll ∧ t.clTree = s.clTree) ∧
    ((∀ f, i ≠ .blkDynamic f) → formatOf i ≠ .clSymbol →
      t.lengths = s.lengths ∧ t.blCount = s.blCount ∧ t.nextCode = s.nextCode) ∧
    (formatOf i ≠ .clSymbol → t.litTree = s.litTree ∧ t.distTree = s.distTree) ∧
    (formatOf i ≠ .litlenSymbol → t.sym = s.sym) ∧
    ((∀ row ∈ lengthRows, i ≠ row.1) → t.matchLen = s.matchLen) ∧
    (formatOf i ≠ .distSymbol → t.dsym = s.dsym) ∧
    ((∀ row ∈ distRows, i ≠ row.1) → t.matchDist = s.matchDist ∧ t.copyRemain = s.copyRemain) ∧
    ((∀ f, i ≠ .blkStored f) ∧ i ≠ .eob → t.finalPos = s.finalPos) ∧
    ((∀ f, i ≠ .blkStored f) ∧ (∀ x, i ≠ .lit x) ∧ (∀ row ∈ distRows, i ≠ row.1) → t.out = s.out ∧ t.outLen = s.outLen)

/-- 10_state.md R127, 70_reset_and_hazards.md R922, R925: a step that is not the host's changes none of the host's inputs,
nor the capacity. -/
def Obligations.DecodeNeverChangesItsInputs : Prop :=
  ∀ s t : State, hostTurn s = none → step s = .next t →
    t.src = s.src ∧ t.srcLen = s.srcLen ∧ t.policy = s.policy ∧ t.outCapacity = s.outCapacity

/-- 10_state.md R122, 20_memory.md R210: a step that is not the host's only appends to the output: its length does not
fall, and no byte once appended is overwritten. -/
def Obligations.OutputIsAppendOnly : Prop :=
  ∀ s t : State, hostTurn s = none → step s = .next t →
    s.outLen ≤ t.outLen ∧ ∀ a, a < s.outLen → Memory.read t.out a = Memory.read s.out a

/-- 10_state.md R103: a step that is not the host's never moves the cursor back. -/
def Obligations.CursorNeverMovesBack : Prop :=
  ∀ s t : State, hostTurn s = none → step s = .next t → s.pos ≤ t.pos

/-- 42_inflate_blocks.md R508, R509: a decode that completes does so at the end of a block whose final bit is 1, and
`FINAL_POS` is the cursor it leaves. What ended the block is symbol 256 of its token loop, the element `EOB` read at the
cursor; or the last byte of a stored block, the element `BLK_STORED` read at the cursor, with none of its bytes left to
copy. (From a state in the phase `STORED`, which no step of the model leaves, it is the last byte of that block: log
entry 18, the model's choice.) -/
def Obligations.SuccessOnlyAfterTheFinalBlock : Prop :=
  ∀ s t : State, s.status = .busy → step s = .next t → t.status = .doneOk →
    t.bfinal = wrote true ∧ t.finalPos = ⟨t.byteIdx, t.bitIdx⟩ ∧
    ((s.phase = .tokens ∧ t.sym = wrote 256 ∧
        ∃ k rest, s.awaitedCode = some k ∧ decodeBits k s.bitsLeft = .ok (.eob, rest)) ∨
      (s.phase = .blockHeader ∧ t.btype = wrote 0 ∧ t.remain = wrote 0 ∧
        ∃ rest, decodeBits .header s.bitsLeft = .ok (.blkStored true, rest)) ∨
      (s.phase = .stored ∧ t.remain = wrote 0))

/-- 10_state.md R129: the state at power-on reset meets the invariant of the machine. -/
def Obligations.ResetMeetsTheInvariant : Prop := Inv State.reset

/-- 10_state.md R102, R106, R114, R116, R121, R124, R128, 20_memory.md R210, R211, 60_exceptions.md R804, R805: every step
from a state that meets the invariant, in any phase and with any host commands coming, leaves a state that meets it. The
clauses on canonical memory and on the phase `STORED` are the model's own (log entries 1 and 7). -/
def Obligations.StepKeepsTheInvariant : Prop :=
  ∀ s t : State, Inv s → step s = .next t → Inv t

/-- 60_exceptions.md R810, 40_bit_cursor.md R407, 10_state.md R128: from every state that meets the invariant a step
answers a next state or, under `RAW` alone, the fault of a read past the end of `SRC`: the faults `UNALIGNED_READ_BYTE` and
`UNWRITTEN_REGISTER_READ` are not reached, and nothing is refused. -/
def Obligations.OnlyTheRawReadFaults : Prop :=
  ∀ s : State, Inv s →
    (∃ t, step s = .next t) ∨ (s.policy = .raw ∧ step s = .fault .undefinedSourceRead)

/-- 60_exceptions.md R825: a decode under `CHECKED` that has not raised `OutOfRange` is, step for step, the decode under
`RAW`; where it raises `OutOfRange`, the decode under `RAW` ends in the undefined-read fault. -/
def Obligations.PoliciesAgreeUntilTheEndOfSource : Prop :=
  ∀ (s t : State) (k : Nat), s.policy = .checked → s.hostCmds = [] →
    Host.Core.run Sys2Proof.core k s.start = .next t →
    (t.errKind ≠ .outOfRange →
      Host.Core.run Sys2Proof.core k { s.start with policy := .raw } = .next { t with policy := .raw }) ∧
    (t.errKind = .outOfRange →
      Host.Core.run Sys2Proof.core k { s.start with policy := .raw } = .fault .undefinedSourceRead)

/-- 60_exceptions.md R824, 42_inflate_blocks.md R500: what the host sees of a decode, at any point of it and at its end,
depends on `SRC`, `SRC_LEN`, `POLICY` and `OUT_CAPACITY` alone: whatever any other register or the output held before
`START` cannot be learnt. -/
def Obligations.DecodeDependsOnItsInputsAlone : Prop :=
  ∀ (s₁ s₂ : State) (k : Nat), s₁.src = s₂.src → s₁.srcLen = s₂.srcLen → s₁.policy = s₂.policy →
    s₁.outCapacity = s₂.outCapacity → s₁.hostCmds = [] → s₂.hostCmds = [] →
    (∀ t₁, Host.Core.run Sys2Proof.core k s₁.start = .next t₁ →
      ∃ t₂, Host.Core.run Sys2Proof.core k s₂.start = .next t₂ ∧ hostView t₁ = hostView t₂) ∧
    (∀ f, Host.Core.run Sys2Proof.core k s₁.start = .fault f → Host.Core.run Sys2Proof.core k s₂.start = .fault f)

/-- 42_inflate_blocks.md R514: under `CHECKED` every decode ends, after at most one element per bit of `SRC` and one more
(the model's steps being elements, log entry 1), in `DONE_OK` or `DONE_ERR`, with at most 258 bytes of output per bit of
`SRC`; under `RAW` it ends so or in the undefined-read fault. -/
def Obligations.EveryDecodeEnds : Prop :=
  ∀ s : State, s.hostCmds = [] → Memory.wf s.src = true →
    (∃ t, Host.Core.run Sys2Proof.core (8 * s.srcLen + 1) s.start = .next t ∧
      (t.status = .doneOk ∨ t.status = .doneErr) ∧ t.outLen ≤ 258 * (8 * s.srcLen)) ∨
    (s.policy = .raw ∧ Host.Core.run Sys2Proof.core (8 * s.srcLen + 1) s.start = .fault .undefinedSourceRead)
end

