-- ==== Sys2Proof/Laws/State.lean ====
section
/-! SUPPORT. One lemma per field per named update of the state, so that no proof unfolds a record update. -/

namespace Sys2Proof.Machine

@[simp] theorem wrote_val {α : Type} (v : α) : (wrote v).val = v := rfl
@[simp] theorem wrote_written {α : Type} (v : α) : (wrote v).written = true := rfl
@[simp] theorem unwritten_val {α : Type} (v : α) : (unwritten v).val = v := rfl
@[simp] theorem unwritten_written {α : Type} (v : α) : (unwritten v).written = false := rfl
@[simp] theorem forgetReg_val {α : Type} (r : Reg α) : (forgetReg r).val = r.val := rfl
@[simp] theorem forgetReg_written {α : Type} (r : Reg α) : (forgetReg r).written = false := rfl

/-! ## `State.moveTo` -/

section
variable (s : State) (p : Nat)

@[simp] theorem moveTo_src : (s.moveTo p).src = s.src := rfl
@[simp] theorem moveTo_srcLen : (s.moveTo p).srcLen = s.srcLen := rfl
@[simp] theorem moveTo_policy : (s.moveTo p).policy = s.policy := rfl
@[simp] theorem moveTo_outCapacity : (s.moveTo p).outCapacity = s.outCapacity := rfl
@[simp] theorem moveTo_hostCmds : (s.moveTo p).hostCmds = s.hostCmds := rfl
@[simp] theorem moveTo_phase : (s.moveTo p).phase = s.phase := rfl
@[simp] theorem moveTo_errKind : (s.moveTo p).errKind = s.errKind := rfl
@[simp] theorem moveTo_errCause : (s.moveTo p).errCause = s.errCause := rfl
@[simp] theorem moveTo_finalPos : (s.moveTo p).finalPos = s.finalPos := rfl
@[simp] theorem moveTo_byteIdx : (s.moveTo p).byteIdx = p / 8 := rfl
@[simp] theorem moveTo_bitIdx : (s.moveTo p).bitIdx = BitVec.ofNat 3 (p % 8) := rfl
@[simp] theorem moveTo_bfinal : (s.moveTo p).bfinal = s.bfinal := rfl
@[simp] theorem moveTo_btype : (s.moveTo p).btype = s.btype := rfl
@[simp] theorem moveTo_len : (s.moveTo p).len = s.len := rfl
@[simp] theorem moveTo_nlen : (s.moveTo p).nlen = s.nlen := rfl
@[simp] theorem moveTo_remain : (s.moveTo p).remain = s.remain := rfl
@[simp] theorem moveTo_hlit : (s.moveTo p).hlit = s.hlit := rfl
@[simp] theorem moveTo_hdist : (s.moveTo p).hdist = s.hdist := rfl
@[simp] theorem moveTo_hclen : (s.moveTo p).hclen = s.hclen := rfl
@[simp] theorem moveTo_cll : (s.moveTo p).cll = s.cll := rfl
@[simp] theorem moveTo_lengths : (s.moveTo p).lengths = s.lengths := rfl
@[simp] theorem moveTo_clTree : (s.moveTo p).clTree = s.clTree := rfl
@[simp] theorem moveTo_litTree : (s.moveTo p).litTree = s.litTree := rfl
@[simp] theorem moveTo_distTree : (s.moveTo p).distTree = s.distTree := rfl
@[simp] theorem moveTo_blCount : (s.moveTo p).blCount = s.blCount := rfl
@[simp] theorem moveTo_nextCode : (s.moveTo p).nextCode = s.nextCode := rfl
@[simp] theorem moveTo_sym : (s.moveTo p).sym = s.sym := rfl
@[simp] theorem moveTo_dsym : (s.moveTo p).dsym = s.dsym := rfl
@[simp] theorem moveTo_matchLen : (s.moveTo p).matchLen = s.matchLen := rfl
@[simp] theorem moveTo_matchDist : (s.moveTo p).matchDist = s.matchDist := rfl
@[simp] theorem moveTo_copyRemain : (s.moveTo p).copyRemain = s.copyRemain := rfl
@[simp] theorem moveTo_distPending : (s.moveTo p).distPending = s.distPending := rfl
@[simp] theorem moveTo_out : (s.moveTo p).out = s.out := rfl
@[simp] theorem moveTo_outLen : (s.moveTo p).outLen = s.outLen := rfl

end

/-! ## `State.abort` -/

section
variable (s : State) (k : ErrKind) (c : ErrCause)

@[simp] theorem abort_src : (s.abort k c).src = s.src := rfl
@[simp] theorem abort_srcLen : (s.abort k c).srcLen = s.srcLen := rfl
@[simp] theorem abort_policy : (s.abort k c).policy = s.policy := rfl
@[simp] theorem abort_outCapacity : (s.abort k c).outCapacity = s.outCapacity := rfl
@[simp] theorem abort_hostCmds : (s.abort k c).hostCmds = s.hostCmds := rfl
@[simp] theorem abort_phase : (s.abort k c).phase = .error := rfl
@[simp] theorem abort_errKind : (s.abort k c).errKind = k := rfl
@[simp] theorem abort_errCause : (s.abort k c).errCause = c := rfl
@[simp] theorem abort_finalPos : (s.abort k c).finalPos = s.finalPos := rfl
@[simp] theorem abort_byteIdx : (s.abort k c).byteIdx = s.byteIdx := rfl
@[simp] theorem abort_bitIdx : (s.abort k c).bitIdx = s.bitIdx := rfl
@[simp] theorem abort_bfinal : (s.abort k c).bfinal = s.bfinal := rfl
@[simp] theorem abort_btype : (s.abort k c).btype = s.btype := rfl
@[simp] theorem abort_len : (s.abort k c).len = s.len := rfl
@[simp] theorem abort_nlen : (s.abort k c).nlen = s.nlen := rfl
@[simp] theorem abort_remain : (s.abort k c).remain = s.remain := rfl
@[simp] theorem abort_hlit : (s.abort k c).hlit = s.hlit := rfl
@[simp] theorem abort_hdist : (s.abort k c).hdist = s.hdist := rfl
@[simp] theorem abort_hclen : (s.abort k c).hclen = s.hclen := rfl
@[simp] theorem abort_cll : (s.abort k c).cll = s.cll := rfl
@[simp] theorem abort_lengths : (s.abort k c).lengths = s.lengths := rfl
@[simp] theorem abort_clTree : (s.abort k c).clTree = s.clTree := rfl
@[simp] theorem abort_litTree : (s.abort k c).litTree = s.litTree := rfl
@[simp] theorem abort_distTree : (s.abort k c).distTree = s.distTree := rfl
@[simp] theorem abort_blCount : (s.abort k c).blCount = s.blCount := rfl
@[simp] theorem abort_nextCode : (s.abort k c).nextCode = s.nextCode := rfl
@[simp] theorem abort_sym : (s.abort k c).sym = s.sym := rfl
@[simp] theorem abort_dsym : (s.abort k c).dsym = s.dsym := rfl
@[simp] theorem abort_matchLen : (s.abort k c).matchLen = s.matchLen := rfl
@[simp] theorem abort_matchDist : (s.abort k c).matchDist = s.matchDist := rfl
@[simp] theorem abort_copyRemain : (s.abort k c).copyRemain = s.copyRemain := rfl
@[simp] theorem abort_distPending : (s.abort k c).distPending = s.distPending := rfl
@[simp] theorem abort_out : (s.abort k c).out = s.out := rfl
@[simp] theorem abort_outLen : (s.abort k c).outLen = s.outLen := rfl

end

/-! ## `State.pushByte` -/

section
variable (s : State) (b : Byte)

@[simp] theorem pushByte_src : (s.pushByte b).src = s.src := rfl
@[simp] theorem pushByte_srcLen : (s.pushByte b).srcLen = s.srcLen := rfl
@[simp] theorem pushByte_policy : (s.pushByte b).policy = s.policy := rfl
@[simp] theorem pushByte_outCapacity : (s.pushByte b).outCapacity = s.outCapacity := rfl
@[simp] theorem pushByte_hostCmds : (s.pushByte b).hostCmds = s.hostCmds := rfl
@[simp] theorem pushByte_phase : (s.pushByte b).phase = s.phase := rfl
@[simp] theorem pushByte_errKind : (s.pushByte b).errKind = s.errKind := rfl
@[simp] theorem pushByte_errCause : (s.pushByte b).errCause = s.errCause := rfl
@[simp] theorem pushByte_finalPos : (s.pushByte b).finalPos = s.finalPos := rfl
@[simp] theorem pushByte_byteIdx : (s.pushByte b).byteIdx = s.byteIdx := rfl
@[simp] theorem pushByte_bitIdx : (s.pushByte b).bitIdx = s.bitIdx := rfl
@[simp] theorem pushByte_bfinal : (s.pushByte b).bfinal = s.bfinal := rfl
@[simp] theorem pushByte_btype : (s.pushByte b).btype = s.btype := rfl
@[simp] theorem pushByte_len : (s.pushByte b).len = s.len := rfl
@[simp] theorem pushByte_nlen : (s.pushByte b).nlen = s.nlen := rfl
@[simp] theorem pushByte_remain : (s.pushByte b).remain = s.remain := rfl
@[simp] theorem pushByte_hlit : (s.pushByte b).hlit = s.hlit := rfl
@[simp] theorem pushByte_hdist : (s.pushByte b).hdist = s.hdist := rfl
@[simp] theorem pushByte_hclen : (s.pushByte b).hclen = s.hclen := rfl
@[simp] theorem pushByte_cll : (s.pushByte b).cll = s.cll := rfl
@[simp] theorem pushByte_lengths : (s.pushByte b).lengths = s.lengths := rfl
@[simp] theorem pushByte_clTree : (s.pushByte b).clTree = s.clTree := rfl
@[simp] theorem pushByte_litTree : (s.pushByte b).litTree = s.litTree := rfl
@[simp] theorem pushByte_distTree : (s.pushByte b).distTree = s.distTree := rfl
@[simp] theorem pushByte_blCount : (s.pushByte b).blCount = s.blCount := rfl
@[simp] theorem pushByte_nextCode : (s.pushByte b).nextCode = s.nextCode := rfl
@[simp] theorem pushByte_sym : (s.pushByte b).sym = s.sym := rfl
@[simp] theorem pushByte_dsym : (s.pushByte b).dsym = s.dsym := rfl
@[simp] theorem pushByte_matchLen : (s.pushByte b).matchLen = s.matchLen := rfl
@[simp] theorem pushByte_matchDist : (s.pushByte b).matchDist = s.matchDist := rfl
@[simp] theorem pushByte_copyRemain : (s.pushByte b).copyRemain = s.copyRemain := rfl
@[simp] theorem pushByte_distPending : (s.pushByte b).distPending = s.distPending := rfl
@[simp] theorem pushByte_out : (s.pushByte b).out = Memory.write s.out s.outLen b := rfl
@[simp] theorem pushByte_outLen : (s.pushByte b).outLen = s.outLen + 1 := rfl

end

/-! ## `State.complete` -/

section
variable (s : State)

@[simp] theorem complete_src : s.complete.src = s.src := rfl
@[simp] theorem complete_srcLen : s.complete.srcLen = s.srcLen := rfl
@[simp] theorem complete_policy : s.complete.policy = s.policy := rfl
@[simp] theorem complete_outCapacity : s.complete.outCapacity = s.outCapacity := rfl
@[simp] theorem complete_hostCmds : s.complete.hostCmds = s.hostCmds := rfl
@[simp] theorem complete_phase : s.complete.phase = .done := rfl
@[simp] theorem complete_errKind : s.complete.errKind = s.errKind := rfl
@[simp] theorem complete_errCause : s.complete.errCause = s.errCause := rfl
@[simp] theorem complete_finalPos : s.complete.finalPos = ⟨s.byteIdx, s.bitIdx⟩ := rfl
@[simp] theorem complete_byteIdx : s.complete.byteIdx = s.byteIdx := rfl
@[simp] theorem complete_bitIdx : s.complete.bitIdx = s.bitIdx := rfl
@[simp] theorem complete_bfinal : s.complete.bfinal = s.bfinal := rfl
@[simp] theorem complete_btype : s.complete.btype = s.btype := rfl
@[simp] theorem complete_len : s.complete.len = s.len := rfl
@[simp] theorem complete_nlen : s.complete.nlen = s.nlen := rfl
@[simp] theorem complete_remain : s.complete.remain = s.remain := rfl
@[simp] theorem complete_hlit : s.complete.hlit = s.hlit := rfl
@[simp] theorem complete_hdist : s.complete.hdist = s.hdist := rfl
@[simp] theorem complete_hclen : s.complete.hclen = s.hclen := rfl
@[simp] theorem complete_cll : s.complete.cll = s.cll := rfl
@[simp] theorem complete_lengths : s.complete.lengths = s.lengths := rfl
@[simp] theorem complete_clTree : s.complete.clTree = s.clTree := rfl
@[simp] theorem complete_litTree : s.complete.litTree = s.litTree := rfl
@[simp] theorem complete_distTree : s.complete.distTree = s.distTree := rfl
@[simp] theorem complete_blCount : s.complete.blCount = s.blCount := rfl
@[simp] theorem complete_nextCode : s.complete.nextCode = s.nextCode := rfl
@[simp] theorem complete_sym : s.complete.sym = s.sym := rfl
@[simp] theorem complete_dsym : s.complete.dsym = s.dsym := rfl
@[simp] theorem complete_matchLen : s.complete.matchLen = s.matchLen := rfl
@[simp] theorem complete_matchDist : s.complete.matchDist = s.matchDist := rfl
@[simp] theorem complete_copyRemain : s.complete.copyRemain = s.copyRemain := rfl
@[simp] theorem complete_distPending : s.complete.distPending = s.distPending := rfl
@[simp] theorem complete_out : s.complete.out = s.out := rfl
@[simp] theorem complete_outLen : s.complete.outLen = s.outLen := rfl

end

/-! ## `State.withHeader` -/

section
variable (s : State) (f : Bool) (t : BitVec 2)

@[simp] theorem withHeader_src : (s.withHeader f t).src = s.src := rfl
@[simp] theorem withHeader_srcLen : (s.withHeader f t).srcLen = s.srcLen := rfl
@[simp] theorem withHeader_policy : (s.withHeader f t).policy = s.policy := rfl
@[simp] theorem withHeader_outCapacity : (s.withHeader f t).outCapacity = s.outCapacity := rfl
@[simp] theorem withHeader_hostCmds : (s.withHeader f t).hostCmds = s.hostCmds := rfl
@[simp] theorem withHeader_phase : (s.withHeader f t).phase = s.phase := rfl
@[simp] theorem withHeader_errKind : (s.withHeader f t).errKind = s.errKind := rfl
@[simp] theorem withHeader_errCause : (s.withHeader f t).errCause = s.errCause := rfl
@[simp] theorem withHeader_finalPos : (s.withHeader f t).finalPos = s.finalPos := rfl
@[simp] theorem withHeader_byteIdx : (s.withHeader f t).byteIdx = s.byteIdx := rfl
@[simp] theorem withHeader_bitIdx : (s.withHeader f t).bitIdx = s.bitIdx := rfl
@[simp] theorem withHeader_bfinal : (s.withHeader f t).bfinal = wrote f := rfl
@[simp] theorem withHeader_btype : (s.withHeader f t).btype = wrote t := rfl
@[simp] theorem withHeader_len : (s.withHeader f t).len = s.len := rfl
@[simp] theorem withHeader_nlen : (s.withHeader f t).nlen = s.nlen := rfl
@[simp] theorem withHeader_remain : (s.withHeader f t).remain = s.remain := rfl
@[simp] theorem withHeader_hlit : (s.withHeader f t).hlit = s.hlit := rfl
@[simp] theorem withHeader_hdist : (s.withHeader f t).hdist = s.hdist := rfl
@[simp] theorem withHeader_hclen : (s.withHeader f t).hclen = s.hclen := rfl
@[simp] theorem withHeader_cll : (s.withHeader f t).cll = s.cll := rfl
@[simp] theorem withHeader_lengths : (s.withHeader f t).lengths = s.lengths := rfl
@[simp] theorem withHeader_clTree : (s.withHeader f t).clTree = s.clTree := rfl
@[simp] theorem withHeader_litTree : (s.withHeader f t).litTree = s.litTree := rfl
@[simp] theorem withHeader_distTree : (s.withHeader f t).distTree = s.distTree := rfl
@[simp] theorem withHeader_blCount : (s.withHeader f t).blCount = s.blCount := rfl
@[simp] theorem withHeader_nextCode : (s.withHeader f t).nextCode = s.nextCode := rfl
@[simp] theorem withHeader_sym : (s.withHeader f t).sym = s.sym := rfl
@[simp] theorem withHeader_dsym : (s.withHeader f t).dsym = s.dsym := rfl
@[simp] theorem withHeader_matchLen : (s.withHeader f t).matchLen = s.matchLen := rfl
@[simp] theorem withHeader_matchDist : (s.withHeader f t).matchDist = s.matchDist := rfl
@[simp] theorem withHeader_copyRemain : (s.withHeader f t).copyRemain = s.copyRemain := rfl
@[simp] theorem withHeader_distPending : (s.withHeader f t).distPending = s.distPending := rfl
@[simp] theorem withHeader_out : (s.withHeader f t).out = s.out := rfl
@[simp] theorem withHeader_outLen : (s.withHeader f t).outLen = s.outLen := rfl

end

/-! ## `State.withSym` -/

section
variable (s : State) (x : BitVec 9)

@[simp] theorem withSym_src : (s.withSym x).src = s.src := rfl
@[simp] theorem withSym_srcLen : (s.withSym x).srcLen = s.srcLen := rfl
@[simp] theorem withSym_policy : (s.withSym x).policy = s.policy := rfl
@[simp] theorem withSym_outCapacity : (s.withSym x).outCapacity = s.outCapacity := rfl
@[simp] theorem withSym_hostCmds : (s.withSym x).hostCmds = s.hostCmds := rfl
@[simp] theorem withSym_phase : (s.withSym x).phase = s.phase := rfl
@[simp] theorem withSym_errKind : (s.withSym x).errKind = s.errKind := rfl
@[simp] theorem withSym_errCause : (s.withSym x).errCause = s.errCause := rfl
@[simp] theorem withSym_finalPos : (s.withSym x).finalPos = s.finalPos := rfl
@[simp] theorem withSym_byteIdx : (s.withSym x).byteIdx = s.byteIdx := rfl
@[simp] theorem withSym_bitIdx : (s.withSym x).bitIdx = s.bitIdx := rfl
@[simp] theorem withSym_bfinal : (s.withSym x).bfinal = s.bfinal := rfl
@[simp] theorem withSym_btype : (s.withSym x).btype = s.btype := rfl
@[simp] theorem withSym_len : (s.withSym x).len = s.len := rfl
@[simp] theorem withSym_nlen : (s.withSym x).nlen = s.nlen := rfl
@[simp] theorem withSym_remain : (s.withSym x).remain = s.remain := rfl
@[simp] theorem withSym_hlit : (s.withSym x).hlit = s.hlit := rfl
@[simp] theorem withSym_hdist : (s.withSym x).hdist = s.hdist := rfl
@[simp] theorem withSym_hclen : (s.withSym x).hclen = s.hclen := rfl
@[simp] theorem withSym_cll : (s.withSym x).cll = s.cll := rfl
@[simp] theorem withSym_lengths : (s.withSym x).lengths = s.lengths := rfl
@[simp] theorem withSym_clTree : (s.withSym x).clTree = s.clTree := rfl
@[simp] theorem withSym_litTree : (s.withSym x).litTree = s.litTree := rfl
@[simp] theorem withSym_distTree : (s.withSym x).distTree = s.distTree := rfl
@[simp] theorem withSym_blCount : (s.withSym x).blCount = s.blCount := rfl
@[simp] theorem withSym_nextCode : (s.withSym x).nextCode = s.nextCode := rfl
@[simp] theorem withSym_sym : (s.withSym x).sym = wrote x := rfl
@[simp] theorem withSym_dsym : (s.withSym x).dsym = s.dsym := rfl
@[simp] theorem withSym_matchLen : (s.withSym x).matchLen = s.matchLen := rfl
@[simp] theorem withSym_matchDist : (s.withSym x).matchDist = s.matchDist := rfl
@[simp] theorem withSym_copyRemain : (s.withSym x).copyRemain = s.copyRemain := rfl
@[simp] theorem withSym_distPending : (s.withSym x).distPending = s.distPending := rfl
@[simp] theorem withSym_out : (s.withSym x).out = s.out := rfl
@[simp] theorem withSym_outLen : (s.withSym x).outLen = s.outLen := rfl

end

/-! ## `State.withDsym` -/

section
variable (s : State) (d : BitVec 5)

@[simp] theorem withDsym_src : (s.withDsym d).src = s.src := rfl
@[simp] theorem withDsym_srcLen : (s.withDsym d).srcLen = s.srcLen := rfl
@[simp] theorem withDsym_policy : (s.withDsym d).policy = s.policy := rfl
@[simp] theorem withDsym_outCapacity : (s.withDsym d).outCapacity = s.outCapacity := rfl
@[simp] theorem withDsym_hostCmds : (s.withDsym d).hostCmds = s.hostCmds := rfl
@[simp] theorem withDsym_phase : (s.withDsym d).phase = s.phase := rfl
@[simp] theorem withDsym_errKind : (s.withDsym d).errKind = s.errKind := rfl
@[simp] theorem withDsym_errCause : (s.withDsym d).errCause = s.errCause := rfl
@[simp] theorem withDsym_finalPos : (s.withDsym d).finalPos = s.finalPos := rfl
@[simp] theorem withDsym_byteIdx : (s.withDsym d).byteIdx = s.byteIdx := rfl
@[simp] theorem withDsym_bitIdx : (s.withDsym d).bitIdx = s.bitIdx := rfl
@[simp] theorem withDsym_bfinal : (s.withDsym d).bfinal = s.bfinal := rfl
@[simp] theorem withDsym_btype : (s.withDsym d).btype = s.btype := rfl
@[simp] theorem withDsym_len : (s.withDsym d).len = s.len := rfl
@[simp] theorem withDsym_nlen : (s.withDsym d).nlen = s.nlen := rfl
@[simp] theorem withDsym_remain : (s.withDsym d).remain = s.remain := rfl
@[simp] theorem withDsym_hlit : (s.withDsym d).hlit = s.hlit := rfl
@[simp] theorem withDsym_hdist : (s.withDsym d).hdist = s.hdist := rfl
@[simp] theorem withDsym_hclen : (s.withDsym d).hclen = s.hclen := rfl
@[simp] theorem withDsym_cll : (s.withDsym d).cll = s.cll := rfl
@[simp] theorem withDsym_lengths : (s.withDsym d).lengths = s.lengths := rfl
@[simp] theorem withDsym_clTree : (s.withDsym d).clTree = s.clTree := rfl
@[simp] theorem withDsym_litTree : (s.withDsym d).litTree = s.litTree := rfl
@[simp] theorem withDsym_distTree : (s.withDsym d).distTree = s.distTree := rfl
@[simp] theorem withDsym_blCount : (s.withDsym d).blCount = s.blCount := rfl
@[simp] theorem withDsym_nextCode : (s.withDsym d).nextCode = s.nextCode := rfl
@[simp] theorem withDsym_sym : (s.withDsym d).sym = s.sym := rfl
@[simp] theorem withDsym_dsym : (s.withDsym d).dsym = wrote d := rfl
@[simp] theorem withDsym_matchLen : (s.withDsym d).matchLen = s.matchLen := rfl
@[simp] theorem withDsym_matchDist : (s.withDsym d).matchDist = s.matchDist := rfl
@[simp] theorem withDsym_copyRemain : (s.withDsym d).copyRemain = s.copyRemain := rfl
@[simp] theorem withDsym_distPending : (s.withDsym d).distPending = s.distPending := rfl
@[simp] theorem withDsym_out : (s.withDsym d).out = s.out := rfl
@[simp] theorem withDsym_outLen : (s.withDsym d).outLen = s.outLen := rfl

end

/-! ## `State.setup` -/

section
variable (s : State) (bs : List Byte) (p : Policy)

@[simp] theorem setup_src : (s.setup bs p).src = Memory.ofBytes bs := rfl
@[simp] theorem setup_srcLen : (s.setup bs p).srcLen = bs.length := rfl
@[simp] theorem setup_policy : (s.setup bs p).policy = p := rfl
@[simp] theorem setup_outCapacity : (s.setup bs p).outCapacity = s.outCapacity := rfl
@[simp] theorem setup_hostCmds : (s.setup bs p).hostCmds = s.hostCmds := rfl
@[simp] theorem setup_phase : (s.setup bs p).phase = s.phase := rfl
@[simp] theorem setup_errKind : (s.setup bs p).errKind = s.errKind := rfl
@[simp] theorem setup_errCause : (s.setup bs p).errCause = s.errCause := rfl
@[simp] theorem setup_finalPos : (s.setup bs p).finalPos = s.finalPos := rfl
@[simp] theorem setup_byteIdx : (s.setup bs p).byteIdx = s.byteIdx := rfl
@[simp] theorem setup_bitIdx : (s.setup bs p).bitIdx = s.bitIdx := rfl
@[simp] theorem setup_bfinal : (s.setup bs p).bfinal = s.bfinal := rfl
@[simp] theorem setup_btype : (s.setup bs p).btype = s.btype := rfl
@[simp] theorem setup_len : (s.setup bs p).len = s.len := rfl
@[simp] theorem setup_nlen : (s.setup bs p).nlen = s.nlen := rfl
@[simp] theorem setup_remain : (s.setup bs p).remain = s.remain := rfl
@[simp] theorem setup_hlit : (s.setup bs p).hlit = s.hlit := rfl
@[simp] theorem setup_hdist : (s.setup bs p).hdist = s.hdist := rfl
@[simp] theorem setup_hclen : (s.setup bs p).hclen = s.hclen := rfl
@[simp] theorem setup_cll : (s.setup bs p).cll = s.cll := rfl
@[simp] theorem setup_lengths : (s.setup bs p).lengths = s.lengths := rfl
@[simp] theorem setup_clTree : (s.setup bs p).clTree = s.clTree := rfl
@[simp] theorem setup_litTree : (s.setup bs p).litTree = s.litTree := rfl
@[simp] theorem setup_distTree : (s.setup bs p).distTree = s.distTree := rfl
@[simp] theorem setup_blCount : (s.setup bs p).blCount = s.blCount := rfl
@[simp] theorem setup_nextCode : (s.setup bs p).nextCode = s.nextCode := rfl
@[simp] theorem setup_sym : (s.setup bs p).sym = s.sym := rfl
@[simp] theorem setup_dsym : (s.setup bs p).dsym = s.dsym := rfl
@[simp] theorem setup_matchLen : (s.setup bs p).matchLen = s.matchLen := rfl
@[simp] theorem setup_matchDist : (s.setup bs p).matchDist = s.matchDist := rfl
@[simp] theorem setup_copyRemain : (s.setup bs p).copyRemain = s.copyRemain := rfl
@[simp] theorem setup_distPending : (s.setup bs p).distPending = s.distPending := rfl
@[simp] theorem setup_out : (s.setup bs p).out = s.out := rfl
@[simp] theorem setup_outLen : (s.setup bs p).outLen = s.outLen := rfl

end

/-! ## `State.start` -/

section
variable (s : State)

@[simp] theorem start_src : s.start.src = s.src := rfl
@[simp] theorem start_srcLen : s.start.srcLen = s.srcLen := rfl
@[simp] theorem start_policy : s.start.policy = s.policy := rfl
@[simp] theorem start_outCapacity : s.start.outCapacity = s.outCapacity := rfl
@[simp] theorem start_hostCmds : s.start.hostCmds = s.hostCmds := rfl
@[simp] theorem start_phase : s.start.phase = .blockHeader := rfl
@[simp] theorem start_errKind : s.start.errKind = .none := rfl
@[simp] theorem start_errCause : s.start.errCause = .none := rfl
@[simp] theorem start_finalPos : s.start.finalPos = s.finalPos := rfl
@[simp] theorem start_byteIdx : s.start.byteIdx = 0 := rfl
@[simp] theorem start_bitIdx : s.start.bitIdx = 0 := rfl
@[simp] theorem start_bfinal : s.start.bfinal = forgetReg s.bfinal := rfl
@[simp] theorem start_btype : s.start.btype = forgetReg s.btype := rfl
@[simp] theorem start_len : s.start.len = forgetReg s.len := rfl
@[simp] theorem start_nlen : s.start.nlen = forgetReg s.nlen := rfl
@[simp] theorem start_remain : s.start.remain = forgetReg s.remain := rfl
@[simp] theorem start_hlit : s.start.hlit = forgetReg s.hlit := rfl
@[simp] theorem start_hdist : s.start.hdist = forgetReg s.hdist := rfl
@[simp] theorem start_hclen : s.start.hclen = forgetReg s.hclen := rfl
@[simp] theorem start_cll : s.start.cll = forgetReg s.cll := rfl
@[simp] theorem start_lengths : s.start.lengths = forgetReg s.lengths := rfl
@[simp] theorem start_clTree : s.start.clTree = forgetReg s.clTree := rfl
@[simp] theorem start_litTree : s.start.litTree = forgetReg s.litTree := rfl
@[simp] theorem start_distTree : s.start.distTree = forgetReg s.distTree := rfl
@[simp] theorem start_blCount : s.start.blCount = forgetReg s.blCount := rfl
@[simp] theorem start_nextCode : s.start.nextCode = forgetReg s.nextCode := rfl
@[simp] theorem start_sym : s.start.sym = forgetReg s.sym := rfl
@[simp] theorem start_dsym : s.start.dsym = forgetReg s.dsym := rfl
@[simp] theorem start_matchLen : s.start.matchLen = forgetReg s.matchLen := rfl
@[simp] theorem start_matchDist : s.start.matchDist = forgetReg s.matchDist := rfl
@[simp] theorem start_copyRemain : s.start.copyRemain = forgetReg s.copyRemain := rfl
@[simp] theorem start_distPending : s.start.distPending = false := rfl
@[simp] theorem start_out : s.start.out = [] := rfl
@[simp] theorem start_outLen : s.start.outLen = 0 := rfl

end

/-! ## `State.powerOn` -/

section
variable (s : State)

@[simp] theorem powerOn_src : s.powerOn.src = s.src := rfl
@[simp] theorem powerOn_srcLen : s.powerOn.srcLen = s.srcLen := rfl
@[simp] theorem powerOn_policy : s.powerOn.policy = s.policy := rfl
@[simp] theorem powerOn_outCapacity : s.powerOn.outCapacity = s.outCapacity := rfl
@[simp] theorem powerOn_hostCmds : s.powerOn.hostCmds = s.hostCmds := rfl
@[simp] theorem powerOn_phase : s.powerOn.phase = State.reset.phase := rfl
@[simp] theorem powerOn_errKind : s.powerOn.errKind = State.reset.errKind := rfl
@[simp] theorem powerOn_errCause : s.powerOn.errCause = State.reset.errCause := rfl
@[simp] theorem powerOn_finalPos : s.powerOn.finalPos = State.reset.finalPos := rfl
@[simp] theorem powerOn_byteIdx : s.powerOn.byteIdx = State.reset.byteIdx := rfl
@[simp] theorem powerOn_bitIdx : s.powerOn.bitIdx = State.reset.bitIdx := rfl
@[simp] theorem powerOn_bfinal : s.powerOn.bfinal = State.reset.bfinal := rfl
@[simp] theorem powerOn_btype : s.powerOn.btype = State.reset.btype := rfl
@[simp] theorem powerOn_len : s.powerOn.len = State.reset.len := rfl
@[simp] theorem powerOn_nlen : s.powerOn.nlen = State.reset.nlen := rfl
@[simp] theorem powerOn_remain : s.powerOn.remain = State.reset.remain := rfl
@[simp] theorem powerOn_hlit : s.powerOn.hlit = State.reset.hlit := rfl
@[simp] theorem powerOn_hdist : s.powerOn.hdist = State.reset.hdist := rfl
@[simp] theorem powerOn_hclen : s.powerOn.hclen = State.reset.hclen := rfl
@[simp] theorem powerOn_cll : s.powerOn.cll = State.reset.cll := rfl
@[simp] theorem powerOn_lengths : s.powerOn.lengths = State.reset.lengths := rfl
@[simp] theorem powerOn_clTree : s.powerOn.clTree = State.reset.clTree := rfl
@[simp] theorem powerOn_litTree : s.powerOn.litTree = State.reset.litTree := rfl
@[simp] theorem powerOn_distTree : s.powerOn.distTree = State.reset.distTree := rfl
@[simp] theorem powerOn_blCount : s.powerOn.blCount = State.reset.blCount := rfl
@[simp] theorem powerOn_nextCode : s.powerOn.nextCode = State.reset.nextCode := rfl
@[simp] theorem powerOn_sym : s.powerOn.sym = State.reset.sym := rfl
@[simp] theorem powerOn_dsym : s.powerOn.dsym = State.reset.dsym := rfl
@[simp] theorem powerOn_matchLen : s.powerOn.matchLen = State.reset.matchLen := rfl
@[simp] theorem powerOn_matchDist : s.powerOn.matchDist = State.reset.matchDist := rfl
@[simp] theorem powerOn_copyRemain : s.powerOn.copyRemain = State.reset.copyRemain := rfl
@[simp] theorem powerOn_distPending : s.powerOn.distPending = State.reset.distPending := rfl
@[simp] theorem powerOn_out : s.powerOn.out = State.reset.out := rfl
@[simp] theorem powerOn_outLen : s.powerOn.outLen = State.reset.outLen := rfl

end

/-! ## `State.append` -/

section
variable (s : State) (bs : List Byte)

@[simp] theorem append_src : (s.append bs).src = s.src := rfl
@[simp] theorem append_srcLen : (s.append bs).srcLen = s.srcLen := rfl
@[simp] theorem append_policy : (s.append bs).policy = s.policy := rfl
@[simp] theorem append_outCapacity : (s.append bs).outCapacity = s.outCapacity := rfl
@[simp] theorem append_hostCmds : (s.append bs).hostCmds = s.hostCmds := rfl
@[simp] theorem append_phase : (s.append bs).phase = s.phase := rfl
@[simp] theorem append_errKind : (s.append bs).errKind = s.errKind := rfl
@[simp] theorem append_errCause : (s.append bs).errCause = s.errCause := rfl
@[simp] theorem append_finalPos : (s.append bs).finalPos = s.finalPos := rfl
@[simp] theorem append_byteIdx : (s.append bs).byteIdx = s.byteIdx := rfl
@[simp] theorem append_bitIdx : (s.append bs).bitIdx = s.bitIdx := rfl
@[simp] theorem append_bfinal : (s.append bs).bfinal = s.bfinal := rfl
@[simp] theorem append_btype : (s.append bs).btype = s.btype := rfl
@[simp] theorem append_len : (s.append bs).len = s.len := rfl
@[simp] theorem append_nlen : (s.append bs).nlen = s.nlen := rfl
@[simp] theorem append_remain : (s.append bs).remain = s.remain := rfl
@[simp] theorem append_hlit : (s.append bs).hlit = s.hlit := rfl
@[simp] theorem append_hdist : (s.append bs).hdist = s.hdist := rfl
@[simp] theorem append_hclen : (s.append bs).hclen = s.hclen := rfl
@[simp] theorem append_cll : (s.append bs).cll = s.cll := rfl
@[simp] theorem append_lengths : (s.append bs).lengths = s.lengths := rfl
@[simp] theorem append_clTree : (s.append bs).clTree = s.clTree := rfl
@[simp] theorem append_litTree : (s.append bs).litTree = s.litTree := rfl
@[simp] theorem append_distTree : (s.append bs).distTree = s.distTree := rfl
@[simp] theorem append_blCount : (s.append bs).blCount = s.blCount := rfl
@[simp] theorem append_nextCode : (s.append bs).nextCode = s.nextCode := rfl
@[simp] theorem append_sym : (s.append bs).sym = s.sym := rfl
@[simp] theorem append_dsym : (s.append bs).dsym = s.dsym := rfl
@[simp] theorem append_matchLen : (s.append bs).matchLen = s.matchLen := rfl
@[simp] theorem append_matchDist : (s.append bs).matchDist = s.matchDist := rfl
@[simp] theorem append_copyRemain : (s.append bs).copyRemain = s.copyRemain := rfl
@[simp] theorem append_distPending : (s.append bs).distPending = s.distPending := rfl
@[simp] theorem append_out : (s.append bs).out = Memory.writeBytes s.out s.outLen bs := rfl
@[simp] theorem append_outLen : (s.append bs).outLen = s.outLen + bs.length := rfl

end

end Sys2Proof.Machine
end

