-- ==== Sys2Proof/Laws/Cursor.lean ====
section
/-! SUPPORT. What the operations of the bit cursor do, said once in terms of the cursor as a number of bits: a read that
fits takes the bits at the cursor and moves it, and a read that does not fit overruns `SRC`. -/

namespace Sys2Proof.Machine

/-! ## The cursor as a number -/

@[simp] theorem pos_moveTo (s : State) (p : Nat) : (s.moveTo p).pos = p := by
  simp only [State.pos, moveTo_byteIdx, moveTo_bitIdx, BitVec.toNat_ofNat]
  omega

/-- The cursor's number depends on its two registers alone. -/
theorem pos_congr {s t : State} (h1 : t.byteIdx = s.byteIdx) (h2 : t.bitIdx = s.bitIdx) : t.pos = s.pos := by
  rw [State.pos, State.pos, h1, h2]

@[simp] theorem moveTo_moveTo (s : State) (p q : Nat) : (s.moveTo p).moveTo q = s.moveTo q := rfl

theorem byteIdx_eq (s : State) : s.byteIdx = s.pos / 8 := by
  have := s.bitIdx.isLt
  simp only [State.pos]
  omega

theorem bitIdx_toNat (s : State) : s.bitIdx.toNat = s.pos % 8 := by
  have := s.bitIdx.isLt
  simp only [State.pos]
  omega

@[simp] theorem moveTo_pos (s : State) : s.moveTo s.pos = s := by
  have h : BitVec.ofNat 3 (s.pos % 8) = s.bitIdx := by
    apply BitVec.eq_of_toNat_eq
    have := s.bitIdx.isLt
    rw [BitVec.toNat_ofNat, bitIdx_toNat]
    omega
  simp only [State.moveTo, ← byteIdx_eq, h]

theorem stepBit_eq (s : State) : s.stepBit = s.moveTo (s.pos + 1) := by
  have hb := s.bitIdx.isLt
  have e7 : s.bitIdx = 7 ↔ s.bitIdx.toNat = 7 := by
    constructor
    · intro h
      rw [h]
      rfl
    · intro h
      exact BitVec.eq_of_toNat_eq h
  simp only [State.stepBit, State.moveTo]
  split
  · rename_i h
    have h := e7.mp h
    have h1 : (s.pos + 1) / 8 = s.byteIdx + 1 := by
      simp only [State.pos]
      omega
    have h2 : (s.pos + 1) % 8 = 0 := by
      simp only [State.pos]
      omega
    rw [h1, h2]
    rfl
  · rename_i h
    have h : ¬ s.bitIdx.toNat = 7 := fun h' => h (e7.mpr h')
    have h1 : (s.pos + 1) / 8 = s.byteIdx := by
      simp only [State.pos]
      omega
    have h2 : BitVec.ofNat 3 ((s.pos + 1) % 8) = s.bitIdx + 1 := by
      apply BitVec.eq_of_toNat_eq
      rw [BitVec.toNat_ofNat, BitVec.toNat_add]
      simp only [State.pos]
      have : (1 : BitVec 3).toNat = 1 := rfl
      omega
    rw [h1, h2]

@[simp] theorem streamBit_moveTo (s : State) (p q : Nat) : (s.moveTo p).streamBit q = s.streamBit q := rfl
@[simp] theorem bitsAt_moveTo (s : State) (p q n : Nat) : (s.moveTo p).bitsAt q n = s.bitsAt q n := rfl
@[simp] theorem field_moveTo (s : State) (p q n : Nat) : (s.moveTo p).field q n = s.field q n := rfl

/-- The stream's bits depend on `SRC` alone. -/
theorem field_congr {s t : State} (h : t.src = s.src) (p n : Nat) : t.field p n = s.field p n := by
  simp only [State.field, State.bitsAt, State.streamBit, h]

@[simp] theorem length_bitsAt (s : State) (p n : Nat) : (s.bitsAt p n).length = n := by simp [State.bitsAt]

theorem bitsAt_succ (s : State) (p n : Nat) : s.bitsAt p (n + 1) = s.streamBit p :: s.bitsAt (p + 1) n := by
  simp only [State.bitsAt, List.range_succ_eq_map, List.map_cons, List.map_map, Nat.add_zero]
  congr 1
  apply List.map_congr_left
  intro i _
  simp only [Function.comp]
  congr 1
  omega

theorem bitsAt_add (s : State) (p m n : Nat) : s.bitsAt p (m + n) = s.bitsAt p m ++ s.bitsAt (p + m) n := by
  induction m generalizing p with
  | zero => simp [State.bitsAt]
  | succ m ih =>
    rw [Nat.succ_add, bitsAt_succ, bitsAt_succ, ih (p + 1), List.cons_append]
    congr 3
    omega

@[simp] theorem field_zero (s : State) (p : Nat) : s.field p 0 = 0 := rfl

theorem field_succ (s : State) (p n : Nat) :
    s.field p (n + 1) = bitNat (s.streamBit p) + 2 * s.field (p + 1) n := by
  simp only [State.field, bitsAt_succ, natOfBitsLsb]

theorem bitNat_lt (b : Bool) : bitNat b < 2 := by cases b <;> decide

theorem natOfBitsLsb_lt (bs : List Bool) : natOfBitsLsb bs < 2 ^ bs.length := by
  induction bs with
  | nil => decide
  | cons b bs ih =>
    have := bitNat_lt b
    simp only [natOfBitsLsb, List.length_cons, Nat.pow_succ]
    omega

theorem natOfBitsLsb_append (as bs : List Bool) :
    natOfBitsLsb (as ++ bs) = natOfBitsLsb as + 2 ^ as.length * natOfBitsLsb bs := by
  induction as with
  | nil => simp [natOfBitsLsb]
  | cons a as ih =>
    simp only [List.cons_append, natOfBitsLsb, ih, List.length_cons, Nat.pow_succ]
    ring

/-- An `n`-bit field is below 2^n. -/
theorem field_lt (s : State) (p n : Nat) : s.field p n < 2 ^ n := by
  have := natOfBitsLsb_lt (s.bitsAt p n)
  rwa [length_bitsAt] at this

theorem field_add (s : State) (p m n : Nat) :
    s.field p (m + n) = s.field p m + 2 ^ m * s.field (p + m) n := by
  simp only [State.field, bitsAt_add, natOfBitsLsb_append, length_bitsAt]

/-! ## Room in the source -/

theorem hasBits_mono {s : State} {m n : Nat} (h : s.hasBits n) (hmn : m ≤ n) : s.hasBits m := by
  simp only [State.hasBits] at h ⊢
  omega

theorem hasBits_moveTo {s : State} {m n : Nat} (h : s.hasBits (m + n)) : (s.moveTo (s.pos + m)).hasBits n := by
  simp only [State.hasBits, pos_moveTo, moveTo_srcLen] at h ⊢
  omega

theorem hasBits_one (s : State) : s.hasBits 1 ↔ s.byteIdx < s.srcLen := by
  have := s.bitIdx.isLt
  simp only [State.hasBits, State.pos]
  omega

theorem atEnd_of_not_hasBits_one {s : State} (h : ¬ s.hasBits 1) : s.atEnd = s := by
  have : max s.pos (8 * s.srcLen) = s.pos := by
    simp only [State.hasBits] at h
    omega
  rw [State.atEnd, this, moveTo_pos]

@[simp] theorem atEnd_moveTo (s : State) (p : Nat) (h : p ≤ 8 * s.srcLen) (hp : s.pos ≤ 8 * s.srcLen) :
    (s.moveTo p).atEnd = s.atEnd := by
  simp only [State.atEnd, pos_moveTo, moveTo_srcLen, moveTo_moveTo]
  congr 1
  omega

/-! ## Raising and overrunning -/

@[simp] theorem bind_ok {α β : Type} (a : α) (s : State) (f : α → State → Res β) : (Res.ok a s).bind f = f a s := rfl
@[simp] theorem bind_raise {α β : Type} (k : ErrKind) (c : ErrCause) (s : State) (f : α → State → Res β) :
    (Res.raise k c s).bind f = .raise k c s := rfl
@[simp] theorem bind_fault {α β : Type} (x : Fault) (f : α → State → Res β) : (Res.fault x).bind f = .fault x := rfl

@[simp] theorem outcome_ok (u : Unit) (s : State) : (Res.ok u s).outcome = .next s := rfl
@[simp] theorem outcome_raise (k : ErrKind) (c : ErrCause) (s : State) :
    (Res.raise k c s : Res Unit).outcome = .next (s.abort k c) := rfl
@[simp] theorem outcome_fault (x : Fault) : (Res.fault x : Res Unit).outcome = .fault x := rfl

theorem bind_sourceOverrun {α β : Type} (s : State) (f : α → State → Res β) :
    (sourceOverrun s : Res α).bind f = sourceOverrun s := by
  simp only [sourceOverrun]
  cases s.policy <;> rfl

/-- An operation that overruns `SRC` at its end: the outcome of the whole element. -/
theorem outcome_sourceOverrun_atEnd (s : State) : (sourceOverrun s.atEnd : Res Unit).outcome = s.overrun := by
  simp only [sourceOverrun, State.overrun, State.atEnd, moveTo_policy]
  cases s.policy <;> rfl

/-! ## The cursor operations -/

theorem nextBit_eq {s : State} (h : s.hasBits 1) :
    nextBit s = .ok (s.streamBit s.pos) (s.moveTo (s.pos + 1)) := by
  rw [hasBits_one] at h
  simp only [nextBit, if_neg (Nat.not_le.mpr h), stepBit_eq, State.streamBit, ← byteIdx_eq, ← bitIdx_toNat]

theorem nextBit_short {s : State} (h : ¬ s.hasBits 1) : nextBit s = sourceOverrun s.atEnd := by
  rw [atEnd_of_not_hasBits_one h]
  rw [hasBits_one] at h
  simp only [nextBit, if_pos (Nat.not_lt.mp h)]

theorem readBits_eq {s : State} (n : Nat) (h : s.hasBits n) :
    readBits n s = .ok (s.field s.pos n) (s.moveTo (s.pos + n)) := by
  induction n generalizing s with
  | zero => simp [readBits]
  | succ n ih =>
    have h1 : (s.moveTo (s.pos + 1)).hasBits n := hasBits_moveTo (by rwa [Nat.add_comm])
    rw [readBits, nextBit_eq (hasBits_mono h (by omega)), bind_ok, ih h1, bind_ok, field_succ]
    simp only [pos_moveTo, field_moveTo, moveTo_moveTo]
    congr 2
    omega

theorem readBits_short {s : State} (n : Nat) (h0 : s.hasBits 0) (h : ¬ s.hasBits n) :
    readBits n s = sourceOverrun s.atEnd := by
  induction n generalizing s with
  | zero => exact absurd h0 h
  | succ n ih =>
    by_cases h1 : s.hasBits 1
    · have h0' : (s.moveTo (s.pos + 1)).hasBits 0 := hasBits_moveTo h1
      have h' : ¬ (s.moveTo (s.pos + 1)).hasBits n := by
        simp only [State.hasBits, pos_moveTo, moveTo_srcLen] at h ⊢
        omega
      rw [readBits, nextBit_eq h1, bind_ok, ih h0' h', bind_sourceOverrun, atEnd_moveTo _ _ h1]
      exact h0
    · rw [readBits, nextBit_short h1, bind_sourceOverrun]

theorem readBitsReversedFrom_eq {s : State} (v n : Nat) (h : s.hasBits n) :
    readBitsReversedFrom v n s =
      .ok (natOfBitsLsb (s.bitsAt s.pos n).reverse + 2 ^ n * v) (s.moveTo (s.pos + n)) := by
  induction n generalizing s v with
  | zero => simp [readBitsReversedFrom, State.bitsAt, natOfBitsLsb]
  | succ n ih =>
    have h1 : (s.moveTo (s.pos + 1)).hasBits n := hasBits_moveTo (by rwa [Nat.add_comm])
    rw [readBitsReversedFrom, nextBit_eq (hasBits_mono h (by omega)), bind_ok, ih _ h1, bitsAt_succ]
    simp only [pos_moveTo, bitsAt_moveTo, moveTo_moveTo, List.reverse_cons, natOfBitsLsb_append, natOfBitsLsb,
      List.length_reverse, length_bitsAt]
    congr 1
    · ring
    · congr 1
      omega

theorem readBitsReversedFrom_short {s : State} (v n : Nat) (h0 : s.hasBits 0) (h : ¬ s.hasBits n) :
    readBitsReversedFrom v n s = sourceOverrun s.atEnd := by
  induction n generalizing s v with
  | zero => exact absurd h0 h
  | succ n ih =>
    by_cases h1 : s.hasBits 1
    · have h0' : (s.moveTo (s.pos + 1)).hasBits 0 := hasBits_moveTo h1
      have h' : ¬ (s.moveTo (s.pos + 1)).hasBits n := by
        simp only [State.hasBits, pos_moveTo, moveTo_srcLen] at h ⊢
        omega
      rw [readBitsReversedFrom, nextBit_eq h1, bind_ok, ih _ h0' h', atEnd_moveTo _ _ h1 h0]
    · rw [readBitsReversedFrom, nextBit_short h1, bind_sourceOverrun]

theorem readBitsReversed_eq {s : State} (n : Nat) (h : s.hasBits n) :
    readBitsReversed n s = .ok (natOfBitsLsb (s.bitsAt s.pos n).reverse) (s.moveTo (s.pos + n)) := by
  rw [readBitsReversed, readBitsReversedFrom_eq 0 n h, Nat.mul_zero, Nat.add_zero]

theorem readBitsReversed_short {s : State} (n : Nat) (h0 : s.hasBits 0) (h : ¬ s.hasBits n) :
    readBitsReversed n s = sourceOverrun s.atEnd := readBitsReversedFrom_short 0 n h0 h

theorem bitIdx_eq_zero (s : State) : s.bitIdx = 0 ↔ s.pos % 8 = 0 := by
  rw [← bitIdx_toNat]
  constructor
  · intro h
    rw [h]
    rfl
  · intro h
    exact BitVec.eq_of_toNat_eq h

theorem alignToByte_eq (s : State) : alignToByte s = s.moveTo s.alignedPos := by
  simp only [alignToByte]
  split
  · rename_i h
    rw [bitIdx_eq_zero] at h
    have : s.alignedPos = s.pos := by
      simp only [State.alignedPos]
      omega
    rw [this, moveTo_pos]
  · rename_i h
    rw [bitIdx_eq_zero] at h
    have h1 : s.alignedPos / 8 = s.byteIdx + 1 := by
      rw [byteIdx_eq]
      simp only [State.alignedPos]
      omega
    have h2 : s.alignedPos % 8 = 0 := by
      simp only [State.alignedPos]
      omega
    simp only [State.moveTo, h1, h2]
    rfl

theorem streamBit_aligned (s : State) (p i : Nat) (h : p % 8 = 0) (hi : i < 8) :
    s.streamBit (p + i) = (Memory.read s.src (p / 8)).getLsbD i := by
  have h1 : (p + i) / 8 = p / 8 := by omega
  have h2 : (p + i) % 8 = i := by omega
  simp only [State.streamBit, h1, h2]

/-- A byte is its eight bits, the least significant first (20_memory.md R205, R206). -/
theorem natOfBits_byte (b : Byte) : natOfBitsLsb ((List.range 8).map fun i => b.getLsbD i) = b.toNat := by
  revert b
  decide +kernel

/-- The 8-bit field at a byte boundary is the byte there. -/
theorem field_byte (s : State) (p : Nat) (h : p % 8 = 0) : s.field p 8 = (Memory.read s.src (p / 8)).toNat := by
  rw [← natOfBits_byte, State.field, State.bitsAt]
  congr 1
  apply List.map_congr_left
  intro i hi
  exact streamBit_aligned s p i h (List.mem_range.mp hi)

theorem readByte_eq {s : State} (h0 : s.pos % 8 = 0) (h : s.hasBits 8) :
    readByte s = .ok (Memory.read s.src (s.pos / 8)) (s.moveTo (s.pos + 8)) := by
  have hb : s.bitIdx = 0 := (bitIdx_eq_zero s).mpr h0
  have hl : ¬ s.srcLen ≤ s.byteIdx := by
    have := byteIdx_eq s
    simp only [State.hasBits] at h
    omega
  have h1 : (s.pos + 8) / 8 = s.byteIdx + 1 := by
    rw [byteIdx_eq]
    omega
  have h2 : BitVec.ofNat 3 ((s.pos + 8) % 8) = s.bitIdx := by
    rw [hb]
    have : (s.pos + 8) % 8 = 0 := by omega
    rw [this]
    rfl
  simp only [readByte, hb, ne_eq, not_true_eq_false, if_false, if_neg hl, State.moveTo, h1, ← byteIdx_eq]
  rw [h2, hb]

theorem readByte_short {s : State} (h0 : s.pos % 8 = 0) (h : ¬ s.hasBits 8) :
    readByte s = sourceOverrun s.atEnd := by
  have hb : s.bitIdx = 0 := (bitIdx_eq_zero s).mpr h0
  have hp : s.pos = 8 * s.byteIdx := by
    rw [byteIdx_eq]
    omega
  have h1 : ¬ s.hasBits 1 := by
    simp only [State.hasBits] at h ⊢
    omega
  have hl : s.srcLen ≤ s.byteIdx := by
    rw [hasBits_one] at h1
    omega
  simp only [readByte, hb, ne_eq, not_true_eq_false, if_false, if_pos hl, atEnd_of_not_hasBits_one h1]

/-! ## Operands (30_encoding.md R308) -/

theorem readBasePlus_eq {s : State} (base n : Nat) (h : s.hasBits n) :
    readBasePlus base n s = .ok (base + s.field s.pos n) (s.moveTo (s.pos + n)) := by
  rw [readBasePlus, readBits_eq n h, bind_ok]

theorem readBasePlus_short {s : State} (base n : Nat) (h0 : s.hasBits 0) (h : ¬ s.hasBits n) :
    readBasePlus base n s = sourceOverrun s.atEnd := by
  rw [readBasePlus, readBits_short n h0 h, bind_sourceOverrun]

/-- Two bytes, the low one first, as a number. -/
theorem toNat_append_byte (hi lo : Byte) : (hi ++ lo).toNat = lo.toNat + 256 * hi.toNat := by
  rw [BitVec.toNat_append, ← Nat.shiftLeft_add_eq_or_of_lt lo.isLt, Nat.shiftLeft_eq]
  omega

/-- The 16-bit field at a byte boundary is two bytes, the low one first (20_memory.md R208). -/
theorem field_le16 (s : State) (p : Nat) (h : p % 8 = 0) :
    s.field p 16 = (Memory.read s.src ((p + 8) / 8) ++ Memory.read s.src (p / 8)).toNat := by
  have h3 : (p + 8) % 8 = 0 := by omega
  rw [toNat_append_byte, ← field_byte s p h, ← field_byte s (p + 8) h3]
  exact field_add s p 8 8

/-- A 16-bit field of a stored block is the 16-bit field of the stream there (20_memory.md R208). -/
theorem readLe16_eq {s : State} (h0 : s.pos % 8 = 0) (h : s.hasBits 16) :
    readLe16 s = .ok (BitVec.ofNat 16 (s.field s.pos 16)) (s.moveTo (s.pos + 16)) := by
  have h1 : (s.moveTo (s.pos + 8)).hasBits 8 := hasBits_moveTo h
  have h2 : (s.moveTo (s.pos + 8)).pos % 8 = 0 := by
    rw [pos_moveTo]
    omega
  rw [readLe16, readByte_eq h0 (hasBits_mono h (by omega)), bind_ok, readByte_eq h2 h1, bind_ok, field_le16 s _ h0,
    BitVec.ofNat_toNat, BitVec.setWidth_eq, pos_moveTo, moveTo_src, moveTo_moveTo, Nat.add_assoc]

theorem readLe16_short {s : State} (h0 : s.pos % 8 = 0) (hs : s.hasBits 0) (h : ¬ s.hasBits 16) :
    readLe16 s = sourceOverrun s.atEnd := by
  by_cases h8 : s.hasBits 8
  · have h1 : ¬ (s.moveTo (s.pos + 8)).hasBits 8 := by
      simp only [State.hasBits, pos_moveTo, moveTo_srcLen] at h ⊢
      omega
    have h2 : (s.moveTo (s.pos + 8)).pos % 8 = 0 := by
      rw [pos_moveTo]
      omega
    rw [readLe16, readByte_eq h0 h8, bind_ok, readByte_short h2 h1, bind_sourceOverrun, atEnd_moveTo _ _ h8 hs]
  · rw [readLe16, readByte_short h0 h8, bind_sourceOverrun]

end Sys2Proof.Machine
end

