-- ==== Sys2Proof/Laws/Memory.lean ====
section
/-! SUPPORT. The laws of a byte space: reads after writes, and the canonical form that every operation keeps. -/

namespace Sys2Proof.Machine

/-- A write leaves every other address alone, in any list of cells. -/
theorem read_write_other (m : Memory) (a x : Nat) (b : Byte) (h : x ≠ a) :
    Memory.read (Memory.write m a b) x = Memory.read m x := by
  induction m with
  | nil =>
    simp only [Memory.write]
    split <;> simp [Memory.read, Ne.symm h]
  | cons c m ih =>
    obtain ⟨y, v⟩ := c
    simp only [Memory.write]
    split
    · split <;> simp [Memory.read, Ne.symm h]
    · split
      · rename_i hlt heq
        subst heq
        split <;> simp [Memory.read, Ne.symm h]
      · simp [Memory.read, ih]

/-- Below its first possible address a canonical list of cells holds nothing. -/
theorem read_below (m : Memory) (lo a : Nat) (h : Memory.wfFrom lo m = true) (ha : a < lo) :
    Memory.read m a = 0 := by
  induction m generalizing lo with
  | nil => rfl
  | cons c m ih =>
    obtain ⟨y, v⟩ := c
    simp only [Memory.wfFrom, Bool.and_eq_true, decide_eq_true_eq] at h
    rw [Memory.read, if_neg (by omega)]
    exact ih (y + 1) h.2 (by omega)

theorem wfFrom_mono (m : Memory) (lo lo' : Nat) (h : Memory.wfFrom lo m = true) (hl : lo' ≤ lo) :
    Memory.wfFrom lo' m = true := by
  cases m with
  | nil => rfl
  | cons c m =>
    obtain ⟨y, v⟩ := c
    simp only [Memory.wfFrom, Bool.and_eq_true, decide_eq_true_eq] at h ⊢
    exact ⟨⟨by omega, h.1.2⟩, h.2⟩

/-- A read of the address just written gives the byte written. -/
theorem read_write_same (m : Memory) (lo a : Nat) (b : Byte) (h : Memory.wfFrom lo m = true) :
    Memory.read (Memory.write m a b) a = b := by
  induction m generalizing lo with
  | nil =>
    simp only [Memory.write]
    split
    · rename_i hb
      rw [hb, Memory.read]
    · simp [Memory.read]
  | cons c m ih =>
    obtain ⟨y, v⟩ := c
    have hw := h
    simp only [Memory.wfFrom, Bool.and_eq_true, decide_eq_true_eq] at h
    simp only [Memory.write]
    split
    · rename_i hlt
      split
      · rename_i hb
        rw [Memory.read, if_neg (by omega), hb]
        exact read_below m (y + 1) a h.2 (by omega)
      · simp [Memory.read]
    · split
      · rename_i hlt heq
        subst heq
        split
        · rename_i hb
          rw [hb]
          exact read_below m (a + 1) a h.2 (by omega)
        · simp [Memory.read]
      · rename_i hlt hne
        rw [Memory.read, if_neg (by omega)]
        exact ih (y + 1) h.2

/-- A write keeps the canonical form. -/
theorem write_wfFrom (m : Memory) (lo a : Nat) (b : Byte) (h : Memory.wfFrom lo m = true) (ha : lo ≤ a) :
    Memory.wfFrom lo (Memory.write m a b) = true := by
  induction m generalizing lo with
  | nil =>
    simp only [Memory.write]
    split
    · rfl
    · rename_i hb
      simp only [Memory.wfFrom, Bool.and_eq_true, decide_eq_true_eq]
      exact ⟨⟨ha, hb⟩, trivial⟩
  | cons c m ih =>
    obtain ⟨y, v⟩ := c
    have hw := h
    simp only [Memory.wfFrom, Bool.and_eq_true, decide_eq_true_eq] at h
    simp only [Memory.write]
    split
    · split
      · exact hw
      · rename_i hlt hb
        simp only [Memory.wfFrom, Bool.and_eq_true, decide_eq_true_eq]
        exact ⟨⟨ha, hb⟩, ⟨by omega, h.1.2⟩, h.2⟩
    · split
      · rename_i hlt heq
        subst heq
        split
        · exact wfFrom_mono m (a + 1) lo h.2 (by omega)
        · rename_i hb
          simp only [Memory.wfFrom, Bool.and_eq_true, decide_eq_true_eq]
          exact ⟨⟨ha, hb⟩, h.2⟩
      · rename_i hlt hne
        simp only [Memory.wfFrom, Bool.and_eq_true, decide_eq_true_eq]
        exact ⟨h.1, ih (y + 1) h.2 (by omega)⟩

theorem read_write (m : Memory) (a x : Nat) (b : Byte) (h : Memory.wf m = true) :
    Memory.read (Memory.write m a b) x = if x = a then b else Memory.read m x := by
  split
  · rename_i hx
    rw [hx, read_write_same m 0 a b h]
  · rename_i hx
    exact read_write_other m a x b hx

theorem write_wf (m : Memory) (a : Nat) (b : Byte) (h : Memory.wf m = true) : Memory.wf (Memory.write m a b) = true :=
  write_wfFrom m 0 a b h (Nat.zero_le a)

theorem ofBytesAt_wfFrom (bs : List Byte) (a : Nat) : Memory.wfFrom a (Memory.ofBytesAt a bs) = true := by
  induction bs generalizing a with
  | nil => rfl
  | cons b bs ih =>
    simp only [Memory.ofBytesAt]
    split
    · exact wfFrom_mono _ (a + 1) a (ih (a + 1)) (by omega)
    · rename_i hb
      simp only [Memory.wfFrom, Bool.and_eq_true, decide_eq_true_eq]
      exact ⟨⟨Nat.le_refl a, hb⟩, ih (a + 1)⟩

/-- A byte space laid out from a list of bytes is in canonical form. -/
theorem ofBytes_wf (bs : List Byte) : Memory.wf (Memory.ofBytes bs) = true := ofBytesAt_wfFrom bs 0

theorem read_ofBytesAt (bs : List Byte) (a i : Nat) :
    Memory.read (Memory.ofBytesAt a bs) (a + i) = bs.getD i 0 := by
  induction bs generalizing a i with
  | nil => simp [Memory.ofBytesAt, Memory.read]
  | cons b bs ih =>
    simp only [Memory.ofBytesAt]
    cases i with
    | zero =>
      split
      · rename_i hb
        simpa [hb] using read_below _ (a + 1) a (ofBytesAt_wfFrom bs (a + 1)) (by omega)
      · simp [Memory.read]
    | succ i =>
      have := ih (a + 1) i
      rw [show a + 1 + i = a + (i + 1) by omega] at this
      split
      · simpa using this
      · rw [Memory.read, if_neg (by omega)]
        simpa using this

/-- Byte `i` of a byte space laid out from a list is the list's entry `i`, and 0 past its end. -/
theorem read_ofBytes (bs : List Byte) (i : Nat) : Memory.read (Memory.ofBytes bs) i = bs.getD i 0 := by
  simpa [Memory.ofBytes] using read_ofBytesAt bs 0 i

end Sys2Proof.Machine
end

