-- ==== Sys2Proof/Laws/Output.lean ====
section
/-! SUPPORT. What the output operations do: appending, reading back, and the two copy loops, each with every way it can
end. -/

namespace Sys2Proof.Machine

/-! ## Writing a list of bytes -/

theorem writeBytes_append (m : Memory) (a : Nat) (bs cs : List Byte) :
    Memory.writeBytes m a (bs ++ cs) = Memory.writeBytes (Memory.writeBytes m a bs) (a + bs.length) cs := by
  induction bs generalizing m a with
  | nil => rfl
  | cons b bs ih =>
    simp only [List.cons_append, Memory.writeBytes, ih, List.length_cons]
    congr 1
    omega

/-- Outside the bytes written every address reads as before. -/
theorem read_writeBytes_other (m : Memory) (a x : Nat) (bs : List Byte) (h : x < a ∨ a + bs.length ≤ x) :
    Memory.read (Memory.writeBytes m a bs) x = Memory.read m x := by
  induction bs generalizing m a with
  | nil => rfl
  | cons b bs ih =>
    simp only [List.length_cons] at h
    rw [Memory.writeBytes, ih _ _ (by omega), read_write_other m a x b (by omega)]

theorem writeBytes_wf (m : Memory) (a : Nat) (bs : List Byte) (h : Memory.wf m = true) :
    Memory.wf (Memory.writeBytes m a bs) = true := by
  induction bs generalizing m a with
  | nil => exact h
  | cons b bs ih => exact ih _ _ (write_wf m a b h)

/-- A byte written is read back. -/
theorem read_writeBytes (m : Memory) (a i : Nat) (bs : List Byte) (h : Memory.wf m = true) (hi : i < bs.length) :
    Memory.read (Memory.writeBytes m a bs) (a + i) = bs.getD i 0 := by
  induction bs generalizing m a i with
  | nil => exact absurd hi (Nat.not_lt_zero i)
  | cons b bs ih =>
    rw [Memory.writeBytes]
    cases i with
    | zero =>
      show Memory.read _ a = b
      rw [read_writeBytes_other _ _ _ _ (by omega), read_write_same m 0 a b h]
    | succ i =>
      rw [show a + (i + 1) = a + 1 + i by omega, ih _ _ _ (write_wf m a b h) (by simpa using hi)]
      rfl

/-! ## Appending -/

@[simp] theorem append_nil (s : State) : s.append [] = s := rfl

theorem append_append (s : State) (bs cs : List Byte) : (s.append bs).append cs = s.append (bs ++ cs) := by
  simp only [State.append, writeBytes_append, List.length_append, Nat.add_assoc]

theorem append_cons (s : State) (b : Byte) (bs : List Byte) : s.append (b :: bs) = (s.pushByte b).append bs := by
  simp only [State.append, State.pushByte, Memory.writeBytes, List.length_cons]
  congr 1
  omega

theorem append_moveTo (s : State) (p : Nat) (bs : List Byte) : (s.moveTo p).append bs = (s.append bs).moveTo p := rfl

@[simp] theorem pos_append (s : State) (bs : List Byte) : (s.append bs).pos = s.pos := rfl
@[simp] theorem pos_pushByte (s : State) (b : Byte) : (s.pushByte b).pos = s.pos := rfl

theorem hasRoom_mono {s : State} {m n : Nat} (h : s.hasRoom n) (hmn : m ≤ n) : s.hasRoom m := by
  intro k hk
  have := h k hk
  omega

theorem hasRoom_one (s : State) (h : s.hasRoom 0) : s.hasRoom 1 ↔ s.outFull = false := by
  simp only [State.hasRoom, State.outFull] at *
  cases hc : s.outCapacity with
  | none => simp
  | some k =>
    have := h k hc
    simp only [Option.some.injEq, forall_eq', Option.some_beq_some]
    constructor
    · intro hk
      exact beq_false_of_ne (by omega)
    · intro hk
      have := ne_of_beq_false hk
      omega

theorem not_outFull {s : State} (h : s.hasRoom 1) : s.outFull = false :=
  (hasRoom_one s (hasRoom_mono h (Nat.zero_le 1))).mp h

theorem outAppend_eq {s : State} (b : Byte) (h : s.hasRoom 1) : outAppend b s = .ok () (s.pushByte b) := by
  rw [outAppend, not_outFull h]
  rfl

/-- An append is an append or the error of a full buffer (20_memory.md R212). -/
theorem outAppend_cases (b : Byte) (s : State) :
    (s.outFull = false ∧ outAppend b s = .ok () (s.pushByte b)) ∨
    (s.outFull = true ∧ outAppend b s = .raise .capacityExceeded .none s) := by
  cases h : s.outFull
  · exact .inl ⟨rfl, by rw [outAppend, h]; rfl⟩
  · exact .inr ⟨rfl, by rw [outAppend, h]; rfl⟩

theorem outByte_eq {s : State} {i : Nat} (h : i < s.outLen) : outByte i s = .ok (Memory.read s.out i) s := if_pos h

/-! ## The copy of a stored block (42_inflate_blocks.md R512) -/

/-- The state after `j` of `n` bytes of a stored block are copied. -/
def storedCopied (s : State) (n j : Nat) : State :=
  { (s.append (s.srcBytes (s.pos / 8) j)).moveTo (s.pos + 8 * j) with
    remain := if j = 0 then s.remain else wrote (BitVec.ofNat 16 (n - j)) }

theorem storedCopied_zero (s : State) (n : Nat) : storedCopied s n 0 = s := by
  show { s.moveTo (s.pos + 0) with remain := s.remain } = s
  rw [Nat.add_zero, moveTo_pos]

theorem srcBytes_succ (s : State) (i n : Nat) :
    s.srcBytes i (n + 1) = Memory.read s.src i :: s.srcBytes (i + 1) n := by
  simp only [State.srcBytes, List.range_succ_eq_map, List.map_cons, List.map_map, Nat.add_zero]
  congr 1
  apply List.map_congr_left
  intro k _
  simp only [Function.comp]
  congr 1
  omega

@[simp] theorem length_srcBytes (s : State) (i n : Nat) : (s.srcBytes i n).length = n := by simp [State.srcBytes]

theorem storedCopied_succ (s : State) (n j : Nat) (h0 : s.pos % 8 = 0) :
    storedCopied { (s.moveTo (s.pos + 8)).pushByte (Memory.read s.src (s.pos / 8)) with
      remain := wrote (BitVec.ofNat 16 n) } n j = storedCopied s (n + 1) (j + 1) := by
  have hp : (s.pos + 8) / 8 = s.pos / 8 + 1 := by omega
  have e : State.pos { (s.moveTo (s.pos + 8)).pushByte (Memory.read s.src (s.pos / 8)) with
      remain := wrote (BitVec.ofNat 16 n) } = s.pos + 8 := pos_moveTo s (s.pos + 8)
  simp only [storedCopied, e]
  rw [srcBytes_succ, append_cons, ← hp, Nat.add_sub_add_right, if_neg (Nat.succ_ne_zero j), Nat.mul_add, Nat.mul_one,
    Nat.add_comm (8 * j) 8, ← Nat.add_assoc]
  cases j <;> rfl

/-- How the copy of a stored block can end: all bytes copied, the output full before byte `j` (already read), or `SRC`
used up before it. -/
theorem copyStoredLoop_cases (n : Nat) (s : State) (h0 : s.pos % 8 = 0) :
    ∃ j, j ≤ n ∧
      ((j = n ∧ copyStoredLoop n s = .ok () (storedCopied s n n)) ∨
       (j < n ∧ (storedCopied s n j).outFull = true ∧ s.hasBits (8 * (j + 1)) ∧
          copyStoredLoop n s =
            .raise .capacityExceeded .none ((storedCopied s n j).moveTo (s.pos + 8 * (j + 1)))) ∨
       (j < n ∧ ¬ s.hasBits (8 * (j + 1)) ∧ copyStoredLoop n s = sourceOverrun (storedCopied s n j).atEnd)) := by
  induction n generalizing s with
  | zero => exact ⟨0, Nat.le_refl 0, .inl ⟨rfl, by rw [storedCopied_zero]; rfl⟩⟩
  | succ n ih =>
    by_cases h8 : s.hasBits 8
    · rw [copyStoredLoop, readByte_eq h0 h8, bind_ok]
      rcases outAppend_cases (Memory.read s.src (s.pos / 8)) (s.moveTo (s.pos + 8)) with ⟨_, ha⟩ | ⟨hf, ha⟩
      · rw [ha, bind_ok]
        have hs := storedCopied_succ s n
        obtain ⟨j, hj, H⟩ := ih { (s.moveTo (s.pos + 8)).pushByte (Memory.read s.src (s.pos / 8)) with
          remain := wrote (BitVec.ofNat 16 n) } (by
            show (s.moveTo (s.pos + 8)).pos % 8 = 0
            rw [pos_moveTo]
            omega)
        have hp : State.pos { (s.moveTo (s.pos + 8)).pushByte (Memory.read s.src (s.pos / 8)) with
          remain := wrote (BitVec.ofNat 16 n) } = s.pos + 8 := pos_moveTo s _
        have hb : ∀ k, State.hasBits { (s.moveTo (s.pos + 8)).pushByte (Memory.read s.src (s.pos / 8)) with
            remain := wrote (BitVec.ofNat 16 n) } (8 * k) ↔ s.hasBits (8 * (k + 1)) := by
          intro k
          simp only [State.hasBits, hp]
          show s.pos + 8 + 8 * k ≤ 8 * s.srcLen ↔ _
          omega
        simp only [hs _ h0, hb, hp] at H
        refine ⟨j + 1, by omega, ?_⟩
        rcases H with ⟨rfl, H⟩ | ⟨h1, h2, h3, H⟩ | ⟨h1, h2, H⟩
        · exact .inl ⟨rfl, H⟩
        · refine .inr (.inl ⟨by omega, h2, h3, ?_⟩)
          rw [H]
          congr 2
          omega
        · exact .inr (.inr ⟨by omega, h2, H⟩)
      · refine ⟨0, by omega, .inr (.inl ⟨by omega, ?_, by simpa using h8, ?_⟩)⟩
        · rw [storedCopied_zero]
          exact hf
        · rw [ha, bind_raise, storedCopied_zero]
    · refine ⟨0, by omega, .inr (.inr ⟨by omega, by simpa using h8, ?_⟩)⟩
      rw [copyStoredLoop, readByte_short h0 h8, bind_sourceOverrun, storedCopied_zero]

/-- Where the bytes are there and fit, all of them are copied. -/
theorem copyStoredLoop_eq (n : Nat) (s : State) (h0 : s.pos % 8 = 0) (hb : s.hasBits (8 * n)) (hr : s.hasRoom n) :
    copyStoredLoop n s = .ok () (storedCopied s n n) := by
  obtain ⟨j, hj, ⟨_, H⟩ | ⟨h1, h2, _⟩ | ⟨h1, h2, _⟩⟩ := copyStoredLoop_cases n s h0
  · exact H
  · have : (storedCopied s n j).hasRoom 1 := by
      intro k hk
      have := hr k hk
      show s.outLen + (s.srcBytes (s.pos / 8) j).length + 1 ≤ k
      rw [length_srcBytes]
      omega
    rw [not_outFull this] at h2
    exact absurd h2 (by decide)
  · exact absurd (hasBits_mono hb (by omega)) h2

/-! ## The copy of a match (43_token_loop.md R618, R619) -/

/-- The state after `j` of `n` bytes of a match at distance `dist` are copied. -/
def matchCopied (s : State) (dist n j : Nat) : State :=
  { s.append (s.matchBytes dist j) with
    copyRemain := if j = 0 then s.copyRemain else wrote (BitVec.ofNat 9 (n - j)) }

@[simp] theorem length_matchBytes (s : State) (dist n : Nat) : (s.matchBytes dist n).length = n := by
  simp [State.matchBytes]

theorem matchBytes_succ (s : State) (dist n : Nat) :
    s.matchBytes dist (n + 1) = s.matchBytes dist n ++ [Memory.read s.out (s.outLen - dist + n % dist)] := by
  simp only [State.matchBytes, List.range_succ, List.map_append, List.map_cons, List.map_nil]

theorem matchBytes_getD (s : State) (dist n i : Nat) (h : i < n) :
    (s.matchBytes dist n).getD i 0 = Memory.read s.out (s.outLen - dist + i % dist) := by
  simp [State.matchBytes, h]

/-- After `j` bytes of the match, the byte `dist` places before the end of `OUT` is the byte the pattern repeats. -/
theorem read_matchCopied (s : State) (dist n j : Nat) (hw : Memory.wf s.out = true) (hd : 1 ≤ dist)
    (hl : dist ≤ s.outLen) :
    Memory.read (matchCopied s dist n j).out ((matchCopied s dist n j).outLen - dist) =
      Memory.read s.out (s.outLen - dist + j % dist) := by
  show Memory.read (Memory.writeBytes s.out s.outLen (s.matchBytes dist j))
    (s.outLen + (s.matchBytes dist j).length - dist) = _
  rw [length_matchBytes]
  by_cases hj : j < dist
  · rw [read_writeBytes_other _ _ _ _ (.inl (by omega)), Nat.mod_eq_of_lt hj]
    congr 1
    omega
  · rw [show s.outLen + j - dist = s.outLen + (j - dist) by omega,
      read_writeBytes _ _ _ _ hw (by rw [length_matchBytes]; omega), matchBytes_getD _ _ _ _ (by omega),
      ← Nat.mod_eq_sub_mod (by omega)]

/-- How the copy of a match can end after its first `j` bytes: all copied, or the output full before byte `i`. -/
theorem copyMatchLoop_from (dist n j : Nat) (s : State) (hw : Memory.wf s.out = true) (hd : 1 ≤ dist)
    (hl : dist ≤ s.outLen) (hj : j ≤ n) :
    ∃ i, j ≤ i ∧ i ≤ n ∧
      ((i = n ∧ copyMatchLoop dist (n - j) (matchCopied s dist n j) = .ok () (matchCopied s dist n n)) ∨
       (i < n ∧ (matchCopied s dist n i).outFull = true ∧
          copyMatchLoop dist (n - j) (matchCopied s dist n j) =
            .raise .capacityExceeded .none (matchCopied s dist n i))) := by
  induction hk : n - j generalizing j with
  | zero =>
    have : j = n := by omega
    subst this
    exact ⟨j, Nat.le_refl j, Nat.le_refl j, .inl ⟨rfl, rfl⟩⟩
  | succ k ih =>
    have hlt : (matchCopied s dist n j).outLen - dist < (matchCopied s dist n j).outLen := by
      show s.outLen + (s.matchBytes dist j).length - dist < s.outLen + (s.matchBytes dist j).length
      omega
    rw [copyMatchLoop, outByte_eq hlt, bind_ok, read_matchCopied s dist n j hw hd hl]
    rcases outAppend_cases (Memory.read s.out (s.outLen - dist + j % dist)) (matchCopied s dist n j)
      with ⟨_, ha⟩ | ⟨hf, ha⟩
    · have hnext : { (matchCopied s dist n j).pushByte (Memory.read s.out (s.outLen - dist + j % dist)) with
          copyRemain := wrote (BitVec.ofNat 9 k) } = matchCopied s dist n (j + 1) := by
        have hk' : n - (j + 1) = k := by omega
        simp only [matchCopied, matchBytes_succ, ← append_append, if_neg (Nat.succ_ne_zero j), hk']
        rw [append_cons, append_nil]
        rfl
      rw [ha, bind_ok, hnext]
      obtain ⟨i, h1, h2, H⟩ := ih (j + 1) (by omega) (by omega)
      exact ⟨i, by omega, h2, H⟩
    · refine ⟨j, Nat.le_refl j, hj, .inr ⟨by omega, hf, ?_⟩⟩
      rw [ha, bind_raise]

theorem matchCopied_zero (s : State) (dist n : Nat) : matchCopied s dist n 0 = s := rfl

/-- How the copy of a match can end (43_token_loop.md R618, R621): all bytes copied, or the output full before byte `i`. -/
theorem copyMatchLoop_cases (dist n : Nat) (s : State) (hw : Memory.wf s.out = true) (hd : 1 ≤ dist)
    (hl : dist ≤ s.outLen) :
    copyMatchLoop dist n s = .ok () (matchCopied s dist n n) ∨
    ∃ i, i < n ∧ (matchCopied s dist n i).outFull = true ∧
      copyMatchLoop dist n s = .raise .capacityExceeded .none (matchCopied s dist n i) := by
  obtain ⟨i, _, _, ⟨_, H⟩ | ⟨h1, h2, H⟩⟩ := copyMatchLoop_from dist n 0 s hw hd hl (Nat.zero_le n)
  · exact .inl H
  · exact .inr ⟨i, h1, h2, H⟩

theorem copyMatchLoop_eq (dist n : Nat) (s : State) (hw : Memory.wf s.out = true) (hd : 1 ≤ dist)
    (hl : dist ≤ s.outLen) (hr : s.hasRoom n) : copyMatchLoop dist n s = .ok () (matchCopied s dist n n) := by
  rcases copyMatchLoop_cases dist n s hw hd hl with H | ⟨i, h1, h2, _⟩
  · exact H
  · have : (matchCopied s dist n i).hasRoom 1 := by
      intro k hk
      have := hr k hk
      show s.outLen + (s.matchBytes dist i).length + 1 ≤ k
      rw [length_matchBytes]
      omega
    rw [not_outFull this] at h2
    exact absurd h2 (by decide)

end Sys2Proof.Machine
end

