-- ==== Sys2Proof/Laws/Trees.lean ====
section
/-! SUPPORT. The tree unit: the fixed tree is the canonical one, what `Decode` does in terms of the walk of a bit string,
and what a canonical tree always is. -/

namespace Sys2Proof.Machine

/-- `FIXED_LIT_TREE` is `BuildCanonical(FIXED_LENGTHS)` (45_static_tables.md R754, 10_state.md R118). -/
theorem buildCanonical_fixedLengths : buildCanonical fixedLengths = some fixedLitTree := by decide +kernel

/-! ## The bits left -/

theorem length_bitsLeft (s : State) : s.bitsLeft.length = 8 * s.srcLen - s.pos := length_bitsAt _ _ _

theorem bitsLeft_cons {s : State} (h : s.hasBits 1) :
    s.bitsLeft = s.streamBit s.pos :: (s.moveTo (s.pos + 1)).bitsLeft := by
  simp only [State.hasBits] at h
  have hn : 8 * s.srcLen - s.pos = (8 * s.srcLen - (s.pos + 1)) + 1 := by omega
  simp only [State.bitsLeft, pos_moveTo, moveTo_srcLen, bitsAt_moveTo]
  rw [hn, bitsAt_succ]

theorem bitsLeft_nil {s : State} (h : ¬ s.hasBits 1) : s.bitsLeft = [] := by
  simp only [State.hasBits] at h
  have hn : 8 * s.srcLen - s.pos = 0 := by omega
  rw [State.bitsLeft, hn]
  rfl

/-- The first bits left, where they are there. -/
theorem take_bitsLeft {s : State} (n : Nat) (h : s.hasBits n) : s.bitsLeft.take n = s.bitsAt s.pos n := by
  simp only [State.hasBits] at h
  have hn : 8 * s.srcLen - s.pos = n + (8 * s.srcLen - s.pos - n) := by omega
  rw [State.bitsLeft, hn, bitsAt_add, List.take_left' (length_bitsAt s s.pos n)]

/-! ## Walking -/

/-- What a walk leaves is no longer than what it was given, and shorter where the root is internal. -/
theorem walk_rest_length (T : Tree) (bs : List Bool) :
    (∀ x rest, walk T bs = .found x rest →
      rest.length ≤ bs.length ∧ (isInternal T = true → rest.length < bs.length)) ∧
    (∀ rest, walk T bs = .absent rest → rest.length ≤ bs.length ∧ (isInternal T = true → rest.length < bs.length)) := by
  induction T generalizing bs with
  | absent =>
    refine ⟨fun x rest h => (by cases h), fun rest h => ?_⟩
    cases h
    exact ⟨Nat.le_refl _, fun h => by cases h⟩
  | leaf y =>
    refine ⟨fun x rest h => ?_, fun rest h => by cases h⟩
    cases h
    exact ⟨Nat.le_refl _, fun h => by cases h⟩
  | internal l r ihl ihr =>
    cases bs with
    | nil => exact ⟨fun x rest h => (by cases h), fun rest h => (by cases h)⟩
    | cons b bs =>
      cases b
      · refine ⟨fun x rest h => ?_, fun rest h => ?_⟩
        · have := ((ihl bs).1 x rest h).1
          exact ⟨by simp only [List.length_cons]; omega, fun _ => by simp only [List.length_cons]; omega⟩
        · have := ((ihl bs).2 rest h).1
          exact ⟨by simp only [List.length_cons]; omega, fun _ => by simp only [List.length_cons]; omega⟩
      · refine ⟨fun x rest h => ?_, fun rest h => ?_⟩
        · have := ((ihr bs).1 x rest h).1
          exact ⟨by simp only [List.length_cons]; omega, fun _ => by simp only [List.length_cons]; omega⟩
        · have := ((ihr bs).2 rest h).1
          exact ⟨by simp only [List.length_cons]; omega, fun _ => by simp only [List.length_cons]; omega⟩

/-- A walk ends at a symbol of the tree. -/
theorem walk_symbol_lt (n : Nat) (T : Tree) (bs : List Bool) (x : Nat) (rest : List Bool)
    (hT : symbolsBelow n T = true) (h : walk T bs = .found x rest) : x < n := by
  induction T generalizing bs with
  | absent => cases h
  | leaf y =>
    cases h
    simpa [symbolsBelow] using hT
  | internal l r ihl ihr =>
    simp only [symbolsBelow, Bool.and_eq_true] at hT
    cases bs with
    | nil => cases h
    | cons b bs =>
      cases b
      · exact ihl bs hT.1 h
      · exact ihr bs hT.2 h

/-- What `Decode(T)` does (R460): it reads the symbol that the walk over the bits left finds, raises `UnknownSymbol` at an
absent child, and overruns `SRC` where the bits end first. -/
theorem decodeSymbol_eq (T : Tree) (s : State) (h0 : s.hasBits 0) :
    decodeSymbol T s =
      match walk T s.bitsLeft with
      | .found x rest => .ok x (s.moveTo (s.pos + (s.bitsLeft.length - rest.length)))
      | .absent rest => .raise .unknownSymbol .none (s.moveTo (s.pos + (s.bitsLeft.length - rest.length)))
      | .truncated => sourceOverrun s.atEnd := by
  induction T generalizing s with
  | absent => simp [decodeSymbol, walk]
  | leaf x => simp [decodeSymbol, walk]
  | internal l r ihl ihr =>
    by_cases h1 : s.hasBits 1
    · have h0' : (s.moveTo (s.pos + 1)).hasBits 0 := hasBits_moveTo h1
      have hl := length_bitsLeft (s.moveTo (s.pos + 1))
      rw [decodeSymbol, nextBit_eq h1, bind_ok, bitsLeft_cons h1, walk]
      cases s.streamBit s.pos
      · simp only [Bool.false_eq_true, if_false]
        rw [ihl _ h0']
        have hw := walk_rest_length l (s.moveTo (s.pos + 1)).bitsLeft
        cases e : walk l (s.moveTo (s.pos + 1)).bitsLeft with
        | found x rest =>
          have := (hw.1 x rest e).1
          simp only [pos_moveTo, moveTo_moveTo, List.length_cons]
          congr 2
          omega
        | absent rest =>
          have := (hw.2 rest e).1
          simp only [pos_moveTo, moveTo_moveTo, List.length_cons]
          congr 2
          omega
        | truncated => simp only [atEnd_moveTo _ _ h1 h0]
      · simp only [if_true]
        rw [ihr _ h0']
        have hw := walk_rest_length r (s.moveTo (s.pos + 1)).bitsLeft
        cases e : walk r (s.moveTo (s.pos + 1)).bitsLeft with
        | found x rest =>
          have := (hw.1 x rest e).1
          simp only [pos_moveTo, moveTo_moveTo, List.length_cons]
          congr 2
          omega
        | absent rest =>
          have := (hw.2 rest e).1
          simp only [pos_moveTo, moveTo_moveTo, List.length_cons]
          congr 2
          omega
        | truncated => simp only [atEnd_moveTo _ _ h1 h0]
    · rw [decodeSymbol, nextBit_short h1, bind_sourceOverrun, bitsLeft_nil h1, walk]

/-! ## What a canonical tree is -/

@[simp] theorem length_bitsLsb (n v : Nat) : (bitsLsb n v).length = n := by
  induction n generalizing v with
  | zero => rfl
  | succ n ih => simp [bitsLsb, ih]

@[simp] theorem length_bitsMsb (n v : Nat) : (bitsMsb n v).length = n := by simp [bitsMsb]

theorem insertCode_symbolsBelow (n : Nat) (t : Tree) (bs : List Bool) (x : Nat) (ht : symbolsBelow n t = true)
    (hx : x < n) : symbolsBelow n (insertCode t bs x) = true := by
  induction bs generalizing t with
  | nil => cases t <;> simpa [insertCode, symbolsBelow] using hx
  | cons b bs ih =>
    cases t with
    | absent => cases b <;> simp [insertCode, symbolsBelow, ih .absent rfl]
    | leaf y => simpa [insertCode] using ht
    | internal l r =>
      simp only [symbolsBelow, Bool.and_eq_true] at ht
      cases b
      · simp [insertCode, symbolsBelow, ih l ht.1, ht.2]
      · simp [insertCode, symbolsBelow, ih r ht.2, ht.1]

theorem insertCode_isInternal (t : Tree) (bs : List Bool) (x : Nat) (ht : isInternal t = true) (hb : bs ≠ []) :
    isInternal (insertCode t bs x) = true := by
  cases t with
  | absent => cases ht
  | leaf y => cases ht
  | internal l r =>
    cases bs with
    | nil => exact absurd rfl hb
    | cons b bs => cases b <;> rfl

theorem insertAll_treeOver (n s : Nat) (L C : List Nat) (t : Tree) (ht : treeOver n t) (hs : s + L.length ≤ n) :
    treeOver n (insertAll s L C t) := by
  induction L generalizing s C t with
  | nil => cases C <;> exact ht
  | cons l L ih =>
    simp only [List.length_cons] at hs
    cases C with
    | nil => exact ht
    | cons c' C =>
      rw [insertAll]
      apply ih _ _ _ _ (by omega)
      split
      · exact ht
      · rename_i hl
        have hb : bitsMsb l c' ≠ [] := by
          intro h
          have := congrArg List.length h
          rw [length_bitsMsb] at this
          exact hl this
        exact ⟨insertCode_isInternal t _ s ht.1 hb, insertCode_symbolsBelow n t _ s ht.2 (by omega)⟩

/-- A canonical tree has an internal root and only symbols of its alphabet (10_state.md R124). -/
theorem canonicalTree_treeOver (n : Nat) (L : List Nat) (h : L.length ≤ n) : treeOver n (canonicalTree L) :=
  insertAll_treeOver n 0 L _ emptyTree ⟨rfl, rfl⟩ (by omega)

theorem fixedLitTree_treeOver : treeOver 288 fixedLitTree := ⟨rfl, by decide +kernel⟩

/-! ## Building in the block -/

/-- What `BuildCanonical` leaves in the block (R452, R456). -/
theorem buildTree_eq (L : List Nat) (s : State) :
    buildTree L s =
      if oversubscribed (countLengths L) then
        .raise .dataCorruption .oversubscribedCode { s with blCount := unwritten (countLengths L) }
      else
        .ok (canonicalTree L)
          { s with
            blCount := unwritten (countLengths L)
            nextCode := unwritten (assignCodes L (firstCodes (countLengths L))).2 } := rfl

end Sys2Proof.Machine
end

