-- ==== Sys2Proof/Laws/Header.lean ====
section
/-! SUPPORT. What the operations of the block and of the dynamic header do, each said once. -/

namespace Sys2Proof.Machine

/-! ## The end of a block (42_inflate_blocks.md R508) -/

theorem readReg_eq {α : Type} {r : Reg α} {s : State} (h : r.written = true) : readReg r s = .ok r.val s := if_pos h

theorem endOfBlock_eq {s : State} (h : s.bfinal.written = true) : endOfBlock s = .ok () s.endBlock := by
  rw [endOfBlock, readReg_eq h, bind_ok, State.endBlock]
  split <;> rfl

/-! ## Stored-block lengths (42_inflate_blocks.md R510, R511) -/

theorem readStoredLengths_eq {s : State} (h0 : s.pos % 8 = 0) (h : s.hasBits 32) :
    readStoredLengths s =
      .ok () { s.moveTo (s.pos + 32) with
        len := wrote (BitVec.ofNat 16 (s.field s.pos 16))
        nlen := wrote (BitVec.ofNat 16 (s.field (s.pos + 16) 16)) } := by
  obtain ⟨t, ht⟩ : ∃ t, t = { s.moveTo (s.pos + 16) with len := wrote (BitVec.ofNat 16 (s.field s.pos 16)) } := ⟨_, rfl⟩
  have hp : t.pos = s.pos + 16 := by
    rw [← pos_moveTo s (s.pos + 16), ht]
    exact pos_congr rfl rfl
  have hs : t.srcLen = s.srcLen := by rw [ht]; rfl
  have hsrc : t.src = s.src := by rw [ht]; rfl
  have hb : t.hasBits 16 := by
    simp only [State.hasBits, hp, hs] at h ⊢
    omega
  have h16 : s.hasBits 16 := hasBits_mono h (by omega)
  rw [readStoredLengths, readLe16_eq h0 h16, bind_ok]
  dsimp only
  rw [← ht, readLe16_eq (by omega) hb, bind_ok, hp, field_congr hsrc, ht]
  rfl

/-- The two lengths agree (R511) exactly where they add up to 65535. -/
theorem checkStoredLengths_eq {s : State} (h1 : s.len.written = true) (h2 : s.nlen.written = true) :
    checkStoredLengths s =
      if s.len.val.toNat + s.nlen.val.toNat = 65535 then .ok () s
      else .raise .dataCorruption .storedLenMismatch s := by
  have e : (s.len.val = 0xFFFF - s.nlen.val) ↔ s.len.val.toNat + s.nlen.val.toNat = 65535 := by
    rw [← BitVec.toNat_inj, BitVec.toNat_sub]
    have := s.len.val.isLt
    have := s.nlen.val.isLt
    have : (0xFFFF : BitVec 16).toNat = 65535 := rfl
    omega
  rw [checkStoredLengths, readReg_eq h1, bind_ok, readReg_eq h2, bind_ok]
  by_cases h : s.len.val.toNat + s.nlen.val.toNat = 65535
  · rw [if_pos h, if_neg (not_not.mpr (e.mpr h))]
  · rw [if_neg h, if_pos (fun h' => h (e.mp h'))]

/-! ## Code-length code lengths (44_dynamic_header.md R704) -/

/-- The code lengths after the fields at bit `p` are put at the CL symbols of a list, in its order. -/
def cllPut (s : State) : List Nat → Nat → Vector (BitVec 3) 19 → Vector (BitVec 3) 19
  | [], _, v => v
  | c :: cs, p, v => cllPut s cs (p + 3) (v.setIfInBounds c (BitVec.ofNat 3 (s.field p 3)))

theorem cllPut_congr {s t : State} (h : t.src = s.src) (cs : List Nat) (p : Nat) (v : Vector (BitVec 3) 19) :
    cllPut t cs p v = cllPut s cs p v := by
  induction cs generalizing p v with
  | nil => rfl
  | cons c' cs ih => simp only [cllPut, ih, field_congr h]

theorem readCll_eq (cs : List Nat) {s : State} (hw : s.cll.written = true) (hb : s.hasBits (3 * cs.length)) :
    readCll cs s =
      .ok () { s.moveTo (s.pos + 3 * cs.length) with cll := wrote (cllPut s cs s.pos s.cll.val) } := by
  induction cs generalizing s with
  | nil =>
    show Res.ok () s = .ok () { s.moveTo (s.pos + 0) with cll := ⟨s.cll.val, true⟩ }
    rw [Nat.add_zero, moveTo_pos, ← hw]
  | cons c' cs ih =>
    rw [List.length_cons] at hb
    rw [readCll, readBits_eq 3 (hasBits_mono hb (by omega)), bind_ok, readReg_eq (by exact hw), bind_ok]
    have hp : State.pos { s.moveTo (s.pos + 3) with
        cll := wrote ((s.moveTo (s.pos + 3)).cll.val.setIfInBounds c' (BitVec.ofNat 3 (s.field s.pos 3))) } =
        s.pos + 3 := pos_moveTo s _
    rw [ih rfl]
    · rw [hp, List.length_cons, show s.pos + 3 * (cs.length + 1) = s.pos + 3 + 3 * cs.length by omega,
        cllPut_congr (s := s)]
      · rfl
      · rfl
    · simp only [State.hasBits] at hb ⊢
      rw [hp]
      show s.pos + 3 + 3 * cs.length ≤ 8 * s.srcLen
      omega

theorem cllPut_get (s : State) (cs : List Nat) (p : Nat) (v : Vector (BitVec 3) 19) (hn : cs.Nodup) (k : Nat)
    (hk : k < 19) :
    (cllPut s cs p v)[k] = if k ∈ cs then BitVec.ofNat 3 (s.field (p + 3 * cs.idxOf k) 3) else v[k] := by
  induction cs generalizing p v with
  | nil => simp [cllPut]
  | cons c' cs ih =>
    rw [List.nodup_cons] at hn
    rw [cllPut, ih _ _ hn.2]
    by_cases hc : k = c'
    · subst hc
      rw [if_neg hn.1, if_pos List.mem_cons_self, List.idxOf_cons_self, Vector.getElem_setIfInBounds_self]
      rfl
    · rw [List.idxOf_cons_ne _ (Ne.symm hc), Vector.getElem_setIfInBounds_ne (h := Ne.symm hc)]
      by_cases hm : k ∈ cs
      · rw [if_pos hm, if_pos (List.mem_cons_of_mem _ hm)]
        congr 2
        omega
      · rw [if_neg hm, if_neg (by simp [hc, hm])]

theorem mem_take_clOrder : ∀ n < 20, ∀ k < 19, (k ∈ clOrder.take n ↔ clOrder.idxOf k < n) ∧
    (k ∈ clOrder.take n → (clOrder.take n).idxOf k = clOrder.idxOf k) := by decide

theorem nodup_take_clOrder : ∀ n < 20, (clOrder.take n).Nodup := by decide

theorem length_take_clOrder : ∀ n < 20, (clOrder.take n).length = n := by decide

/-- The cleared array with the fields read in the order `CL_ORDER` (R704). -/
theorem cllPut_clLengths (s : State) (p n : Nat) (hn : n < 20) :
    cllPut s (clOrder.take n) p (Vector.replicate 19 0) = s.clLengths p n := by
  apply Vector.ext
  intro k hk
  rw [cllPut_get _ _ _ _ (nodup_take_clOrder n hn) k hk, State.clLengths, Vector.getElem_ofFn,
    Vector.getElem_replicate]
  by_cases hm : k ∈ clOrder.take n
  · rw [if_pos hm, if_pos ((mem_take_clOrder n hn k hk).1.mp hm), (mem_take_clOrder n hn k hk).2 hm]
  · rw [if_neg hm, if_neg (fun h => hm ((mem_take_clOrder n hn k hk).1.mpr h))]

theorem readCodeLengthCodeLengths_eq {s : State} (hw : s.hclen.written = true) (hn : s.hclen.val.toNat < 20)
    (hb : s.hasBits (3 * s.hclen.val.toNat)) :
    readCodeLengthCodeLengths s =
      .ok () { s.moveTo (s.pos + 3 * s.hclen.val.toNat) with
        cll := wrote (s.clLengths s.pos s.hclen.val.toNat) } := by
  have hl := length_take_clOrder _ hn
  rw [readCodeLengthCodeLengths, readReg_eq hw, bind_ok, readCll_eq _ rfl, hl]
  · rw [← cllPut_clLengths _ _ _ hn]
    rw [cllPut_congr (s := s)]
    · rfl
    · rfl
  · rw [hl]
    exact hb

/-! ## Code lengths (44_dynamic_header.md R710, R711) -/

/-- The three registers of the expansion are written. -/
def expanding (s : State) : Prop := s.lengths.written = true ∧ s.hlit.written = true ∧ s.hdist.written = true

theorem appendLengths_eq {s : State} (h : expanding s) (v : BitVec 4) (n : Nat) :
    appendLengths v n s =
      if s.hlit.val.toNat + s.hdist.val.toNat < s.lengths.val.length + n then
        .raise .dataCorruption .codeLengthOverrun s
      else .ok () { s with lengths := wrote (s.lengths.val ++ List.replicate n v) } := by
  rw [appendLengths, readReg_eq h.1, bind_ok, readReg_eq h.2.1, bind_ok, readReg_eq h.2.2, bind_ok]

theorem splitAndBuild_eq {s : State} (h : expanding s) :
    splitAndBuild s =
      if oversubscribed (countLengths ((s.lengths.val.map BitVec.toNat).take s.hlit.val.toNat)) then
        .raise .dataCorruption .oversubscribedCode
          { s with blCount := unwritten (countLengths ((s.lengths.val.map BitVec.toNat).take s.hlit.val.toNat)) }
      else if oversubscribed (countLengths
          (((s.lengths.val.map BitVec.toNat).drop s.hlit.val.toNat).take s.hdist.val.toNat)) then
        .raise .dataCorruption .oversubscribedCode
          { s with
            litTree := wrote (canonicalTree ((s.lengths.val.map BitVec.toNat).take s.hlit.val.toNat))
            nextCode := unwritten (assignCodes ((s.lengths.val.map BitVec.toNat).take s.hlit.val.toNat)
              (firstCodes (countLengths ((s.lengths.val.map BitVec.toNat).take s.hlit.val.toNat)))).2
            blCount := unwritten (countLengths
              (((s.lengths.val.map BitVec.toNat).drop s.hlit.val.toNat).take s.hdist.val.toNat)) }
      else .ok () (s.treesBuilt s.lengths.val) := by
  obtain ⟨⟨lv, lw⟩, hl⟩ : ∃ r, s.lengths = r := ⟨_, rfl⟩
  have hlw : lw = true := by rw [← h.1, hl]
  subst hlw
  rw [splitAndBuild, readReg_eq h.1, bind_ok, readReg_eq h.2.1, bind_ok, readReg_eq h.2.2, bind_ok]
  dsimp only
  rw [buildTree_eq]
  split
  · rfl
  · rw [bind_ok, buildTree_eq]
    split
    · rfl
    · rw [bind_ok]
      simp only [State.treesBuilt, hl]
      rfl

/-- The end of a code-length element: the next one follows, or the trees are built (R700). -/
theorem endOfClElement_eq {s : State} (h : expanding s) :
    endOfClElement s =
      if s.lengths.val.length < s.hlit.val.toNat + s.hdist.val.toNat then .ok () s else splitAndBuild s := by
  rw [endOfClElement, readReg_eq h.1, bind_ok, readReg_eq h.2.1, bind_ok, readReg_eq h.2.2, bind_ok]

end Sys2Proof.Machine
end

