-- ==== Sys2Proof/Laws/PerInstr.lean ====
section
/-! SUPPORT. The opcode map read both ways, instruction by instruction: the value of a well-formed element selects that
element in its format (30_encoding.md R310 to R314). -/

namespace Sys2Proof.Laws.OpcodeMap

/-- The value that an element has in its format selects the element. -/
def Statement (i : Instr) : Prop := wellFormed i = true → decodeValue (formatOf i) (encode i) = .ok i

theorem blkStored (bfinal : Bool) : Statement (.blkStored bfinal) := by
  intro _
  cases bfinal <;> rfl

theorem blkFixed (bfinal : Bool) : Statement (.blkFixed bfinal) := by
  intro _
  cases bfinal <;> rfl

theorem blkDynamic (bfinal : Bool) : Statement (.blkDynamic bfinal) := by
  intro _
  cases bfinal <;> rfl

theorem blkReserved (bfinal : Bool) : Statement (.blkReserved bfinal) := by
  intro _
  cases bfinal <;> rfl

theorem lit (sym : BitVec 9) : Statement (.lit sym) := by
  intro h
  have h : sym.toNat < 256 := by simpa [wellFormed] using h
  simp [formatOf, encode, decodeValue, decodeLitlen, h]

theorem eob : Statement .eob := fun _ => rfl

theorem len257 : Statement .len257 := fun _ => rfl

theorem len258 : Statement .len258 := fun _ => rfl

theorem len259 : Statement .len259 := fun _ => rfl

theorem len260 : Statement .len260 := fun _ => rfl

theorem len261 : Statement .len261 := fun _ => rfl

theorem len262 : Statement .len262 := fun _ => rfl

theorem len263 : Statement .len263 := fun _ => rfl

theorem len264 : Statement .len264 := fun _ => rfl

theorem len265 : Statement .len265 := fun _ => rfl

theorem len266 : Statement .len266 := fun _ => rfl

theorem len267 : Statement .len267 := fun _ => rfl

theorem len268 : Statement .len268 := fun _ => rfl

theorem len269 : Statement .len269 := fun _ => rfl

theorem len270 : Statement .len270 := fun _ => rfl

theorem len271 : Statement .len271 := fun _ => rfl

theorem len272 : Statement .len272 := fun _ => rfl

theorem len273 : Statement .len273 := fun _ => rfl

theorem len274 : Statement .len274 := fun _ => rfl

theorem len275 : Statement .len275 := fun _ => rfl

theorem len276 : Statement .len276 := fun _ => rfl

theorem len277 : Statement .len277 := fun _ => rfl

theorem len278 : Statement .len278 := fun _ => rfl

theorem len279 : Statement .len279 := fun _ => rfl

theorem len280 : Statement .len280 := fun _ => rfl

theorem len281 : Statement .len281 := fun _ => rfl

theorem len282 : Statement .len282 := fun _ => rfl

theorem len283 : Statement .len283 := fun _ => rfl

theorem len284 : Statement .len284 := fun _ => rfl

theorem len285 : Statement .len285 := fun _ => rfl

theorem litlenInvalid (sym : BitVec 9) : Statement (.litlenInvalid sym) := by
  intro h
  have h : sym.toNat = 286 ∨ sym.toNat = 287 := by simpa [wellFormed] using h
  rcases h with h | h
  · rw [show sym = 286#9 from BitVec.eq_of_toNat_eq h]
    rfl
  · rw [show sym = 287#9 from BitVec.eq_of_toNat_eq h]
    rfl

theorem dist0 : Statement .dist0 := fun _ => rfl

theorem dist1 : Statement .dist1 := fun _ => rfl

theorem dist2 : Statement .dist2 := fun _ => rfl

theorem dist3 : Statement .dist3 := fun _ => rfl

theorem dist4 : Statement .dist4 := fun _ => rfl

theorem dist5 : Statement .dist5 := fun _ => rfl

theorem dist6 : Statement .dist6 := fun _ => rfl

theorem dist7 : Statement .dist7 := fun _ => rfl

theorem dist8 : Statement .dist8 := fun _ => rfl

theorem dist9 : Statement .dist9 := fun _ => rfl

theorem dist10 : Statement .dist10 := fun _ => rfl

theorem dist11 : Statement .dist11 := fun _ => rfl

theorem dist12 : Statement .dist12 := fun _ => rfl

theorem dist13 : Statement .dist13 := fun _ => rfl

theorem dist14 : Statement .dist14 := fun _ => rfl

theorem dist15 : Statement .dist15 := fun _ => rfl

theorem dist16 : Statement .dist16 := fun _ => rfl

theorem dist17 : Statement .dist17 := fun _ => rfl

theorem dist18 : Statement .dist18 := fun _ => rfl

theorem dist19 : Statement .dist19 := fun _ => rfl

theorem dist20 : Statement .dist20 := fun _ => rfl

theorem dist21 : Statement .dist21 := fun _ => rfl

theorem dist22 : Statement .dist22 := fun _ => rfl

theorem dist23 : Statement .dist23 := fun _ => rfl

theorem dist24 : Statement .dist24 := fun _ => rfl

theorem dist25 : Statement .dist25 := fun _ => rfl

theorem dist26 : Statement .dist26 := fun _ => rfl

theorem dist27 : Statement .dist27 := fun _ => rfl

theorem dist28 : Statement .dist28 := fun _ => rfl

theorem dist29 : Statement .dist29 := fun _ => rfl

theorem distInvalid (dsym : BitVec 5) : Statement (.distInvalid dsym) := by
  intro h
  have h : dsym.toNat = 30 ∨ dsym.toNat = 31 := by simpa [wellFormed] using h
  rcases h with h | h
  · rw [show dsym = 30#5 from BitVec.eq_of_toNat_eq h]
    rfl
  · rw [show dsym = 31#5 from BitVec.eq_of_toNat_eq h]
    rfl

theorem clLen (c : BitVec 5) : Statement (.clLen c) := by
  intro h
  have h : c.toNat < 16 := by simpa [wellFormed] using h
  simp [formatOf, encode, decodeValue, decodeCl, h]

theorem clRep16 : Statement .clRep16 := fun _ => rfl

theorem clZero17 : Statement .clZero17 := fun _ => rfl

theorem clZero18 : Statement .clZero18 := fun _ => rfl

end Sys2Proof.Laws.OpcodeMap
end

