-- ==== Sys2Proof/Tests/Slice0.lean ====
section
/-! SUPPORT. Tests. The expected results are the spec's: the examples of its rules and the vectors of
95_test_vectors.md, named where they are used. Then the witnesses: for every obligation with hypotheses, a state and
operands that meet them. -/

namespace Sys2Proof.Tests

open Sys2Proof.Machine

-- One test after another: side by side, each waiting evaluation would hold a thread and its stack.
set_option Elab.async false

/-! ## Helpers -/

/-- Bits written as 0 and 1, the first-read bit first. -/
def bits (l : List Nat) : List Bool := l.map fun b => b == 1

/-- The words decode to the elements beside them and use all their bits. -/
def decodesAll (k : ValueCode) (l : List (List Nat × Instr)) : Bool :=
  l.all fun p => match decodeBits k (bits p.1) with
    | .ok (i, rest) => decide (i = p.2) && rest.isEmpty
    | .error _ => false

/-- A decode at the first bit of a source. -/
def begun (bytes : List Byte) : State := (State.reset.setup bytes .checked).start

/-- A decode in the token loop of a fixed final block, at the first of these bits. -/
def tok (l : List Nat) : State :=
  { begun (packBits (l.length / 8 + 1) (bits l)) with phase := .tokens, bfinal := wrote true, btype := wrote 1 }

/-- The same where a distance symbol is next, after a match length of `n`. -/
def tokDist (l : List Nat) (n : Nat) : State :=
  { tok l with distPending := true, matchLen := wrote (BitVec.ofNat 9 n) }

/-- A state that has output these bytes. -/
def having (s : State) (bytes : List Byte) : State := { s with out := Memory.ofBytes bytes, outLen := bytes.length }

/-- A property of the next state. -/
def nextIs (o : Host.Outcome State Fault Refusal) (p : State → Bool) : Bool :=
  match o with
  | .next t => p t
  | _ => false

/-- The outcome is this fault. -/
def faultIs (o : Host.Outcome State Fault Refusal) (f : Fault) : Bool :=
  match o with
  | .fault g => decide (g = f)
  | _ => false

/-- The state has ended in this error. -/
def failed (k : ErrKind) (e : ErrCause) (t : State) : Bool :=
  decide (t.status = .doneErr ∧ t.errKind = k ∧ t.errCause = e ∧ hostOut t = none)

/-- The bytes a state has output. -/
def outIs (bytes : List Byte) (t : State) : Bool := decide (outBytesFrom t.out 0 t.outLen = bytes)

/-! ## Well-formedness: an ill-formed term for each check -/

theorem test_lit_256_is_ill_formed : wellFormed (.lit 256) = false := by decide
theorem test_lit_255_is_well_formed : wellFormed (.lit 255) = true := by decide
theorem test_litlenInvalid_285_is_ill_formed : wellFormed (.litlenInvalid 285) = false := by decide
theorem test_litlenInvalid_288_is_ill_formed : wellFormed (.litlenInvalid 288) = false := by decide
theorem test_distInvalid_29_is_ill_formed : wellFormed (.distInvalid 29) = false := by decide
theorem test_clLen_16_is_ill_formed : wellFormed (.clLen 16) = false := by decide

/-! ## Decoding: words written out bit by bit -/

/-- 95_test_vectors.md 2.3, the table of the first byte; 30_encoding.md R301. -/
theorem test_decode_block_headers : decodesAll .header
    [([0, 0, 0], .blkStored false), ([1, 0, 0], .blkStored true), ([0, 1, 0], .blkFixed false),
     ([1, 1, 0], .blkFixed true), ([0, 0, 1], .blkDynamic false), ([1, 0, 1], .blkDynamic true),
     ([0, 1, 1], .blkReserved false), ([1, 1, 1], .blkReserved true)] = true := by decide

/-- 43_token_loop.md R551, R552, R583, 95_test_vectors.md V41-8, V41-9, V41-11. -/
theorem test_decode_fixed_literals : decodesAll (.huffman .litlenSymbol fixedLitTree)
    [([0, 0, 1, 1, 0, 0, 0, 0], .lit 0), ([0, 1, 1, 1, 0, 0, 0, 1], .lit 65), ([1, 0, 1, 1, 1, 1, 1, 1], .lit 143),
     ([1, 1, 0, 0, 1, 0, 0, 0, 0], .lit 144), ([1, 1, 1, 1, 1, 1, 1, 1, 1], .lit 255),
     ([0, 0, 0, 0, 0, 0, 0], .eob), ([1, 1, 0, 0, 0, 1, 1, 0], .litlenInvalid 286),
     ([1, 1, 0, 0, 0, 1, 1, 1], .litlenInvalid 287)] = true := by decide +kernel

/-- What a rule of 43_token_loop.md says of one code: its bits in a fixed block, its element, its symbol, its number of
extra bits, its least and its greatest length or distance. -/
abbrev CodeVector := List Nat × Instr × Nat × Nat × Nat × Nat

/-- R554 to R568. -/
def lengthVectors1 : List CodeVector :=
  [([0, 0, 0, 0, 0, 0, 1], .len257, 257, 0, 3, 3),
   ([0, 0, 0, 0, 0, 1, 0], .len258, 258, 0, 4, 4),
   ([0, 0, 0, 0, 0, 1, 1], .len259, 259, 0, 5, 5),
   ([0, 0, 0, 0, 1, 0, 0], .len260, 260, 0, 6, 6),
   ([0, 0, 0, 0, 1, 0, 1], .len261, 261, 0, 7, 7),
   ([0, 0, 0, 0, 1, 1, 0], .len262, 262, 0, 8, 8),
   ([0, 0, 0, 0, 1, 1, 1], .len263, 263, 0, 9, 9),
   ([0, 0, 0, 1, 0, 0, 0], .len264, 264, 0, 10, 10),
   ([0, 0, 0, 1, 0, 0, 1], .len265, 265, 1, 11, 12),
   ([0, 0, 0, 1, 0, 1, 0], .len266, 266, 1, 13, 14),
   ([0, 0, 0, 1, 0, 1, 1], .len267, 267, 1, 15, 16),
   ([0, 0, 0, 1, 1, 0, 0], .len268, 268, 1, 17, 18),
   ([0, 0, 0, 1, 1, 0, 1], .len269, 269, 2, 19, 22),
   ([0, 0, 0, 1, 1, 1, 0], .len270, 270, 2, 23, 26),
   ([0, 0, 0, 1, 1, 1, 1], .len271, 271, 2, 27, 30)]

/-- R569 to R582. -/
def lengthVectors2 : List CodeVector :=
  [([0, 0, 1, 0, 0, 0, 0], .len272, 272, 2, 31, 34),
   ([0, 0, 1, 0, 0, 0, 1], .len273, 273, 3, 35, 42),
   ([0, 0, 1, 0, 0, 1, 0], .len274, 274, 3, 43, 50),
   ([0, 0, 1, 0, 0, 1, 1], .len275, 275, 3, 51, 58),
   ([0, 0, 1, 0, 1, 0, 0], .len276, 276, 3, 59, 66),
   ([0, 0, 1, 0, 1, 0, 1], .len277, 277, 4, 67, 82),
   ([0, 0, 1, 0, 1, 1, 0], .len278, 278, 4, 83, 98),
   ([0, 0, 1, 0, 1, 1, 1], .len279, 279, 4, 99, 114),
   ([1, 1, 0, 0, 0, 0, 0, 0], .len280, 280, 4, 115, 130),
   ([1, 1, 0, 0, 0, 0, 0, 1], .len281, 281, 5, 131, 162),
   ([1, 1, 0, 0, 0, 0, 1, 0], .len282, 282, 5, 163, 194),
   ([1, 1, 0, 0, 0, 0, 1, 1], .len283, 283, 5, 195, 226),
   ([1, 1, 0, 0, 0, 1, 0, 0], .len284, 284, 5, 227, 258),
   ([1, 1, 0, 0, 0, 1, 0, 1], .len285, 285, 0, 258, 258)]

/-- The length codes as 43_token_loop.md R554 to R582 write them. -/
def lengthVectors : List CodeVector := lengthVectors1 ++ lengthVectors2

/-- R586 to R600. -/
def distVectors1 : List CodeVector :=
  [([0, 0, 0, 0, 0], .dist0, 0, 0, 1, 1),
   ([0, 0, 0, 0, 1], .dist1, 1, 0, 2, 2),
   ([0, 0, 0, 1, 0], .dist2, 2, 0, 3, 3),
   ([0, 0, 0, 1, 1], .dist3, 3, 0, 4, 4),
   ([0, 0, 1, 0, 0], .dist4, 4, 1, 5, 6),
   ([0, 0, 1, 0, 1], .dist5, 5, 1, 7, 8),
   ([0, 0, 1, 1, 0], .dist6, 6, 2, 9, 12),
   ([0, 0, 1, 1, 1], .dist7, 7, 2, 13, 16),
   ([0, 1, 0, 0, 0], .dist8, 8, 3, 17, 24),
   ([0, 1, 0, 0, 1], .dist9, 9, 3, 25, 32),
   ([0, 1, 0, 1, 0], .dist10, 10, 4, 33, 48),
   ([0, 1, 0, 1, 1], .dist11, 11, 4, 49, 64),
   ([0, 1, 1, 0, 0], .dist12, 12, 5, 65, 96),
   ([0, 1, 1, 0, 1], .dist13, 13, 5, 97, 128),
   ([0, 1, 1, 1, 0], .dist14, 14, 6, 129, 192)]

/-- R601 to R615. -/
def distVectors2 : List CodeVector :=
  [([0, 1, 1, 1, 1], .dist15, 15, 6, 193, 256),
   ([1, 0, 0, 0, 0], .dist16, 16, 7, 257, 384),
   ([1, 0, 0, 0, 1], .dist17, 17, 7, 385, 512),
   ([1, 0, 0, 1, 0], .dist18, 18, 8, 513, 768),
   ([1, 0, 0, 1, 1], .dist19, 19, 8, 769, 1024),
   ([1, 0, 1, 0, 0], .dist20, 20, 9, 1025, 1536),
   ([1, 0, 1, 0, 1], .dist21, 21, 9, 1537, 2048),
   ([1, 0, 1, 1, 0], .dist22, 22, 10, 2049, 3072),
   ([1, 0, 1, 1, 1], .dist23, 23, 10, 3073, 4096),
   ([1, 1, 0, 0, 0], .dist24, 24, 11, 4097, 6144),
   ([1, 1, 0, 0, 1], .dist25, 25, 11, 6145, 8192),
   ([1, 1, 0, 1, 0], .dist26, 26, 12, 8193, 12288),
   ([1, 1, 0, 1, 1], .dist27, 27, 12, 12289, 16384),
   ([1, 1, 1, 0, 0], .dist28, 28, 13, 16385, 24576),
   ([1, 1, 1, 0, 1], .dist29, 29, 13, 24577, 32768)]

/-- The distance codes as 43_token_loop.md R586 to R615 write them. -/
def distVectors : List CodeVector := distVectors1 ++ distVectors2

theorem test_decode_length_codes :
    decodesAll (.huffman .litlenSymbol fixedLitTree) (lengthVectors.map fun r => (r.1, r.2.1)) = true := by
  decide +kernel

theorem test_decode_distance_codes :
    decodesAll .fixedDist (distVectors.map fun r => (r.1, r.2.1)) = true := by decide +kernel

/-- 43_token_loop.md R616. -/
theorem test_decode_invalid_distances : decodesAll .fixedDist
    [([1, 1, 1, 1, 0], .distInvalid 30), ([1, 1, 1, 1, 1], .distInvalid 31)] = true := by decide

/-- The code-length code lengths of the program P3 (44_dynamic_header.md R704). -/
def clLengthsP3 : List Nat := [4, 2, 3, 4, 0, 0, 0, 0, 0, 0, 0, 0, 0, 0, 0, 0, 3, 3, 2]

/-- 44_dynamic_header.md R705: the CL codes of P3. -/
theorem test_decode_cl_symbols : decodesAll (.huffman .clSymbol (canonicalTree clLengthsP3))
    [([0, 0], .clLen 1), ([0, 1], .clZero18), ([1, 0, 0], .clLen 2), ([1, 0, 1], .clRep16), ([1, 1, 0], .clZero17),
     ([1, 1, 1, 0], .clLen 0), ([1, 1, 1, 1], .clLen 3)] = true := by decide +kernel

/-- The values with no row (30_encoding.md R310 to R314). -/
theorem test_values_without_a_row :
    [decodeValue .blockHdr 8, decodeValue .litlenSymbol 288, decodeValue .distSymbol 32, decodeValue .clSymbol 19].map
      (fun r => match r with
        | .ok _ => false
        | .error _ => true) = [true, true, true, true] := by decide

/-! ## The cursor (95_test_vectors.md 2.1) -/

/-- The source `B5 01` with the cursor at a position. -/
def at_ (byteIdx : Nat) (bitIdx : BitVec 3) : State := { begun [0xB5, 0x01] with byteIdx := byteIdx, bitIdx := bitIdx }

/-- An operation gives this value and this position. -/
def gives {α : Type} [DecidableEq α] (r : Res α) (v : α) (byteIdx : Nat) (bitIdx : BitVec 3) : Bool :=
  match r with
  | .ok w t => decide (w = v ∧ t.byteIdx = byteIdx ∧ t.bitIdx = bitIdx)
  | _ => false

/-- V40-1, V40-2. -/
theorem test_nextBit :
    (gives (nextBit (at_ 0 0)) true 0 1 && gives (nextBit (at_ 0 1)) false 0 2 && gives (nextBit (at_ 0 2)) true 0 3 &&
      gives (nextBit (at_ 0 7)) true 1 0) = true := by decide

/-- V40-3, V40-4, V40-5, V40-11. -/
theorem test_readBits :
    (gives (readBits 3 (at_ 0 0)) 5 0 3 && gives (readBits 10 (at_ 0 0)) 437 1 2 && gives (readBits 4 (at_ 0 6)) 6 1 2 &&
      gives (readBits 0 (at_ 2 0)) 0 2 0) = true := by decide

/-- V40-6, V40-7. -/
theorem test_readBitsReversed :
    (gives (readBitsReversed 4 (at_ 0 0)) 10 0 4 && gives (readBitsReversed 5 (at_ 0 0)) 21 0 5) = true := by decide

/-- V40-8, V40-9, V40-10. -/
theorem test_align_and_readByte :
    (gives (Res.ok () (alignToByte (at_ 0 3))) () 1 0 && gives (Res.ok () (alignToByte (at_ 1 0))) () 1 0 &&
      gives (readByte (at_ 1 0)) 0x01 2 0) = true := by decide

/-- V40-12, V40-13, V40-15. -/
theorem test_cursor_errors :
    (match nextBit (at_ 2 0), nextBit { at_ 2 0 with policy := .raw }, readByte (at_ 0 3) with
      | .raise .outOfRange .none _, .fault .undefinedSourceRead, .fault .unalignedReadByte => true
      | _, _, _ => false) = true := by decide

/-! ## Trees (95_test_vectors.md 2.2, 41_huffman_trees.md R459) -/

/-- The walk of these bits finds the symbol and uses them all. -/
def finds (T : Tree) (l : List Nat) (x : Nat) : Bool := decide (walk T (bits l) = .found x [])

/-- R459, W4. -/
theorem test_build_worked_example :
    (let T := canonicalTree [3, 3, 3, 3, 3, 2, 4, 4]
     finds T [0, 1, 0] 0 && finds T [0, 1, 1] 1 && finds T [1, 0, 0] 2 && finds T [1, 0, 1] 3 && finds T [1, 1, 0] 4 &&
      finds T [0, 0] 5 && finds T [1, 1, 1, 0] 6 && finds T [1, 1, 1, 1] 7) = true := by decide +kernel

/-- V41-2, 90_conflicts.md C4: the recurrence runs over unused lengths. -/
theorem test_build_skips_no_length :
    (finds (canonicalTree [1, 0, 3]) [0] 0 && finds (canonicalTree [1, 0, 3]) [1, 0, 0] 2) = true := by decide +kernel

/-- V41-3, V41-5. -/
theorem test_build_oversubscribed_and_empty :
    buildCanonical [1, 1, 1] = none ∧ buildCanonical [0, 0, 0] = some emptyTree := by decide +kernel

/-- V41-4: the path 11 is absent. -/
theorem test_decode_absent_path : walk (canonicalTree [1, 2]) (bits [1, 1, 0]) = .absent [false] := by decide +kernel

/-- V41-15, V41-16. -/
theorem test_encode :
    (match encodeSymbol (canonicalTree [3, 3, 3, 3, 3, 2, 4, 4]) 5,
        encodeSymbol (canonicalTree [3, 3, 3, 3, 3, 2, 4, 4]) 9 with
      | .ok l, .error .unknownSymbol => decide (l = bits [0, 0])
      | _, _ => false) = true := by decide +kernel

/-- V41-12, V41-13, V41-14, with one choice of the OPEN parameters. -/
theorem test_frequency_build :
    (match buildFromFrequenciesWith (fun _ => 0) (fun _ _ => true) [],
        buildFromFrequenciesWith (fun _ => 0) (fun _ _ => true) [(5, 7)],
        buildFromFrequenciesWith (fun _ => 1) (fun _ _ => false) [(0, 1), (1, 1), (2, 2)] with
      | .error .emptyAlphabet, .ok (.leaf 5), .ok T =>
        decide (depthOf 2 T = some 1 ∧ depthOf 0 T = some 2 ∧ depthOf 1 T = some 2)
      | _, _, _ => false) = true := by decide +kernel

/-! ## Memory -/

theorem test_memory_keeps_canonical_form :
    Memory.write (Memory.write [] 3 7) 3 0 = [] ∧ Memory.write (Memory.write [] 3 7) 1 9 = [(1, 9), (3, 7)] := by decide

/-! ## Steps of the block elements -/

/-- 95_test_vectors.md W1: the whole stored block in one step. -/
theorem test_blkStored_hello :
    nextIs (step (begun [0x01, 0x05, 0x00, 0xFA, 0xFF, 0x48, 0x65, 0x6C, 0x6C, 0x6F])) (fun t =>
      decide (t.status = .doneOk ∧ hostFinalPos t = some ⟨10, 0⟩ ∧
        hostOut t = some [0x48, 0x65, 0x6C, 0x6C, 0x6F])) = true := by decide +kernel

/-- 95_test_vectors.md W2. -/
theorem test_blkStored_mismatch :
    nextIs (step (begun [0x01, 0x05, 0x00, 0xFB, 0xFF, 0x48])) (failed .dataCorruption .storedLenMismatch) = true := by
  decide +kernel

/-- 42_inflate_blocks.md R502, R505: 0x02 is a fixed block that is not final. -/
theorem test_blkFixed :
    nextIs (step (begun [0x02])) (fun t =>
      decide (t.phase = .tokens ∧ t.pos = 3 ∧ t.bfinal = wrote false ∧ t.btype = wrote 1)) = true := by decide +kernel

/-- 44_dynamic_header.md R701 to R705, R714: the header of P3 up to its first code-length element at bit 71. -/
theorem test_blkDynamic_p3 :
    nextIs (step (begun [0x15, 0xC1, 0x37, 0x11, 0x00, 0x00, 0x00, 0xC4, 0x20])) (fun t =>
      decide (t.phase = .dynHeader ∧ t.pos = 71 ∧ t.hlit = wrote 259 ∧ t.hdist = wrote 2 ∧ t.hclen = wrote 18 ∧
        t.cll.val.toList.map BitVec.toNat = clLengthsP3 ∧ t.lengths = wrote [])) = true := by decide +kernel

/-- 44_dynamic_header.md R705: three CL symbols of length 1 are over-subscribed (HCLEN 4, lengths 1, 1, 1, 0). -/
theorem test_blkDynamic_oversubscribed :
    nextIs (step (begun (packBits 8 (bits ([1, 0, 1] ++ [0, 0, 0, 0, 0] ++ [0, 0, 0, 0, 0] ++ [0, 0, 0, 0] ++
      [1, 0, 0, 1, 0, 0, 1, 0, 0, 0, 0, 0]))))) (failed .dataCorruption .oversubscribedCode) = true := by decide +kernel

/-- 95_test_vectors.md W6. -/
theorem test_blkReserved : nextIs (step (begun [0x07])) (failed .dataCorruption .reservedBtype) = true := by
  decide +kernel

/-- 95_test_vectors.md V42-7: an empty source under both policies. -/
theorem test_empty_source :
    (nextIs (step (begun [])) (failed .outOfRange .none) &&
      faultIs (step { begun [] with policy := .raw }) .undefinedSourceRead) = true := by decide +kernel

/-! ## Steps of the token loop -/

/-- 43_token_loop.md R551: the bits 01110001 append 'A'. -/
theorem test_lit_appends :
    nextIs (step (tok [0, 1, 1, 1, 0, 0, 0, 1])) (fun t =>
      outIs [0x41] t && decide (t.sym = wrote 65 ∧ t.pos = 8 ∧ t.phase = .tokens)) = true := by decide +kernel

/-- 20_memory.md R212: a full output. -/
theorem test_lit_full :
    nextIs (step { tok [0, 1, 1, 1, 0, 0, 0, 1] with outCapacity := some 0 }) (failed .capacityExceeded .none) = true := by
  decide +kernel

/-- 43_token_loop.md R552, 42_inflate_blocks.md R508, R509: a final block. -/
theorem test_eob_final :
    nextIs (step (tok [0, 0, 0, 0, 0, 0, 0])) (fun t =>
      decide (t.status = .doneOk ∧ hostFinalPos t = some ⟨0, 7⟩)) = true := by decide +kernel

/-- 42_inflate_blocks.md R508: the next header follows with no alignment. -/
theorem test_eob_not_final :
    nextIs (step { tok [0, 0, 0, 0, 0, 0, 0] with bfinal := wrote false }) (fun t =>
      decide (t.phase = .blockHeader ∧ t.pos = 7)) = true := by decide +kernel

/-- Every length code with all extra bits 0, and with all extra bits 1: the least and the greatest length of its rule. -/
theorem test_length_codes :
    (lengthVectors.all fun r =>
      nextIs (step (tok (r.1 ++ List.replicate r.2.2.2.1 0))) (fun t =>
        decide (t.matchLen = wrote (BitVec.ofNat 9 r.2.2.2.2.1) ∧ t.sym = wrote (BitVec.ofNat 9 r.2.2.1) ∧
          t.distPending = true ∧ t.pos = r.1.length + r.2.2.2.1)) &&
      nextIs (step (tok (r.1 ++ List.replicate r.2.2.2.1 1))) (fun t =>
        decide (t.matchLen = wrote (BitVec.ofNat 9 r.2.2.2.2.2)))) = true := by decide +kernel

/-- Every distance code with all extra bits 0, and with all extra bits 1: the least and the greatest distance of its rule,
which with no output is too far (43_token_loop.md R617). -/
theorem test_distance_codes :
    (distVectors.all fun r =>
      nextIs (step (tokDist (r.1 ++ List.replicate r.2.2.2.1 0) 3)) (fun t =>
        failed .dataCorruption .distanceTooFar t &&
        decide (t.matchDist = wrote (BitVec.ofNat 16 r.2.2.2.2.1) ∧ t.dsym = wrote (BitVec.ofNat 5 r.2.2.1) ∧
          t.pos = 5 + r.2.2.2.1)) &&
      nextIs (step (tokDist (r.1 ++ List.replicate r.2.2.2.1 1) 3)) (fun t =>
        decide (t.matchDist = wrote (BitVec.ofNat 16 r.2.2.2.2.2)))) = true := by decide +kernel

/-- 43_token_loop.md R583. -/
theorem test_litlenInvalid :
    nextIs (step (tok [1, 1, 0, 0, 0, 1, 1, 1])) (failed .dataCorruption .invalidLitlenSymbol) = true := by decide +kernel

/-- 43_token_loop.md R616. -/
theorem test_distInvalid :
    nextIs (step (tokDist [1, 1, 1, 1, 0] 3)) (failed .dataCorruption .invalidDistanceSymbol) = true := by decide +kernel

/-- 95_test_vectors.md W5, 43_token_loop.md R619: length 4 at distance 1 after 'a'. -/
theorem test_copy_repeats_a_byte :
    nextIs (step (having (tokDist [0, 0, 0, 0, 0] 4) [0x61])) (fun t =>
      outIs [0x61, 0x61, 0x61, 0x61, 0x61] t && decide (t.distPending = false ∧ t.copyRemain = wrote 0)) = true := by
  decide +kernel

/-- 95_test_vectors.md V43-3: "abc" and a match at distance 3 repeat; the shape of the overlap of R619. -/
theorem test_copy_repeats_a_pattern :
    nextIs (step (having (tokDist [0, 0, 0, 1, 0] 8) [0x61, 0x62, 0x63]))
      (outIs [0x61, 0x62, 0x63, 0x61, 0x62, 0x63, 0x61, 0x62, 0x63, 0x61, 0x62]) = true := by decide +kernel

/-- 43_token_loop.md R621: a copy that runs out of capacity. -/
theorem test_copy_full :
    nextIs (step { having (tokDist [0, 0, 0, 0, 0] 4) [0x61] with outCapacity := some 3 })
      (failed .capacityExceeded .none) = true := by decide +kernel

/-! ## Steps of a dynamic header (44_dynamic_header.md R706 to R712, the examples of P3) -/

/-- A dynamic header between its code-length elements, with the CL tree of P3. -/
def hdr (l : List Nat) (lengths : List (BitVec 4)) (hlit : BitVec 9) (hdist : BitVec 6) : State :=
  { begun (packBits (l.length / 8 + 1) (bits l)) with
    phase := .dynHeader, bfinal := wrote true, btype := wrote 2, hlit := wrote hlit, hdist := wrote hdist
    clTree := wrote (canonicalTree clLengthsP3), lengths := wrote lengths }

/-- R706: the code 1111 appends 3. -/
theorem test_clLen :
    nextIs (step (hdr [1, 1, 1, 1] [] 259 2)) (fun t =>
      decide (t.lengths = wrote [3] ∧ t.pos = 4 ∧ t.phase = .dynHeader)) = true := by decide +kernel

/-- R707: after 3, the code 101 with x = 0 appends three more. -/
theorem test_clRep16 :
    nextIs (step (hdr [1, 0, 1, 0, 0] [0, 3] 259 2)) (fun t =>
      decide (t.lengths = wrote [0, 3, 3, 3, 3] ∧ t.pos = 5)) = true := by decide +kernel

/-- R707: as the first element. -/
theorem test_clRep16_first :
    nextIs (step (hdr [1, 0, 1, 0, 0] [] 259 2)) (failed .dataCorruption .repeatWithoutPrevious) = true := by decide +kernel

/-- R708: the code 110 with x = 7 appends ten zeros. -/
theorem test_clZero17 :
    nextIs (step (hdr [1, 1, 0, 1, 1, 1] [3] 259 2)) (fun t =>
      decide (t.lengths = wrote (3 :: List.replicate 10 0) ∧ t.pos = 6)) = true := by decide +kernel

/-- R709: the code 01 with x = 75 appends 86 zeros. -/
theorem test_clZero18 :
    nextIs (step (hdr [0, 1, 1, 1, 0, 1, 0, 0, 1] [] 259 2)) (fun t =>
      decide (t.lengths = wrote (List.replicate 86 0) ∧ t.pos = 9)) = true := by decide +kernel

/-- R710: a run past the end appends nothing. -/
theorem test_run_past_the_end :
    nextIs (step (hdr [1, 1, 0, 0, 0, 0] [1, 1] 3 1)) (fun t =>
      failed .dataCorruption .codeLengthOverrun t && decide (t.lengths = wrote [1, 1])) = true := by decide +kernel

/-- R711, R712: the last element, a repeat across the split, builds both trees (of three and of two symbols here). -/
theorem test_last_element_builds_trees :
    nextIs (step (hdr [1, 0, 1, 0, 0] [1, 2] 3 2)) (fun t =>
      decide (t.phase = .tokens ∧ t.distPending = false ∧ t.lengths = wrote [1, 2, 2, 2, 2]) &&
      finds t.litTree.val [0] 0 && finds t.litTree.val [1, 1] 2 && finds t.distTree.val [0, 1] 1) = true := by
  decide +kernel

/-- R711, 41_huffman_trees.md R456. -/
theorem test_oversubscribed_split :
    nextIs (step (hdr [1, 0, 1, 0, 0] [1, 1] 4 1)) (failed .dataCorruption .oversubscribedCode) = true := by decide +kernel

/-! ## The host -/

/-- 42_inflate_blocks.md R500: a set-up, then `START`, from power-on. -/
theorem test_setup_then_start :
    nextIs (Host.Core.run core 2 { State.reset with hostCmds := [.setup [0x03, 0x00] .raw, .start] }) (fun t =>
      decide (t.phase = .blockHeader ∧ t.srcLen = 2 ∧ t.policy = .raw ∧ Memory.read t.src 0 = 3 ∧ t.hostCmds = [])) =
      true := by decide +kernel

/-- 70_reset_and_hazards.md R902, with one element of the decode before it. -/
theorem test_power_on_reset_while_busy :
    nextIs (Host.Core.run core 2 { begun [0x03, 0x00] with hostCmds := [.powerOnReset 1] }) (fun t =>
      decide (t.status = .idle ∧ t.btype = unwritten 0 ∧ Memory.read t.src 0 = 3)) = true := by decide +kernel

/-! ## Words of the opcode table -/

/-- A word of each format decodes, and the step after it is laid out runs it. -/
theorem test_table_words :
    [decodeTableWord 8 0, decodeTableWord 8 4, decodeTableWord 16 65, decodeTableWord 16 256, decodeTableWord 16 285,
      decodeTableWord 8 5, decodeTableWord 16 29, decodeTableWord 8 16] =
    [some (.blkStored false), some (.blkDynamic false), some (.lit 65), some .eob, some .len285, some .dist5,
      some .dist29, some .clRep16] := by decide +kernel

theorem test_withFetchWord :
    (nextIs (step (State.reset.withFetchWord 16 65)) (outIs [65]) &&
      nextIs (step (State.reset.withFetchWord 8 2)) (fun t => decide (t.phase = .tokens)) &&
      nextIs (step (State.reset.withFetchWord 8 16)) (failed .dataCorruption .repeatWithoutPrevious) &&
      nextIs (step (State.reset.withFetchWord 8 5)) (failed .dataCorruption .distanceTooFar)) = true := by decide +kernel

/-! ## Witnesses: states and operands that meet the hypotheses of the obligations -/

theorem hasBits_of {s : State} {n : Nat} (h : decide (s.pos + n ≤ 8 * s.srcLen) = true) : s.hasBits n := by
  simpa [State.hasBits] using h

theorem not_hasBits_of {s : State} {n : Nat} (h : decide (s.pos + n ≤ 8 * s.srcLen) = false) : ¬ s.hasBits n := by
  simpa [State.hasBits] using h

theorem hasRoom_unbounded {s : State} (n : Nat) (h : s.outCapacity = none) : s.hasRoom n := by
  intro k hk
  rw [h] at hk
  cases hk

theorem hasRoom_bounded {s : State} {k : Nat} (n : Nat) (h : s.outCapacity = some k) :
    s.hasRoom n ↔ s.outLen + n ≤ k := by
  simp [State.hasRoom, h]

/-- The state with all bits of its source zero, `n` bytes long, and the capacity `k`. -/
def zeros (n : Nat) (k : Option Nat) : State := { begun [] with srcLen := n, outCapacity := k }

/-- The state with `n` output bytes, all zero. -/
def zerosOut (s : State) (n : Nat) : State := { s with out := [], outLen := n }

/-- PowerOnResetEndsAnyDecode: a running decode whose power-on reset is due. -/
theorem witness_powerOnReset :
    let s : State := { begun [0x03] with hostCmds := [.powerOnReset 0, .start] }
    s.hostCmds = .powerOnReset 0 :: [.start] ∧ s.status = .busy := by decide

/-- StartBeginsADecode: on an idle instance, and after an error. -/
theorem witness_start :
    let s : State := { State.reset with hostCmds := [.start] }
    s.hostCmds = .start :: [] ∧ s.status ≠ .busy ∧ (s.abort .outOfRange .none).status ≠ .busy := by decide

/-- SetupSuppliesTheInputs. -/
theorem witness_setup :
    let s : State := { State.reset with hostCmds := [.setup [0x03, 0x00] .raw, .start] }
    s.hostCmds = .setup [0x03, 0x00] .raw :: [.start] ∧ s.status ≠ .busy := by decide

/-- SetupAndStartWaitWhileBusy: both commands. -/
theorem witness_wait :
    (begun [0x03]).status = .busy ∧ { begun [0x03] with hostCmds := [.start] }.hostCmds = .start :: [] ∧
      { begun [0x03] with hostCmds := [.setup [] .raw] }.hostCmds = .setup [] .raw :: [] := by decide

/-- IdleInstanceKeepsItsState: idle, done and in error. -/
theorem witness_idle :
    State.reset.hostCmds = [] ∧ State.reset.status ≠ .busy ∧ State.reset.complete.status ≠ .busy ∧
      (State.reset.abort .outOfRange .none).status ≠ .busy := by decide

/-- OutputIsReadableExactlyAfterSuccess: each of its two clauses. -/
theorem witness_readable : State.reset.status ≠ .doneOk ∧ (having State.reset [7]).complete.status = .doneOk := by decide

/-- StepRunsTheDecodedElement: a header, a literal, a fixed distance number. -/
theorem witness_step :
    (hostTurn (begun [0x03]) = none ∧ (begun [0x03]).hasBits 0 ∧ (begun [0x03]).awaitedCode = some .header ∧
      decodeBits .header (begun [0x03]).bitsLeft = .ok (.blkFixed true, bits [0, 0, 0, 0, 0])) ∧
    ((tok [0, 1, 1, 1, 0, 0, 0, 1]).awaitedCode = some (.huffman .litlenSymbol fixedLitTree) ∧
      decodeBits (.huffman .litlenSymbol fixedLitTree) ((tok [0, 1, 1, 1, 0, 0, 0, 1]).bitsLeft.take 8) =
        .ok (.lit 65, [])) ∧
    (hostTurn (tokDist [0, 0, 0, 0, 1] 3) = none ∧ (tokDist [0, 0, 0, 0, 1] 3).awaitedCode = some .fixedDist ∧
      decodeBits .fixedDist (tokDist [0, 0, 0, 0, 1] 3).bitsLeft = .ok (.dist1, bits [0, 0, 0])) :=
  ⟨⟨rfl, hasBits_of (by decide), rfl, rfl⟩, ⟨rfl, rfl⟩, rfl, rfl, rfl⟩

/-- UnusedCodeRaisesUnknownSymbol: the empty code-length tree. -/
theorem witness_unusedCode :
    let s : State := { hdr [0, 0] [] 257 1 with clTree := wrote emptyTree }
    hostTurn s = none ∧ s.hasBits 0 ∧ s.awaitedCode = some (.huffman .clSymbol emptyTree) ∧
      decodeBits (.huffman .clSymbol emptyTree) s.bitsLeft = .error .noCode :=
  ⟨rfl, hasBits_of (by decide), rfl, rfl⟩

/-- SourceEndingInAValueOverruns: an empty source, under each policy. -/
theorem witness_truncated :
    hostTurn (begun []) = none ∧ (begun []).hasBits 0 ∧ (begun []).awaitedCode = some .header ∧
      decodeBits .header (begun []).bitsLeft = .error .truncated ∧ (begun []).policy = .checked ∧
      ({ begun [] with policy := .raw } : State).policy = .raw :=
  ⟨rfl, hasBits_of (by decide), rfl, rfl, rfl, rfl⟩

/-- EncodedElementsDecodeBack: the ends of the ranges of the operands. -/
theorem witness_wellFormed :
    [wellFormed (.lit 0), wellFormed (.lit 255), wellFormed (.litlenInvalid 286), wellFormed (.litlenInvalid 287),
      wellFormed (.distInvalid 30), wellFormed (.distInvalid 31), wellFormed (.clLen 0), wellFormed (.clLen 15),
      wellFormed .eob, wellFormed (.blkReserved true)] = List.replicate 10 true := by decide

/-- OpcodeMapIsOneToOne: a value of each format. -/
theorem witness_opcodeMap :
    decodeValue .blockHdr 7 = .ok (.blkReserved true) ∧ decodeValue .litlenSymbol 287 = .ok (.litlenInvalid 287) ∧
      decodeValue .distSymbol 31 = .ok (.distInvalid 31) ∧ decodeValue .clSymbol 18 = .ok .clZero18 :=
  ⟨rfl, rfl, rfl, rfl⟩

/-- CodesOfALengthAreConsecutive, CanonicalTreeDecodesItsCodes, CanonicalTreeHasNoOtherCodes: code lengths 15 and 1, a used
symbol, and bits that find one. -/
theorem witness_canonical :
    (∀ l ∈ [1, 0, 15], l ≤ 15) ∧ (buildCanonical [1, 0, 15]).isSome = true ∧ 2 < [1, 0, 15].length ∧
      [1, 0, 15].getD 2 0 ≠ 0 ∧ 1 ≤ 15 ∧ walk (canonicalTree [1, 0, 15]) [false] = .found 0 [] := by decide +kernel

/-- EncodeThenDecodeReturnsTheSymbol: a symbol with a leaf and one without, and a source that holds its code. -/
theorem witness_encode :
    5 ∈ leaves (canonicalTree [3, 3, 3, 3, 3, 2, 4, 4]) ∧ 9 ∉ leaves (canonicalTree [3, 3, 3, 3, 3, 2, 4, 4]) ∧
      (begun [0x00]).hasBits 2 ∧ (begun [0x00]).bitsAt (begun [0x00]).pos 2 = bits [0, 0] :=
  ⟨by decide +kernel, by decide +kernel, hasBits_of (by decide), rfl⟩

/-- FrequencyBuildHasTheMapsSymbols: its three cases. -/
theorem witness_frequency : ([] : List (Nat × Nat)) = [] ∧ [(5, 7)] = [(5, 7)] ∧ [(0, 1), (1, 1)] ≠ ([] : List (Nat × Nat)) := by
  decide

/-- FieldReadsAreBitReversals, OverrunExactlyPastTheEnd: a field that fits, also one of no bits at the very end. -/
theorem witness_fields : (at_ 0 6).hasBits 10 ∧ (at_ 2 0).hasBits 0 ∧ ¬ (at_ 0 6).hasBits 11 :=
  ⟨hasBits_of (by decide), hasBits_of (by decide), not_hasBits_of (by decide)⟩

/-- AlignMovesToTheNextBoundary, ReadByteIsReadBitsEight: before the last byte, at the end, and off a boundary. -/
theorem witness_readByte :
    (at_ 1 0).bitIdx = 0 ∧ (at_ 1 0).byteIdx < (at_ 1 0).srcLen ∧ (at_ 2 0).bitIdx = 0 ∧
      (at_ 2 0).srcLen ≤ (at_ 2 0).byteIdx ∧ (at_ 0 1).bitIdx ≠ 0 := by decide

/-- A stored block of all zeros but its length bytes, of `n` source bytes and capacity `k`. -/
def storedAt (len0 len1 nlen0 nlen1 : Byte) (n : Nat) (k : Option Nat) : State :=
  { begun [len0, len1, nlen0, nlen1] with srcLen := n, outCapacity := k }

/-- StoredBlockCopiesItsBytes: no bytes at all, and 65535. -/
theorem witness_stored :
    (let s := storedAt 0 0 0xFF 0xFF 4 (some 0)
     s.alignedPos + 32 + 8 * s.field s.alignedPos 16 ≤ 8 * s.srcLen ∧
      s.field s.alignedPos 16 + s.field (s.alignedPos + 16) 16 = 65535) ∧
    (storedAt 0 0 0xFF 0xFF 4 (some 0)).hasRoom 0 ∧
    (let s := storedAt 0xFF 0xFF 0 0 65539 none
     s.alignedPos + 32 + 8 * s.field s.alignedPos 16 ≤ 8 * s.srcLen ∧
      s.field s.alignedPos 16 + s.field (s.alignedPos + 16) 16 = 65535) ∧
    (storedAt 0xFF 0xFF 0 0 65539 none).hasRoom 65535 :=
  ⟨by decide +kernel, (hasRoom_bounded 0 rfl).mpr (by decide), by decide +kernel, hasRoom_unbounded _ rfl⟩

/-- StoredLengthMismatchIsCorruption: lengths that differ from their complement by one. -/
theorem witness_storedMismatch :
    let s := storedAt 1 0 0xFF 0xFF 4 none
    s.alignedPos + 32 ≤ 8 * s.srcLen ∧ s.field s.alignedPos 16 ≠ 65535 - s.field (s.alignedPos + 16) 16 := by
  decide +kernel

/-- StoredBlockCutShort: one byte short in the lengths, one byte short in the payload, and one byte of room too few. -/
theorem witness_storedCut :
    (let s := storedAt 1 0 0xFE 0xFF 3 none
     8 * s.srcLen < s.alignedPos + 32) ∧
    (let s := storedAt 1 0 0xFE 0xFF 4 none
     8 * s.srcLen < s.alignedPos + 32 + 8 * s.field s.alignedPos 16 ∧
      s.field s.alignedPos 16 + s.field (s.alignedPos + 16) 16 = 65535) ∧
    (let s := storedAt 1 0 0xFE 0xFF 5 (some 0)
     s.alignedPos + 32 + 8 * s.field s.alignedPos 16 ≤ 8 * s.srcLen ∧
      s.field s.alignedPos 16 + s.field (s.alignedPos + 16) 16 = 65535) ∧
    (storedAt 1 0 0xFE 0xFF 3 none).hasBits 0 ∧ (storedAt 1 0 0xFE 0xFF 4 none).hasBits 0 ∧
    (storedAt 1 0 0xFE 0xFF 4 none).hasRoom 1 ∧ (storedAt 1 0 0xFE 0xFF 5 (some 0)).hasBits 0 ∧
    (storedAt 1 0 0xFE 0xFF 5 (some 0)).hasRoom 0 ∧ ¬ (storedAt 1 0 0xFE 0xFF 5 (some 0)).hasRoom 1 :=
  ⟨by decide +kernel, by decide +kernel, by decide +kernel, hasBits_of (by decide), hasBits_of (by decide),
    hasRoom_unbounded _ rfl, hasBits_of (by decide), (hasRoom_bounded 0 rfl).mpr (by decide),
    fun h => absurd ((hasRoom_bounded 1 rfl).mp h) (by decide)⟩

/-- DynamicBlockReadsItsHeader: all fields zero, so HCLEN is 4 and 26 bits are read, the last of them the last of a source
of 26 bits and the padding of its last byte. -/
theorem witness_dynamic :
    (zeros 4 none).field ((zeros 4 none).pos + 10) 4 + 4 = 4 ∧ (zeros 4 none).hasBits (14 + 3 * 4) ∧
      oversubscribed (countLengths (((zeros 4 none).clLengths ((zeros 4 none).pos + 14) 4).toList.map BitVec.toNat)) =
        false :=
  ⟨by decide +kernel, hasBits_of (by decide), by decide +kernel⟩

/-- A dynamic header whose first three code-length code lengths are 1. -/
def dynOver : State :=
  begun (packBits 8 (bits ([0, 0, 0, 0, 0] ++ [0, 0, 0, 0, 0] ++ [0, 0, 0, 0] ++ [1, 0, 0, 1, 0, 0, 1, 0, 0, 0, 0, 0])))

/-- DynamicHeaderErrors: an over-subscribed code, a source that ends in the counts, and one that ends in the lengths. -/
theorem witness_dynamicErrors :
    dynOver.hasBits 0 ∧ dynOver.field (dynOver.pos + 10) 4 + 4 = 4 ∧ dynOver.hasBits (14 + 3 * 4) ∧
      oversubscribed (countLengths ((dynOver.clLengths (dynOver.pos + 14) 4).toList.map BitVec.toNat)) = true ∧
      (zeros 1 none).hasBits 0 ∧ ¬ (zeros 1 none).hasBits 14 ∧ (zeros 3 none).hasBits 14 ∧
      ¬ (zeros 3 none).hasBits (14 + 3 * 4) :=
  ⟨hasBits_of (by decide), by decide +kernel, hasBits_of (by decide +kernel), by decide +kernel, hasBits_of (by decide),
    not_hasBits_of (by decide), hasBits_of (by decide), not_hasBits_of (by decide)⟩

/-- LiteralAppendsItsByte: the last literal, with room and without. -/
theorem witness_literal :
    wellFormed (.lit 255) = true ∧ (zeros 1 (some 1)).outCapacity ≠ some (zeros 1 (some 1)).outLen ∧
      (zeros 1 (some 0)).outCapacity = some (zeros 1 (some 0)).outLen := by decide

/-- EndOfBlockFollowsTheFinalBit: both values of the final bit. -/
theorem witness_endOfBlock :
    (tok []).bfinal.written = true ∧ (tok []).bfinal.val = true ∧
      ({ tok [] with bfinal := wrote false } : State).bfinal = wrote false := by decide

/-- LengthCodesReadTheirLengths: a code without extra bits at the end of the source, and one with five. -/
theorem witness_lengthCodes :
    (Instr.len285, 285, 0, 258) ∈ lengthRows ∧ (at_ 2 0).hasBits 0 ∧ (Instr.len284, 284, 5, 227) ∈ lengthRows ∧
      (at_ 1 3).hasBits 5 :=
  ⟨by decide, hasBits_of (by decide), by decide, hasBits_of (by decide)⟩

/-- InvalidSymbolsAreCorruption. -/
theorem witness_invalid : wellFormed (.litlenInvalid 287) = true ∧ wellFormed (.distInvalid 31) = true := by decide

/-- A distance symbol with 13 extra bits, all ones, is next, after `n` output bytes. -/
def farMatch (n : Nat) (k : Option Nat) : State :=
  { zerosOut (tokDist (List.replicate 13 1) 258) n with outCapacity := k }

/-- DistanceCodesCopyTheirMatch, MatchRepeatsTheLastBytes: the greatest distance, exactly as far as the output reaches, and
the greatest length, exactly as long as the capacity allows. -/
theorem witness_distance :
    (Instr.dist29, 29, 13, 24577) ∈ distRows ∧ (farMatch 32768 (some 33026)).hasBits 13 ∧
      (farMatch 32768 (some 33026)).matchLen.written = true ∧
      24577 + (farMatch 32768 (some 33026)).field (farMatch 32768 (some 33026)).pos 13 ≤ 32768 ∧
      (farMatch 32768 (some 33026)).hasRoom 258 ∧ Memory.wf (farMatch 32768 (some 33026)).out = true :=
  ⟨by decide, hasBits_of (by decide), rfl, by decide +kernel, (hasRoom_bounded _ rfl).mpr (by decide), rfl⟩

/-- DistanceTooFarIsCorruption: one byte too far. -/
theorem witness_tooFar :
    (farMatch 32767 none).hasBits 13 ∧
      (farMatch 32767 none).outLen < 24577 + (farMatch 32767 none).field (farMatch 32767 none).pos 13 :=
  ⟨hasBits_of (by decide), by decide +kernel⟩

/-- CopyThatDoesNotFitRaises: one byte of room too few. -/
theorem witness_copyFull :
    (farMatch 32768 (some 33025)).hasBits 13 ∧ (farMatch 32768 (some 33025)).hasRoom 0 ∧
      ¬ (farMatch 32768 (some 33025)).hasRoom 258 :=
  ⟨hasBits_of (by decide), (hasRoom_bounded _ rfl).mpr (by decide),
    fun h => absurd ((hasRoom_bounded 258 rfl).mp h) (by decide)⟩

/-- ExtraBitsCutShortOverrun: a length code, a distance code and each run, one bit short or more. -/
theorem witness_extraBits :
    (at_ 1 4).hasBits 0 ∧ ¬ (at_ 1 4).hasBits 5 ∧ (Instr.len281, 281, 5, 131) ∈ lengthRows ++ distRows ∧
      (Instr.dist13, 13, 5, 97) ∈ lengthRows ++ distRows ∧ ¬ (at_ 1 7).hasBits 2 ∧ (hdr [] [7] 257 1).lengths.written = true ∧
      (clRunOf .clRep16 { at_ 1 7 with lengths := wrote [7] }).isSome = true ∧
      (clRunOf .clZero17 (at_ 1 6)).map Prod.fst = some 3 ∧ ¬ (at_ 1 6).hasBits 3 ∧
      (clRunOf .clZero18 (at_ 1 2)).map Prod.fst = some 7 ∧ ¬ (at_ 1 2).hasBits 7 :=
  ⟨hasBits_of (by decide), not_hasBits_of (by decide), by decide, by decide, not_hasBits_of (by decide), rfl,
    by decide +kernel, by decide +kernel, not_hasBits_of (by decide), by decide +kernel, not_hasBits_of (by decide)⟩

/-- CodeLengthRunsAppend: the greatest run of `CL_ZERO18` that leaves one length to come, and a single length. -/
theorem witness_runs :
    (let s := hdr (List.replicate 7 1) [] 138 1
     clRunOf .clZero18 s = some (7, 0, 138) ∧ s.lengths.val.length + 138 < s.hlit.val.toNat + s.hdist.val.toNat) ∧
    (let s := hdr [] [] 1 1
     clRunOf (.clLen 15) s = some (0, 15, 1) ∧ s.lengths.val.length + 1 < s.hlit.val.toNat + s.hdist.val.toNat) ∧
    (hdr (List.replicate 7 1) [] 138 1).hasBits 7 ∧ (hdr [] [] 1 1).hasBits 0 ∧ wellFormed (.clLen 15) = true :=
  ⟨by decide +kernel, by decide +kernel, hasBits_of (by decide), hasBits_of (by decide), rfl⟩

/-- LastCodeLengthBuildsBothTrees: a run of three across the split. -/
theorem witness_lastRun :
    let s := hdr [0, 0] [1, 2] 3 2
    clRunOf .clRep16 s = some (2, 2, 3) ∧
      (s.lengths.val ++ List.replicate 3 2).length = s.hlit.val.toNat + s.hdist.val.toNat ∧
      oversubscribed (countLengths [1, 2, 2]) = false ∧ oversubscribed (countLengths [2, 2]) = false ∧
      ((s.lengths.val ++ List.replicate 3 (2 : BitVec 4)).map BitVec.toNat).take s.hlit.val.toNat = [1, 2, 2] ∧
      ((s.lengths.val ++ List.replicate 3 (2 : BitVec 4)).map BitVec.toNat).drop s.hlit.val.toNat = [2, 2] := by
  decide +kernel

/-- OverSubscribedTreesAreCorruption: either of the two sets. -/
theorem witness_oversubscribed :
    (let s := hdr [0, 0] [1, 1] 4 1
     clRunOf .clRep16 s = some (2, 1, 3) ∧
      (s.lengths.val ++ List.replicate 3 1).length = s.hlit.val.toNat + s.hdist.val.toNat ∧
      oversubscribed (countLengths [1, 1, 1, 1]) = true) ∧
    (let s := hdr [0, 0] [1, 1] 2 3
     clRunOf .clRep16 s = some (2, 1, 3) ∧
      (s.lengths.val ++ List.replicate 3 1).length = s.hlit.val.toNat + s.hdist.val.toNat ∧
      oversubscribed (countLengths [1, 1, 1]) = true) := by decide +kernel

/-- RunPastTheEndIsCorruption: one length too many. -/
theorem witness_pastTheEnd :
    let s := hdr [0, 0, 0] [1, 1] 3 1
    clRunOf .clZero17 s = some (3, 0, 3) ∧ s.hlit.val.toNat + s.hdist.val.toNat < s.lengths.val.length + 3 := by
  decide +kernel

/-- RepeatWithoutPreviousIsCorruption. -/
theorem witness_noPrevious : (hdr [] [] 257 1).lengths.written = true ∧ (hdr [] [] 257 1).lengths.val = [] := by decide

/-- StoredBytesAndNoOthersAreWritten: its literal; its stored block is that of witness_stored. -/
theorem witness_storedBytes :
    wellFormed (.lit 255) = true ∧ (zeros 1 none).outCapacity ≠ some (zeros 1 none).outLen ∧
      Memory.wf (zeros 1 none).out = true ∧ Memory.wf (storedAt 0xFF 0xFF 0 0 65539 none).out = true := by decide

/-- UnwrittenReadsFault: a state that has written nothing, with the source and the output that each clause asks for. -/
theorem witness_unwritten :
    (zeros 1 none).bfinal.written = false ∧ (zeros 1 none).lengths.written = false ∧ (zeros 1 none).hasBits 7 ∧
      (Instr.dist0, 0, 0, 1) ∈ distRows ∧
      1 + (zerosOut (zeros 1 none) 1).field (zerosOut (zeros 1 none) 1).pos 0 ≤ (zerosOut (zeros 1 none) 1).outLen ∧
      (zerosOut (zeros 1 none) 1).matchLen.written = false :=
  ⟨rfl, rfl, hasBits_of (by decide), by decide, by decide, rfl⟩

/-- The same, a code-length element without its counts: one that repeats a previous length, with its extra bits. -/
theorem witness_unwritten_counts :
    let s : State := { zeros 1 none with lengths := wrote [2] }
    clRunOf .clRep16 s = some (2, 2, 3) ∧ s.hasBits 2 ∧ s.hlit.written = false ∧ s.hdist.written = false ∧
      faultIs (exec .clRep16 s) .unwrittenRegisterRead = true :=
  ⟨by decide, hasBits_of (by decide), rfl, rfl, by decide⟩

/-- The same, the reads of a step: in a dynamic header, in the token loop of a block without a type and of a dynamic
block without its trees, and in a stored block with and without bytes to copy. -/
theorem witness_unwritten_step :
    let s : State := { zeros 1 none with phase := .tokens }
    let d : State := { s with btype := wrote 2 }
    let c : State := { s with phase := .stored, remain := wrote 1 }
    hostTurn s = none ∧ s.clTree.written = false ∧ s.btype.written = false ∧ d.btype.val ≠ 1 ∧
      d.distPending = false ∧ d.litTree.written = false ∧ d.distTree.written = false ∧ s.remain.written = false ∧
      c.bitIdx = 0 ∧ c.hasBits 8 ∧ c.hasRoom 1 ∧ c.bfinal.written = false ∧
      faultIs (step { s with phase := .dynHeader }) .unwrittenRegisterRead = true ∧
      faultIs (step { d with distPending := true }) .unwrittenRegisterRead = true ∧
      faultIs (step c) .unwrittenRegisterRead = true :=
  ⟨rfl, rfl, rfl, by decide, rfl, rfl, rfl, rfl, rfl, hasBits_of (by decide), hasRoom_unbounded _ rfl, rfl,
    by decide, by decide, by decide⟩

/-- ElementsWriteOnlyTheirRegisters: an element of each format, and for each clause one that it protects from. -/
theorem witness_frames :
    (nextIs (exec (.blkFixed true) (begun [])) (fun _ => true) && nextIs (exec .eob (tok [])) (fun _ => true) &&
      nextIs (exec (.distInvalid 30) (tok [])) (fun _ => true) &&
      nextIs (exec (.clLen 3) (hdr [] [] 257 1)) (fun _ => true)) = true ∧
    (∀ f, Instr.blkFixed true ≠ .blkStored f) ∧ (∀ f, Instr.blkFixed true ≠ .blkDynamic f) ∧
    formatOf (.blkFixed true) ≠ .clSymbol ∧ (∀ row ∈ lengthRows, Instr.eob ≠ row.1) ∧
    (∀ row ∈ distRows, Instr.distInvalid 30 ≠ row.1) ∧ Instr.distInvalid 30 ≠ .eob ∧
    formatOf .eob ≠ .blockHdr ∧ formatOf .eob ≠ .clSymbol ∧ formatOf (.clLen 3) ≠ .litlenSymbol ∧
    formatOf (.clLen 3) ≠ .distSymbol := by decide +kernel

/-- DecodeNeverChangesItsInputs, OutputIsAppendOnly, CursorNeverMovesBack: a step of a decode that appends. -/
theorem witness_decodeStep :
    hostTurn (tok [0, 1, 1, 1, 0, 0, 0, 1]) = none ∧
      nextIs (step (tok [0, 1, 1, 1, 0, 0, 0, 1])) (fun t => decide (t.outLen = 1)) = true := by decide +kernel

/-- SuccessOnlyAfterTheFinalBlock: symbol 256 of a fixed block, and a stored block of no bytes. -/
theorem witness_success :
    (tok [0, 0, 0, 0, 0, 0, 0]).status = .busy ∧
      nextIs (step (tok [0, 0, 0, 0, 0, 0, 0])) (fun t => decide (t.status = .doneOk)) = true ∧
      (begun [1, 0, 0, 0xFF, 0xFF]).status = .busy ∧
      nextIs (step (begun [1, 0, 0, 0xFF, 0xFF])) (fun t => decide (t.status = .doneOk)) = true := by decide +kernel

/-- StepKeepsTheInvariant, OnlyTheRawReadFaults: a decode in the token loop, where a distance symbol is next, meets the
invariant. -/
theorem witness_inv : Inv (tokDist [0, 0, 0, 0, 0] 4) where
  srcWf := by decide
  outWf := rfl
  outBelow := fun _ _ => rfl
  capacity := hasRoom_unbounded _ rfl
  cursor := fun _ => hasBits_of (by decide)
  errKind := by decide
  errCause := by decide
  neverRaised := by decide
  notStored := by decide
  inBlock := fun _ => ⟨rfl, rfl⟩
  inHeader := fun h => absurd h (by decide)
  inTokens := fun _ => .inl rfl
  inMatch := fun _ _ => ⟨rfl, by decide, by decide⟩

/-- The same for a dynamic header, and a step from there. -/
theorem witness_inv_header : Inv (hdr [1, 1, 1, 1] [] 257 1) where
  srcWf := by decide
  outWf := rfl
  outBelow := fun _ _ => rfl
  capacity := hasRoom_unbounded _ rfl
  cursor := fun _ => hasBits_of (by decide)
  errKind := by decide
  errCause := by decide
  neverRaised := by decide
  notStored := by decide
  inBlock := fun _ => ⟨rfl, rfl⟩
  inHeader := fun _ => by
    refine ⟨rfl, rfl, rfl, rfl, rfl, ?_⟩
    refine ⟨by decide, by decide, by decide, by decide, by decide, ?_⟩
    exact ⟨by decide +kernel, by decide +kernel⟩
  inTokens := fun h => absurd h (by decide)
  inMatch := fun h => absurd h (by decide)

theorem witness_inv_step : nextIs (step (hdr [1, 1, 1, 1] [] 257 1)) (fun _ => true) = true := by decide +kernel

/-- PoliciesAgreeUntilTheEndOfSource: a decode that ends well, and one that runs out of source. -/
theorem witness_policies :
    (begun [0x03, 0x00]).policy = .checked ∧ (begun [0x03, 0x00]).hostCmds = [] ∧
      nextIs (Host.Core.run core 3 (begun [0x03, 0x00]).start) (fun t => decide (t.errKind ≠ .outOfRange)) = true ∧
      nextIs (Host.Core.run core 1 (begun []).start) (fun t => decide (t.errKind = .outOfRange)) = true := by
  decide +kernel

/-- DecodeDependsOnItsInputsAlone: two states with the same inputs that differ elsewhere. -/
theorem witness_inputs :
    let s₁ := begun [0x03, 0x00]
    let s₂ : State := { begun [0x03, 0x00] with matchLen := wrote 77, litTree := wrote fixedLitTree, outLen := 9 }
    s₁.src = s₂.src ∧ s₁.srcLen = s₂.srcLen ∧ s₁.policy = s₂.policy ∧ s₁.outCapacity = s₂.outCapacity ∧
      s₁.hostCmds = [] ∧ s₂.hostCmds = [] ∧ s₁.outLen ≠ s₂.outLen ∧
      nextIs (Host.Core.run core 3 s₁.start) (fun _ => true) = true ∧
      faultIs (Host.Core.run core 1 { zeros 0 none with policy := .raw }.start) .undefinedSourceRead = true := by
  decide +kernel

/-- EveryDecodeEnds. -/
theorem witness_ends : (begun [0x03, 0x00]).hostCmds = [] ∧ Memory.wf (begun [0x03, 0x00]).src = true := by decide

end Sys2Proof.Tests
end

section
/-! PROOFS. How an operation of a decode can end, one rule per operation: what holds of the value and the state it
answers, and of the state in which it raises. -/

namespace Sys2Proof.Machine

/-! ## The ends of an operation -/

/-- The kinds and causes that a decode raises (60_exceptions.md R801 to R805, 10_state.md R106). -/
abbrev Raisable (k : ErrKind) (c : ErrCause) : Prop :=
  k ≠ .none ∧ k ≠ .emptyAlphabet ∧ k ≠ .unsupportedFeature ∧ (c ≠ .none ↔ k = .dataCorruption)

/-- Where the operation answers, `Q` holds of the value and the state; where it raises, it raises what a decode may
raise and `P` holds of the state. A fault leaves no state. -/
inductive Res.Ends {α : Type} : Res α → (State → Prop) → (α → State → Prop) → Prop where
  | ok {P Q a s} (h : Q a s) : Res.Ends (.ok a s) P Q
  | raise {P Q k c s} (hk : Raisable k c) (h : P s) : Res.Ends (.raise k c s) P Q
  | fault {P Q x} : Res.Ends (.fault x) P Q

section
variable {α β : Type} {P P' : State → Prop} {Q Q' : α → State → Prop}

theorem Res.Ends.mono {r : Res α} (h : r.Ends P' Q') (hP : ∀ s, P' s → P s) (hQ : ∀ a s, Q' a s → Q a s) :
    r.Ends P Q := by
  cases h with
  | ok h => exact .ok (hQ _ _ h)
  | raise hk h => exact .raise hk (hP _ h)
  | fault => exact .fault

theorem Res.Ends.bind {r : Res β} {f : β → State → Res α} {Q' : β → State → Prop} (h : r.Ends P' Q')
    (hP : ∀ s, P' s → P s) (hf : ∀ b s, Q' b s → (f b s).Ends P Q) : (r.bind f).Ends P Q := by
  cases h with
  | ok h => exact hf _ _ h
  | raise hk h => exact .raise hk (hP _ h)
  | fault => exact .fault

/-- A next state of an operation's outcome is the state it answers, or the aborted state in which it raises. -/
theorem Res.Ends.outcome {R : State → Prop} {Q : Unit → State → Prop} {r : Res Unit} {t : State} (h : r.Ends P Q)
    (hok : ∀ u s, Q u s → R s) (habort : ∀ k c s, Raisable k c → P s → R (s.abort k c)) (ht : r.outcome = .next t) :
    R t := by
  cases h with
  | ok h =>
    cases ht
    exact hok _ _ h
  | raise hk h =>
    cases ht
    exact habort _ _ _ hk h
  | fault => cases ht

/-- What follows a register read goes on with the register's value where it is written; any other read is a fault. -/
theorem readReg_bind_ends {r : Reg β} {s : State} {f : β → State → Res α}
    (h : r.written = true → (f r.val s).Ends P Q) : ((readReg r s).bind f).Ends P Q := by
  rw [readReg]
  split
  · exact h ‹_›
  · exact .fault

theorem sourceOverrun_ends {s : State} (h : P s) : (sourceOverrun s : Res α).Ends P Q := by
  rw [sourceOverrun]
  cases s.policy
  · exact .raise (by decide) h
  · exact .fault

end

/-! ## Moves of the cursor -/

/-- `t` is `s` with the cursor moved on, not past the end of `SRC` if it stood in it (10_state.md R102, R103). -/
def Ahead (s t : State) : Prop := ∃ p, s.pos ≤ p ∧ (s.hasBits 0 → p ≤ 8 * s.srcLen) ∧ t = s.moveTo p

theorem Ahead.refl (s : State) : Ahead s s := ⟨s.pos, Nat.le_refl _, fun h => h, (moveTo_pos s).symm⟩

theorem Ahead.trans {s t u : State} (hst : Ahead s t) (htu : Ahead t u) : Ahead s u := by
  obtain ⟨p, hp, hp', rfl⟩ := hst
  obtain ⟨q, hq, hq', rfl⟩ := htu
  rw [pos_moveTo] at hq
  refine ⟨q, Nat.le_trans hp hq, fun h => hq' ?_, rfl⟩
  simpa only [State.hasBits, pos_moveTo, moveTo_srcLen, Nat.add_zero] using hp' h

theorem ahead_moveTo {s : State} {n : Nat} (h : s.hasBits n) : Ahead s (s.moveTo (s.pos + n)) :=
  ⟨_, Nat.le_add_right _ _, fun _ => h, rfl⟩

theorem ahead_atEnd (s : State) : Ahead s s.atEnd := by
  refine ⟨_, Nat.le_max_left _ _, fun h => ?_, rfl⟩
  simp only [State.hasBits] at h
  omega

theorem ahead_alignToByte (s : State) : Ahead s (alignToByte s) := by
  rw [alignToByte_eq]
  refine ⟨_, ?_, fun h => ?_, rfl⟩ <;> simp only [State.hasBits, State.alignedPos] at * <;> omega

/-- The predicate is kept where only the cursor moves on. -/
def KeptByMoves (P : State → Prop) : Prop := ∀ s t, Ahead s t → P s → P t

/-! ## The reads of the cursor (40_bit_cursor.md) -/

theorem nextBit_ends (s : State) : (nextBit s).Ends (Ahead s) fun _ => Ahead s := by
  by_cases h : s.hasBits 1
  · rw [nextBit_eq h]
    exact .ok (ahead_moveTo h)
  · rw [nextBit_short h]
    exact sourceOverrun_ends (ahead_atEnd s)

/-- A read that begins with one bit: what follows it goes on from a cursor further on. -/
theorem nextBit_bind_ends {α : Type} {Q : α → Prop} {s : State} {f : Bool → State → Res α}
    (h : ∀ b t, (f b t).Ends (Ahead t) fun v u => Ahead t u ∧ Q v) :
    ((nextBit s).bind f).Ends (Ahead s) fun v u => Ahead s u ∧ Q v :=
  (nextBit_ends s).bind (fun _ ht => ht) fun b t ht =>
    (h b t).mono (fun _ => ht.trans) fun _ _ hu => ⟨ht.trans hu.1, hu.2⟩

theorem readBits_ends (n : Nat) (s : State) : (readBits n s).Ends (Ahead s) fun v t => Ahead s t ∧ v < 2 ^ n := by
  induction n generalizing s with
  | zero => exact .ok ⟨Ahead.refl s, Nat.one_pos⟩
  | succ n ih =>
    refine nextBit_bind_ends fun b t => (ih t).bind (fun _ hu => hu) fun v u hu => .ok ⟨hu.1, ?_⟩
    have := bitNat_lt b
    have := hu.2
    rw [Nat.pow_succ]
    omega

theorem readBitsReversedFrom_ends (v n : Nat) (s : State) :
    (readBitsReversedFrom v n s).Ends (Ahead s) fun _ t => Ahead s t ∧ True := by
  induction n generalizing v s with
  | zero => exact .ok ⟨Ahead.refl s, trivial⟩
  | succ n ih => exact nextBit_bind_ends fun b t => ih _ t

theorem decodeSymbol_ends (T : Tree) (s : State) :
    (decodeSymbol T s).Ends (Ahead s) fun _ t => Ahead s t ∧ True := by
  induction T generalizing s with
  | absent => exact .raise (by decide) (Ahead.refl s)
  | leaf x => exact .ok ⟨Ahead.refl s, trivial⟩
  | internal l r ihl ihr =>
    refine nextBit_bind_ends fun b t => ?_
    cases b
    · exact ihl t
    · exact ihr t

theorem readByte_ends (s : State) : (readByte s).Ends (Ahead s) fun _ => Ahead s := by
  by_cases h0 : s.bitIdx = 0
  · have hp := (bitIdx_eq_zero s).mp h0
    by_cases h : s.hasBits 8
    · rw [readByte_eq hp h]
      exact .ok (ahead_moveTo h)
    · rw [readByte_short hp h]
      exact sourceOverrun_ends (ahead_atEnd s)
  · rw [readByte, if_pos h0]
    exact .fault

theorem readLe16_ends (s : State) : (readLe16 s).Ends (Ahead s) fun _ => Ahead s :=
  (readByte_ends s).bind (fun _ ht => ht) fun _ t ht =>
    (readByte_ends t).bind (fun _ => ht.trans) fun _ _ hu => .ok (ht.trans hu)

theorem readBasePlus_ends (base n : Nat) (s : State) :
    (readBasePlus base n s).Ends (Ahead s) fun v t => Ahead s t ∧ base ≤ v ∧ v < base + 2 ^ n :=
  (readBits_ends n s).bind (fun _ ht => ht) fun _ _ ht =>
    .ok ⟨ht.1, Nat.le_add_right _ _, Nat.add_lt_add_left ht.2 _⟩

end Sys2Proof.Machine
end

section
/-! PROOFS. How each kind of element can end, over any predicate that the writes of the element keep: one lemma per
shared meaning, from which the frames and the invariant are both drawn. -/

namespace Sys2Proof.Machine

/-- The predicate is kept where a byte is appended that fits. -/
def KeptByAppends (P : State → Prop) : Prop := ∀ s b, s.outFull = false → P s → P (s.pushByte b)

section
variable {P : State → Prop}

/-! ## The output -/

theorem outAppend_ends {Q : Unit → State → Prop} (b : Byte) {s : State} (hs : P s)
    (h : s.outFull = false → Q () (s.pushByte b)) : (outAppend b s).Ends P Q := by
  rcases outAppend_cases b s with ⟨hf, e⟩ | ⟨_, e⟩
  · rw [e]
    exact .ok (h hf)
  · rw [e]
    exact .raise (by decide) hs

theorem outByte_ends {Q : Byte → State → Prop} {i : Nat} {s : State} (h : ∀ b, Q b s) :
    (outByte i s).Ends P Q := by
  rw [outByte]
  split
  · exact .ok (h _)
  · exact .fault

theorem copyStoredLoop_ends (hmove : KeptByMoves P) (hpush : KeptByAppends P)
    (hreg : ∀ s r, P s → P { s with remain := r }) (n : Nat) {s : State} (h : P s) :
    (copyStoredLoop n s).Ends P fun _ => P := by
  induction n generalizing s with
  | zero => exact .ok h
  | succ n ih =>
    refine (readByte_ends s).bind (fun t ht => hmove s t ht h) fun b t ht => ?_
    have hP : P t := hmove s t ht h
    exact (outAppend_ends (Q := fun _ u => P u) b hP fun hf => hpush t b hf hP).bind (fun _ hu => hu)
      fun _ u hu => ih (hreg u _ hu)

theorem copyMatchLoop_ends (hpush : KeptByAppends P) (hreg : ∀ s r, P s → P { s with copyRemain := r })
    (dist n : Nat) {s : State} (h : P s) : (copyMatchLoop dist n s).Ends P fun _ => P := by
  induction n generalizing s with
  | zero => exact .ok h
  | succ n ih =>
    refine (outByte_ends (P := P) (Q := fun _ u => P u) fun _ => h).bind (fun _ hu => hu) fun b t ht => ?_
    exact (outAppend_ends (Q := fun _ u => P u) b ht fun hf => hpush t b hf ht).bind (fun _ hu => hu)
      fun _ u hu => ih (hreg u _ hu)

/-! ## Blocks (42_inflate_blocks.md) -/

/-- The block ends in a completed decode or at the next block header (R508). -/
def BlockEnd (P : State → Prop) (t : State) : Prop :=
  ∃ s, P s ∧ (t = s.complete ∨ t = { s with phase := .blockHeader })

theorem endOfBlock_ends {s : State} (h : P s) : (endOfBlock s).Ends P fun _ => BlockEnd P := by
  refine readReg_bind_ends fun _ => ?_
  split
  · exact .ok ⟨s, h, .inl rfl⟩
  · exact .ok ⟨s, h, .inr rfl⟩

theorem blkStored_ends (hmove : KeptByMoves P) (hpush : KeptByAppends P)
    (hreg : ∀ s l n r, P s → P { s with len := l, nlen := n, remain := r }) (bfinal : Bool) {s : State}
    (h : P { s.withHeader bfinal 0 with phase := .stored }) : (blkStored bfinal s).Ends P fun _ => BlockEnd P := by
  have hlens : ∀ t, P t → (readStoredLengths t).Ends P fun _ => P := fun t ht =>
    (readLe16_ends t).bind (fun u hu => hmove t u hu ht) fun l u hu =>
      have hP := hreg u (wrote l) u.nlen u.remain (hmove t u hu ht)
      (readLe16_ends _).bind (fun w hw => hmove _ w hw hP) fun n w hw =>
        .ok (hreg w w.len (wrote n) w.remain (hmove _ w hw hP))
  have hcheck : ∀ t, P t → (checkStoredLengths t).Ends P fun _ => P := fun t ht => by
    refine readReg_bind_ends fun _ => readReg_bind_ends fun _ => ?_
    split
    · exact .raise (by decide) ht
    · exact .ok ht
  have hcopy : ∀ t, P t → (copyStored t).Ends P fun _ => P := fun t ht =>
    readReg_bind_ends fun _ => copyStoredLoop_ends hmove hpush (fun u r hu => hreg u u.len u.nlen r hu) _
      (hreg t t.len t.nlen _ ht)
  exact (hlens _ (hmove _ _ (ahead_alignToByte _) h)).bind (fun _ hu => hu) fun _ t ht =>
    (hcheck t ht).bind (fun _ hu => hu) fun _ u hu =>
      (hcopy u hu).bind (fun _ hu => hu) fun _ w hw => endOfBlock_ends hw

/-- The rest of a stored block (log entry 18). -/
theorem resumeStored_ends (hmove : KeptByMoves P) (hpush : KeptByAppends P)
    (hreg : ∀ s r, P s → P { s with remain := r }) {s : State} (h : P s) :
    (resumeStored s).Ends P fun _ => BlockEnd P :=
  readReg_bind_ends fun _ => (copyStoredLoop_ends hmove hpush hreg _ h).bind (fun _ hu => hu)
    fun _ _ ht => endOfBlock_ends ht

/-! ## Dynamic headers (44_dynamic_header.md) -/

/-- The counts of the header, written and in range (10_state.md R114). -/
def CountsRead (s : State) : Prop :=
  s.hlit.written = true ∧ 257 ≤ s.hlit.val.toNat ∧ s.hlit.val.toNat ≤ 288 ∧
  s.hdist.written = true ∧ 1 ≤ s.hdist.val.toNat ∧ s.hdist.val.toNat ≤ 32

/-- A build raises for lengths that are over-subscribed, or what follows goes on with the canonical tree (R452). -/
theorem buildTree_bind_ends {α : Type} {Q : α → State → Prop} {f : Tree → State → Res α} (L : List Nat) {s : State}
    (hP : ∀ b, P { s with blCount := b })
    (hf : ∀ b c, (f (canonicalTree L) { s with blCount := b, nextCode := c }).Ends P Q) :
    ((buildTree L s).bind f).Ends P Q := by
  rw [buildTree_eq]
  split
  · exact .raise (by decide) (hP _)
  · exact hf _ _

theorem readCll_ends (hmove : KeptByMoves P) (hreg : ∀ s r, P s → P { s with cll := r }) (cs : List Nat)
    {s : State} (h : P s) : (readCll cs s).Ends P fun _ => P := by
  induction cs generalizing s with
  | nil => exact .ok h
  | cons c cs ih =>
    exact (readBits_ends 3 s).bind (fun t ht => hmove s t ht h) fun v t ht =>
      readReg_bind_ends fun _ => ih (hreg t _ (hmove s t ht.1 h))

theorem readCodeLengthCodeLengths_ends (hmove : KeptByMoves P) (hreg : ∀ s r, P s → P { s with cll := r })
    {s : State} (h : P s) : (readCodeLengthCodeLengths s).Ends P fun _ => P :=
  readReg_bind_ends fun _ => readCll_ends hmove hreg _ (hreg s _ h)

theorem buildClTree_ends (hreg : ∀ s t b c, P s → P { s with clTree := t, blCount := b, nextCode := c })
    {s : State} (h : P s) :
    (buildClTree s).Ends P fun _ t => P t ∧ t.clTree.written = true ∧ treeOver 19 t.clTree.val := by
  refine readReg_bind_ends fun _ => ?_
  refine buildTree_bind_ends _ (fun b => hreg s s.clTree b s.nextCode h) fun b c => ?_
  exact .ok ⟨hreg s (wrote _) b c h, rfl, canonicalTree_treeOver 19 _ (by simp)⟩

/-- The registers that the header of a dynamic block writes after its block type. -/
def KeptByHeaderWrites (P : State → Prop) : Prop := ∀ s a b c d e l bl nc, P s →
  P { s with hlit := a, hdist := b, hclen := c, cll := d, clTree := e, lengths := l, blCount := bl, nextCode := nc }

/-- A dynamic header up to its first code-length element leaves the counts in range, the code-length tree built, and no
code length. -/
theorem blkDynamic_ends (hmove : KeptByMoves P) (hreg : KeptByHeaderWrites P) (bfinal : Bool) {s : State}
    (h : P { s.withHeader bfinal 2 with phase := .dynHeader }) :
    (blkDynamic bfinal s).Ends P fun _ t =>
      P t ∧ CountsRead t ∧ t.lengths = wrote [] ∧ t.clTree.written = true ∧ treeOver 19 t.clTree.val := by
  refine (readBasePlus_ends 257 5 _).bind (fun t ht => hmove _ t ht h) fun hlit t ⟨ht, hlit_ge, hlit_lt⟩ => ?_
  have h1 := hreg t (wrote (BitVec.ofNat 9 hlit)) t.hdist t.hclen t.cll t.clTree t.lengths t.blCount t.nextCode
    (hmove _ t ht h)
  refine (readBasePlus_ends 1 5 _).bind (fun u hu => hmove _ u hu h1) fun hdist u ⟨hu, hdist_ge, hdist_lt⟩ => ?_
  have h2 := hreg u u.hlit (wrote (BitVec.ofNat 6 hdist)) u.hclen u.cll u.clTree u.lengths u.blCount u.nextCode
    (hmove _ u hu h1)
  obtain ⟨p, -, -, rfl⟩ := hu
  refine (readBasePlus_ends 4 4 _).bind (fun w hw => hmove _ w hw h2) fun hclen w ⟨hw, _⟩ => ?_
  have h3 := hreg w w.hlit w.hdist (wrote (BitVec.ofNat 5 hclen)) w.cll w.clTree w.lengths w.blCount w.nextCode
    (hmove _ w hw h2)
  obtain ⟨q, -, -, rfl⟩ := hw
  have hcounts : CountsRead { ({ ({ t with hlit := wrote (BitVec.ofNat 9 hlit) }.moveTo p) with
      hdist := wrote (BitVec.ofNat 6 hdist) }.moveTo q) with hclen := wrote (BitVec.ofNat 5 hclen) } := by
    refine ⟨rfl, ?_, ?_, rfl, ?_, ?_⟩ <;> simp <;> omega
  have hmove' : KeptByMoves fun t => P t ∧ CountsRead t := by
    rintro x y hxy ⟨hP, hC⟩
    refine ⟨hmove x y hxy hP, ?_⟩
    obtain ⟨p, -, -, rfl⟩ := hxy
    exact hC
  refine (readCodeLengthCodeLengths_ends hmove' (fun x r hx => ⟨hreg x x.hlit x.hdist x.hclen r x.clTree x.lengths
    x.blCount x.nextCode hx.1, hx.2⟩) ⟨h3, hcounts⟩).bind (fun _ hx => hx.1) fun _ x hx => ?_
  refine (buildClTree_ends (P := fun t => P t ∧ CountsRead t) (fun y T b c hy => ⟨hreg y y.hlit y.hdist y.hclen y.cll
    T y.lengths b c hy.1, hy.2⟩) hx).bind (fun _ hy => hy.1) fun _ y ⟨⟨hP, hC⟩, hT⟩ => ?_
  exact .ok ⟨hreg y y.hlit y.hdist y.hclen y.cll y.clTree _ y.blCount y.nextCode hP, hC, rfl, hT⟩

/-! ## Code-length elements (44_dynamic_header.md R706 to R711) -/

/-- The registers that a code-length element writes. -/
def KeptByExpansion (P : State → Prop) : Prop := ∀ s l lt dt b c, P s →
  P { s with lengths := l, litTree := lt, distTree := dt, blCount := b, nextCode := c }

/-- A code-length element ends with code lengths still to come, or with both trees built and the token loop next. -/
def ClElementEnd (P : State → Prop) (t : State) : Prop :=
  (P t ∧ t.lengths.written = true ∧ t.lengths.val.length < t.hlit.val.toNat + t.hdist.val.toNat) ∨
  ∃ s, P s ∧ s.litTree.written = true ∧ s.distTree.written = true ∧
    (∀ n, s.hlit.val.toNat ≤ n → treeOver n s.litTree.val) ∧
    (∀ n, s.hdist.val.toNat ≤ n → treeOver n s.distTree.val) ∧
    t = { s with phase := .tokens, distPending := false }

theorem splitAndBuild_ends (hreg : KeptByExpansion P) {s : State} (h : P s) :
    (splitAndBuild s).Ends P fun _ => ClElementEnd P := by
  refine readReg_bind_ends fun _ => readReg_bind_ends fun _ => readReg_bind_ends fun _ => ?_
  refine buildTree_bind_ends _ (fun b => hreg s s.lengths s.litTree s.distTree b s.nextCode h) fun _ c => ?_
  refine buildTree_bind_ends _ (fun b => hreg s s.lengths (wrote _) s.distTree b c h) fun b c => ?_
  exact .ok <| .inr ⟨_, hreg s s.lengths (wrote _) (wrote _) b c h, rfl, rfl,
    fun n hn => canonicalTree_treeOver n _ (Nat.le_trans (List.length_take_le _ _) hn),
    fun n hn => canonicalTree_treeOver n _ (Nat.le_trans (List.length_take_le _ _) hn), rfl⟩

theorem clRun_ends (hreg : KeptByExpansion P) (v : BitVec 4) (n : Nat) {s : State} (h : P s) :
    (clRun v n s).Ends P fun _ => ClElementEnd P := by
  have happ : (appendLengths v n s).Ends P fun _ => P := by
    refine readReg_bind_ends fun _ => readReg_bind_ends fun _ => readReg_bind_ends fun _ => ?_
    split
    · exact .raise (by decide) h
    · exact .ok (hreg s _ s.litTree s.distTree s.blCount s.nextCode h)
  refine happ.bind (fun _ hu => hu) fun _ t ht => ?_
  refine readReg_bind_ends fun hw => readReg_bind_ends fun _ => readReg_bind_ends fun _ => ?_
  split
  · exact .ok (.inl ⟨ht, hw, ‹_›⟩)
  · exact splitAndBuild_ends hreg ht

/-- A repeat count read from the stream, then its run (R707 to R709). -/
theorem readBasePlus_clRun_ends (hmove : KeptByMoves P) (hreg : KeptByExpansion P) (v : BitVec 4) (base e : Nat)
    {s : State} (h : P s) :
    ((readBasePlus base e s).bind fun n s => clRun v n s).Ends P fun _ => ClElementEnd P :=
  (readBasePlus_ends base e s).bind (fun t ht => hmove s t ht h) fun n t ht =>
    clRun_ends hreg v n (hmove s t ht.1 h)

theorem clRep16_ends (hmove : KeptByMoves P) (hreg : KeptByExpansion P) {s : State} (h : P s) :
    (clRep16 s).Ends P fun _ => ClElementEnd P := by
  refine readReg_bind_ends fun _ => ?_
  split
  · exact .raise (by decide) h
  · exact readBasePlus_clRun_ends hmove hreg _ 3 2 h

/-! ## Length and distance codes (43_token_loop.md R553, R585) -/

/-- A length code leaves a match length between its base and the last length of its extra bits. -/
theorem lengthCode_ends (sym : Nat) {s : State} (hmove : KeptByMoves P) (h : P (s.withSym (BitVec.ofNat 9 sym))) :
    (lengthCode sym s).Ends P fun _ t => ∃ u n, P u ∧ (lengthEntry sym).2 ≤ n ∧
      n < (lengthEntry sym).2 + 2 ^ (lengthEntry sym).1 ∧
      t = { u with matchLen := wrote (BitVec.ofNat 9 n), distPending := true } :=
  (readBasePlus_ends _ _ _).bind (fun t ht => hmove _ t ht h) fun n t ht =>
    .ok ⟨t, n, hmove _ t ht.1 h, ht.2.1, ht.2.2, rfl⟩

theorem distanceCode_ends (d : Nat) {s : State} (hmove : KeptByMoves P) (hpush : KeptByAppends P)
    (hreg : ∀ s m c, P s → P { s with matchDist := m, copyRemain := c }) (h : P (s.withDsym (BitVec.ofNat 5 d))) :
    (distanceCode d s).Ends P fun _ t => ∃ u, P u ∧ t = { u with distPending := false } := by
  refine (readBasePlus_ends _ _ _).bind (fun t ht => hmove _ t ht h) fun dist t ht => ?_
  have h1 := hreg t (wrote (BitVec.ofNat 16 dist)) t.copyRemain (hmove _ t ht.1 h)
  have hcheck : (checkDistance { t with matchDist := wrote (BitVec.ofNat 16 dist) }).Ends P fun _ => P := by
    refine readReg_bind_ends fun _ => ?_
    split
    · exact .raise (by decide) h1
    · exact .ok h1
  have hcopy : ∀ u, P u → (copyMatch u).Ends P fun _ => P := fun u hu =>
    readReg_bind_ends fun _ => readReg_bind_ends fun _ =>
      copyMatchLoop_ends hpush (fun w r hw => hreg w w.matchDist r hw) _ _ (hreg u u.matchDist _ hu)
  exact hcheck.bind (fun _ hu => hu) fun _ u hu => (hcopy u hu).bind (fun _ hw => hw) fun _ w hw => .ok ⟨w, hw, rfl⟩

end

end Sys2Proof.Machine
end

section
/-! PROOFS. The kinds of elements, the predicates an element keeps, and a turn of the decode: the frame of every
element and of every step that is not the host's. -/

namespace Sys2Proof.Machine

/-! ## The kinds of elements -/

/-- The elements by the meaning they share: the 29 length codes are one case, and so are the 30 distance codes. -/
theorem instr_byKind {motive : Instr → Prop} (blkStored : ∀ f, motive (.blkStored f))
    (blkFixed : ∀ f, motive (.blkFixed f)) (blkDynamic : ∀ f, motive (.blkDynamic f))
    (blkReserved : ∀ f, motive (.blkReserved f)) (lit : ∀ x, motive (.lit x)) (eob : motive .eob)
    (length : ∀ row ∈ lengthRows, motive row.1) (litlenInvalid : ∀ x, motive (.litlenInvalid x))
    (distance : ∀ row ∈ distRows, motive row.1) (distInvalid : ∀ d, motive (.distInvalid d))
    (clLen : ∀ c, motive (.clLen c)) (clRep16 : motive .clRep16) (clZero17 : motive .clZero17)
    (clZero18 : motive .clZero18) (i : Instr) : motive i := by
  have hlen : ∀ i ∈ lengthRows.map Prod.fst, motive i := List.forall_mem_map.mpr length
  have hdist : ∀ i ∈ distRows.map Prod.fst, motive i := List.forall_mem_map.mpr distance
  cases i
  case blkStored f => exact blkStored f
  case blkFixed f => exact blkFixed f
  case blkDynamic f => exact blkDynamic f
  case blkReserved f => exact blkReserved f
  case lit x => exact lit x
  case eob => exact eob
  case litlenInvalid x => exact litlenInvalid x
  case distInvalid d => exact distInvalid d
  case clLen c => exact clLen c
  case clRep16 => exact clRep16
  case clZero17 => exact clZero17
  case clZero18 => exact clZero18
  case len257 | len258 | len259 | len260 | len261 | len262 | len263 | len264 | len265 | len266 | len267 | len268
    | len269 | len270 | len271 | len272 | len273 | len274 | len275 | len276 | len277 | len278 | len279 | len280
    | len281 | len282 | len283 | len284 | len285 => exact hlen _ (by decide)
  all_goals exact hdist _ (by decide)

theorem exec_lengthRow : ∀ row ∈ lengthRows, ∀ s, exec row.1 s = (lengthCode row.2.1 s).outcome := by
  intro row h
  fin_cases h <;> exact fun _ => rfl

theorem exec_distRow : ∀ row ∈ distRows, ∀ s, exec row.1 s = (distanceCode row.2.1 s).outcome := by
  intro row h
  fin_cases h <;> exact fun _ => rfl

theorem formatOf_lengthRow : ∀ row ∈ lengthRows, formatOf row.1 = .litlenSymbol := by decide

theorem formatOf_distRow : ∀ row ∈ distRows, formatOf row.1 = .distSymbol := by decide

/-- The table of the rules is the model's constant store (45_static_tables.md R751). -/
theorem lengthEntry_lengthRow : ∀ row ∈ lengthRows, lengthEntry row.2.1 = row.2.2 := by decide

theorem distEntry_distRow : ∀ row ∈ distRows, distEntry row.2.1 = row.2.2 := by decide

/-- A value selects elements of its own format alone (30_encoding.md R310 to R314). -/
theorem formatOf_decodeValue {f : Format} {v : Nat} {i : Instr} (h : decodeValue f v = .ok i) : formatOf i = f := by
  have hlen : ∀ j ∈ lengthCodes, formatOf j = .litlenSymbol := by decide
  have hdist : ∀ j ∈ distanceCodes, formatOf j = .distSymbol := by decide
  cases f with
  | blockHdr =>
    simp only [decodeValue, decodeBlockHdr] at h
    split at h <;> cases h <;> rfl
  | litlenSymbol =>
    simp only [decodeValue, decodeLitlen] at h
    split at h
    · cases h
      rfl
    · split at h
      · cases h
        rfl
      · split at h
        · rename_i j hj
          cases h
          exact hlen _ (List.mem_of_getElem? hj)
        · split at h <;> cases h
          rfl
  | distSymbol =>
    simp only [decodeValue, decodeDist] at h
    split at h
    · rename_i j hj
      cases h
      exact hdist _ (List.mem_of_getElem? hj)
    · split at h <;> cases h
      rfl
  | clSymbol =>
    simp only [decodeValue, decodeCl] at h
    split at h
    · cases h
      rfl
    · split at h <;> cases h <;> rfl

/-! ## What an element keeps -/

/-- The predicate is kept by every write that an element of the kind of `i` may make (10_state.md R108 to R126). A
predicate that does not speak of a register is kept by its writes, which closes most of the clauses. -/
structure KeptBy (i : Instr) (P : State → Prop) : Prop where
  moves : KeptByMoves P := by
    rintro s t ⟨p, -, -, rfl⟩ h
    exact h
  abort : ∀ s k c, P s → P (s.abort k c) := by exact fun _ _ _ h => h
  control : ∀ s ph d, P s → P { s with phase := ph, distPending := d } := by exact fun _ _ _ h => h
  header : formatOf i = .blockHdr → ∀ s f t, P s → P { s with bfinal := f, btype := t } := by exact fun _ _ _ _ h => h
  stored : ∀ f, i = .blkStored f → ∀ s l n r, P s → P { s with len := l, nlen := n, remain := r } := by
    exact fun _ _ _ _ _ _ h => h
  counts : ∀ f, i = .blkDynamic f → KeptByHeaderWrites P := by exact fun _ _ _ _ _ _ _ _ _ _ _ h => h
  expansion : formatOf i = .clSymbol → KeptByExpansion P := by exact fun _ _ _ _ _ _ _ h => h
  sym : formatOf i = .litlenSymbol → ∀ s x, P s → P (s.withSym x) := by exact fun _ _ _ h => h
  matchLen : ∀ row ∈ lengthRows, i = row.1 → ∀ s n, P s → P { s with matchLen := n } := by
    exact fun _ _ _ _ _ h => h
  dsym : formatOf i = .distSymbol → ∀ s d, P s → P (s.withDsym d) := by exact fun _ _ _ h => h
  copy : ∀ row ∈ distRows, i = row.1 → ∀ s m c, P s → P { s with matchDist := m, copyRemain := c } := by
    exact fun _ _ _ _ _ _ h => h
  finalPos : (∃ f, i = .blkStored f) ∨ i = .eob → ∀ s p, P s → P { s with finalPos := p } := by
    exact fun _ _ _ h => h
  appends : (∃ f, i = .blkStored f) ∨ (∃ x, i = .lit x) ∨ (∃ row ∈ distRows, i = row.1) → KeptByAppends P := by
    exact fun _ _ _ _ h => h

section
variable {P : State → Prop} {i : Instr} {s t : State}

theorem KeptBy.blockEnd (hP : KeptBy i P) (hi : (∃ f, i = .blkStored f) ∨ i = .eob) (h : BlockEnd P t) : P t := by
  obtain ⟨u, hu, rfl | rfl⟩ := h
  · exact hP.control _ .done u.distPending (hP.finalPos hi u ⟨u.byteIdx, u.bitIdx⟩ hu)
  · exact hP.control u .blockHeader u.distPending hu

theorem KeptBy.clElementEnd (hP : KeptBy i P) (h : ClElementEnd P t) : P t := by
  obtain h | ⟨u, hu, -, -, -, -, rfl⟩ := h
  · exact h.1
  · exact hP.control u _ _ hu

/-- An element keeps every predicate that the writes of its kind keep. -/
theorem exec_keeps (hP : KeptBy i P) (h : P s) (ht : exec i s = .next t) : P t := by
  have habort : ∀ k c u, Raisable k c → P u → P (u.abort k c) := fun k c u _ hu => hP.abort u k c hu
  induction i using instr_byKind with
  | blkStored f =>
    exact (blkStored_ends hP.moves (hP.appends (.inl ⟨f, rfl⟩)) (hP.stored f rfl) f
      (hP.control _ _ s.distPending (hP.header rfl s _ _ h))).outcome (fun _ _ => hP.blockEnd (.inl ⟨f, rfl⟩)) habort ht
  | blkFixed f =>
    cases ht
    exact hP.control _ _ _ (hP.header rfl s _ _ h)
  | blkDynamic f =>
    exact (blkDynamic_ends hP.moves (hP.counts f rfl) f (hP.control _ _ s.distPending
      (hP.header rfl s _ _ h))).outcome (fun _ _ hu => hu.1) habort ht
  | blkReserved f =>
    cases ht
    exact hP.abort _ _ _ (hP.header rfl s _ _ h)
  | lit x =>
    have hx := hP.sym rfl s x h
    exact (outAppend_ends (Q := fun _ => P) _ hx fun hf =>
      hP.appends (.inr (.inl ⟨x, rfl⟩)) _ _ hf hx).outcome (fun _ _ hu => hu) habort ht
  | eob => exact (endOfBlock_ends (hP.sym rfl s 256 h)).outcome (fun _ _ => hP.blockEnd (.inr rfl)) habort ht
  | length row hrow =>
    rw [exec_lengthRow row hrow] at ht
    refine (lengthCode_ends _ hP.moves (hP.sym (formatOf_lengthRow row hrow) s _ h)).outcome ?_ habort ht
    rintro _ _ ⟨u, n, hu, -, -, rfl⟩
    exact hP.control _ u.phase true (hP.matchLen row hrow rfl u (wrote (BitVec.ofNat 9 n)) hu)
  | litlenInvalid x =>
    cases ht
    exact hP.abort _ _ _ (hP.sym rfl s x h)
  | distance row hrow =>
    rw [exec_distRow row hrow] at ht
    refine (distanceCode_ends _ hP.moves (hP.appends (.inr (.inr ⟨row, hrow, rfl⟩))) (hP.copy row hrow rfl)
      (hP.dsym (formatOf_distRow row hrow) s _ h)).outcome ?_ habort ht
    rintro _ _ ⟨u, hu, rfl⟩
    exact hP.control u u.phase _ hu
  | distInvalid d =>
    cases ht
    exact hP.abort _ _ _ (hP.dsym rfl s d h)
  | clLen c => exact (clRun_ends (hP.expansion rfl) _ _ h).outcome (fun _ _ => hP.clElementEnd) habort ht
  | clRep16 => exact (clRep16_ends hP.moves (hP.expansion rfl) h).outcome (fun _ _ => hP.clElementEnd) habort ht
  | clZero17 =>
    exact (readBasePlus_clRun_ends hP.moves (hP.expansion rfl) 0 3 3 h).outcome (fun _ _ => hP.clElementEnd) habort ht
  | clZero18 =>
    exact (readBasePlus_clRun_ends hP.moves (hP.expansion rfl) 0 11 7 h).outcome (fun _ _ => hP.clElementEnd) habort ht

end

/-! ## A turn of the decode -/

section
variable {P R : State → Prop} {f : Format} {s t : State}

theorem readFixedMode_bind_ends {α : Type} {Q : α → State → Prop} {g : Bool → State → Res α}
    (h : s.btype.written = true → (g (decide (s.btype.val = 1)) s).Ends P Q) :
    ((readFixedMode s).bind g).Ends P Q :=
  have hmode : (readFixedMode s).Ends P fun b u => (g b u).Ends P Q := readReg_bind_ends fun hw => .ok (h hw)
  hmode.bind (fun _ hu => hu) fun _ _ hu => hu

/-- The read of the next value moves the cursor on, and writes BFINAL where the value is a block header (R502). -/
theorem fetchValue_ends (hmove : KeptByMoves P) (hheader : f = .blockHdr → ∀ s b, P s → P { s with bfinal := b })
    (h : P s) : (fetchValue f s).Ends P fun _ => P := by
  have hdecode : ∀ T, (decodeSymbol T s).Ends P fun _ => P := fun T =>
    (decodeSymbol_ends T s).mono (fun u hu => hmove s u hu h) fun _ u hu => hmove s u hu.1 h
  have hreversed : (readBitsReversed 5 s).Ends P fun _ => P :=
    (readBitsReversedFrom_ends 0 5 s).mono (fun u hu => hmove s u hu h) fun _ u hu => hmove s u hu.1 h
  cases f with
  | blockHdr =>
    refine (nextBit_ends s).bind (fun u hu => hmove s u hu h) fun b u hu => ?_
    have hb := hheader rfl u (wrote b) (hmove s u hu h)
    exact (readBits_ends 2 _).bind (fun w hw => hmove _ w hw hb) fun v w hw => .ok (hmove _ w hw.1 hb)
  | litlenSymbol =>
    refine readFixedMode_bind_ends fun _ => ?_
    split
    · exact hdecode _
    · exact readReg_bind_ends fun _ => hdecode _
  | distSymbol =>
    refine readFixedMode_bind_ends fun _ => ?_
    split
    · exact hreversed
    · exact readReg_bind_ends fun _ => hdecode _
  | clSymbol => exact readReg_bind_ends fun _ => hdecode _

/-- The next state of a fetch is that of an element of the format, run after the read of its value, or the aborted
state of that read. -/
theorem fetchAndRun_keeps (hfetch : (fetchValue f s).Ends P fun _ => P)
    (hexec : ∀ i u, formatOf i = f → P u → exec i u = .next t → R t)
    (habort : ∀ k c u, Raisable k c → P u → R (u.abort k c)) (ht : fetchAndRun f s = .next t) : R t := by
  rw [fetchAndRun] at ht
  cases e : fetchValue f s with
  | ok v u =>
    rw [e] at ht hfetch
    cases hfetch with
    | ok hu =>
      simp only [runValue] at ht
      split at ht
      · exact hexec _ u (formatOf_decodeValue ‹_›) hu ht
      · cases ht
  | raise k c u =>
    rw [e] at ht hfetch
    cases hfetch with
    | raise hk hu =>
      cases ht
      exact habort k c u hk hu
  | fault x =>
    rw [e] at ht
    cases ht

end

end Sys2Proof.Machine
end

section
/-! PROOFS. What a step that is not the host's leaves unchanged, and what every element leaves unchanged. -/

namespace Sys2Proof.Machine

/-! ## The step of the decode -/

/-- Counting down a coming power-on reset changes the queue of commands alone (log entry 2). -/
theorem hostTick_eq (s : State) : s.hostTick = { s with hostCmds := s.hostTick.hostCmds } := by
  unfold State.hostTick
  split <;> rfl

theorem step_of_hostTurn_some {s t : State} (h : hostTurn s = some t) : step s = .next t := by
  rw [step, h]

theorem step_of_hostTurn_none {s : State} (h : hostTurn s = none) : step s = instanceTurn s.hostTick := by
  rw [step, h]

/-- A turn of the decode keeps every predicate that the writes of every element keep. -/
theorem instanceTurn_keeps {P : State → Prop} {s t : State} (hP : ∀ i, KeptBy i P) (h : P s)
    (ht : instanceTurn s = .next t) : P t := by
  have habort : ∀ k c u, Raisable k c → P u → P (u.abort k c) := fun k c u _ hu => (hP .eob).abort u k c hu
  rw [instanceTurn] at ht
  split at ht
  · refine fetchAndRun_keeps (fetchValue_ends (hP .eob).moves (fun _ u b hu => ?_) h)
      (fun i u _ hu hi => exec_keeps (hP i) hu hi) habort ht
    exact (hP (.blkFixed true)).header rfl u b u.btype hu
  · have hst := hP (.blkStored true)
    split at ht
    · exact (resumeStored_ends hst.moves (hst.appends (.inl ⟨true, rfl⟩))
        (fun u r hu => hst.stored true rfl u u.len u.nlen r hu) h).outcome
        (fun _ _ => hst.blockEnd (.inl ⟨true, rfl⟩)) habort ht
    · cases ht
      exact h

/-- `t` comes later in the decode of `s`: the inputs are as they were, the cursor is not behind, and `OUT` holds what it
held (10_state.md R103, R122, R127). -/
def Extends (s t : State) : Prop :=
  (t.src = s.src ∧ t.srcLen = s.srcLen ∧ t.policy = s.policy ∧ t.outCapacity = s.outCapacity) ∧
  s.pos ≤ t.pos ∧
  s.outLen ≤ t.outLen ∧ ∀ a, a < s.outLen → Memory.read t.out a = Memory.read s.out a

theorem Extends.refl (s : State) : Extends s s :=
  ⟨⟨rfl, rfl, rfl, rfl⟩, Nat.le_refl _, Nat.le_refl _, fun _ _ => rfl⟩

/-- Every element only moves the cursor on and appends to `OUT`, whatever registers it writes. -/
theorem extends_keptBy (s : State) (i : Instr) : KeptBy i (Extends s) where
  moves := by
    rintro t u ⟨p, hp, -, rfl⟩ ⟨hin, hpos, hout⟩
    exact ⟨hin, by rw [pos_moveTo]; exact Nat.le_trans hpos hp, hout⟩
  appends := by
    rintro - t b - ⟨hin, hpos, hlen, hread⟩
    refine ⟨hin, hpos, Nat.le_succ_of_le hlen, fun a ha => ?_⟩
    rw [pushByte_out, read_write_other _ _ _ _ (by omega), hread a ha]

theorem step_extends {s t : State} (h : hostTurn s = none) (ht : step s = .next t) : Extends s t := by
  rw [step_of_hostTurn_none h] at ht
  refine instanceTurn_keeps (extends_keptBy s) ?_ ht
  rw [hostTick_eq]
  exact Extends.refl s

end Sys2Proof.Machine

open Sys2Proof.Machine

/-- Settles O49: a turn of the decode leads to a later state of the same decode. -/
theorem decodeNeverChangesItsInputs : Obligations.DecodeNeverChangesItsInputs := by
  intro s t h ht
  obtain ⟨hin, -, -⟩ := step_extends h ht
  exact hin

/-- Settles O50: a turn of the decode leads to a later state of the same decode. -/
theorem outputIsAppendOnly : Obligations.OutputIsAppendOnly := by
  intro s t h ht
  obtain ⟨-, -, hout⟩ := step_extends h ht
  exact hout

/-- Settles O51: a turn of the decode leads to a later state of the same decode. -/
theorem cursorNeverMovesBack : Obligations.CursorNeverMovesBack := by
  intro s t h ht
  obtain ⟨-, hpos, -⟩ := step_extends h ht
  exact hpos

/-- Settles O48: each clause is the frame of one group of registers, and `exec_keeps` gives it wherever the element is
of no kind that writes the group. -/
theorem elementsWriteOnlyTheirRegisters : Obligations.ElementsWriteOnlyTheirRegisters := by
  intro i s t ht
  refine ⟨?inputs, fun h => ?block, fun h => ?stored, fun h => ?counts, fun h hf => ?lengths, fun h => ?trees,
    fun h => ?sym, fun h => ?matchLen, fun h => ?dsym, fun h => ?copy, fun h => ?finalPos, fun h => ?out⟩
  case inputs =>
    exact exec_keeps (P := fun t => t.src = s.src ∧ t.srcLen = s.srcLen ∧ t.policy = s.policy ∧
      t.outCapacity = s.outCapacity ∧ t.hostCmds = s.hostCmds) {} ⟨rfl, rfl, rfl, rfl, rfl⟩ ht
  case block =>
    exact exec_keeps (P := fun t => t.bfinal = s.bfinal ∧ t.btype = s.btype)
      { header := fun e => absurd e h } ⟨rfl, rfl⟩ ht
  case stored =>
    exact exec_keeps (P := fun t => t.len = s.len ∧ t.nlen = s.nlen ∧ t.remain = s.remain)
      { stored := fun f e => absurd e (h f) } ⟨rfl, rfl, rfl⟩ ht
  case counts =>
    exact exec_keeps (P := fun t => t.hlit = s.hlit ∧ t.hdist = s.hdist ∧ t.hclen = s.hclen ∧ t.cll = s.cll ∧
      t.clTree = s.clTree) { counts := fun f e => absurd e (h f) } ⟨rfl, rfl, rfl, rfl, rfl⟩ ht
  case lengths =>
    exact exec_keeps (P := fun t => t.lengths = s.lengths ∧ t.blCount = s.blCount ∧ t.nextCode = s.nextCode)
      { counts := fun f e => absurd e (h f), expansion := fun e => absurd e hf } ⟨rfl, rfl, rfl⟩ ht
  case trees =>
    exact exec_keeps (P := fun t => t.litTree = s.litTree ∧ t.distTree = s.distTree)
      { expansion := fun e => absurd e h } ⟨rfl, rfl⟩ ht
  case sym => exact exec_keeps (P := fun t => t.sym = s.sym) { sym := fun e => absurd e h } rfl ht
  case matchLen =>
    exact exec_keeps (P := fun t => t.matchLen = s.matchLen)
      { matchLen := fun row hrow e => absurd e (h row hrow) } rfl ht
  case dsym => exact exec_keeps (P := fun t => t.dsym = s.dsym) { dsym := fun e => absurd e h } rfl ht
  case copy =>
    exact exec_keeps (P := fun t => t.matchDist = s.matchDist ∧ t.copyRemain = s.copyRemain)
      { copy := fun row hrow e => absurd e (h row hrow) } ⟨rfl, rfl⟩ ht
  case finalPos =>
    obtain ⟨hstored, heob⟩ := h
    refine exec_keeps (P := fun t => t.finalPos = s.finalPos) { finalPos := fun e => ?_ } rfl ht
    obtain ⟨f, e⟩ | e := e
    · exact absurd e (hstored f)
    · exact absurd e heob
  case out =>
    obtain ⟨hstored, hlit, hdist⟩ := h
    refine exec_keeps (P := fun t => t.out = s.out ∧ t.outLen = s.outLen) { appends := fun e => ?_ } ⟨rfl, rfl⟩ ht
    obtain ⟨f, e⟩ | ⟨x, e⟩ | ⟨row, hrow, e⟩ := e
    · exact absurd e (hstored f)
    · exact absurd e (hlit x)
    · exact absurd e (hdist row hrow)
end

section
/-! PROOFS. Every step keeps the invariant of the machine. While a decode runs, `Running` is kept by every operation;
what the phase asks for beyond it is a predicate of its own for the dynamic header and for the token loop. -/

namespace Sys2Proof.Machine

/-! ## The clauses of the invariant, by phase -/

/-- The clauses of the invariant that hold at every point of a decode without an error, inside a step too. -/
def Running (s : State) : Prop :=
  Memory.wf s.src = true ∧ Memory.wf s.out = true ∧ (∀ a, s.outLen ≤ a → Memory.read s.out a = 0) ∧
  s.hasRoom 0 ∧ s.hasBits 0 ∧ s.errKind = .none ∧ s.errCause = .none

/-- Between the elements of a dynamic header, but for the code lengths read so far (44_dynamic_header.md R700). -/
def HeaderLoop (s : State) : Prop :=
  s.phase = .dynHeader ∧ s.bfinal.written = true ∧ s.btype.written = true ∧ s.btype.val = 2 ∧ CountsRead s ∧
  s.clTree.written = true ∧ treeOver 19 s.clTree.val

/-- In the token loop: the block is fixed, or dynamic with its two trees built (43_token_loop.md R550). -/
def TokenLoop (s : State) : Prop :=
  s.phase = .tokens ∧ s.bfinal.written = true ∧ s.btype.written = true ∧
  (s.btype.val = 1 ∨ (s.btype.val = 2 ∧ s.litTree.written = true ∧ treeOver 288 s.litTree.val ∧
    s.distTree.written = true ∧ treeOver 32 s.distTree.val))

section
variable {s t : State}

/-- An aborted decode meets the invariant (60_exceptions.md R820). -/
theorem Running.inv_abort {k : ErrKind} {c : ErrCause} (h : Running s) (hk : Raisable k c) : Inv (s.abort k c) := by
  obtain ⟨hsrc, hout, hbelow, hcap, -, -, -⟩ := h
  obtain ⟨hnone, hempty, hunsupported, hcause⟩ := hk
  exact ⟨hsrc, hout, hbelow, hcap, nofun, iff_of_true rfl hnone, hcause, ⟨hempty, hunsupported⟩, nofun, nofun, nofun,
    nofun, nofun⟩

/-- A running decode meets the invariant where its phase's own clauses hold. -/
theorem Running.inv (h : Running s) (hphase : s.phase ≠ .error ∧ s.phase ≠ .stored)
    (hheader : s.phase = .dynHeader → HeaderLoop s ∧ s.lengths.written = true ∧
      s.lengths.val.length < s.hlit.val.toNat + s.hdist.val.toNat)
    (htokens : s.phase = .tokens → TokenLoop s ∧ (s.distPending = true →
      s.matchLen.written = true ∧ 3 ≤ s.matchLen.val.toNat ∧ s.matchLen.val.toNat ≤ 258)) : Inv s := by
  obtain ⟨hsrc, hout, hbelow, hcap, hcursor, hkind, hcause⟩ := h
  obtain ⟨herror, hstored⟩ := hphase
  refine ⟨hsrc, hout, hbelow, hcap, fun _ => hcursor, by simp [herror, hkind], by simp [hcause, hkind],
    by simp [hkind], hstored, ?inBlock, fun hp => ?inHeader, fun hp => ?inTokens, fun hp => (htokens hp).2⟩
  case inBlock =>
    rintro (hp | hp)
    · obtain ⟨⟨-, hbfinal, hbtype, -⟩, -⟩ := hheader hp
      exact ⟨hbfinal, hbtype⟩
    · obtain ⟨⟨-, hbfinal, hbtype, -⟩, -⟩ := htokens hp
      exact ⟨hbfinal, hbtype⟩
  case inHeader =>
    obtain ⟨⟨-, -, -, htype, ⟨hl, hl_ge, hl_le, hd, hd_ge, hd_le⟩, htw, htree⟩, hw, hlen⟩ := hheader hp
    exact ⟨htype, hl, hd, hw, htw, hl_ge, hl_le, hd_ge, hd_le, hlen, htree⟩
  case inTokens =>
    obtain ⟨⟨-, -, -, htype⟩, -⟩ := htokens hp
    exact htype

/-- Before a block header, and at the end, no more is asked. -/
theorem Running.inv_between (h : Running s) (hphase : s.phase = .blockHeader ∨ s.phase = .done) : Inv s := by
  rcases hphase with e | e <;> exact h.inv (by simp [e]) (by simp [e]) (by simp [e])

theorem Running.inv_headerLoop (h : Running s) (hloop : HeaderLoop s) (hw : s.lengths.written = true)
    (hlen : s.lengths.val.length < s.hlit.val.toNat + s.hdist.val.toNat) : Inv s :=
  h.inv (by simp [hloop.1]) (fun _ => ⟨hloop, hw, hlen⟩) (by simp [hloop.1])

theorem Running.inv_tokenLoop (h : Running s) (hloop : TokenLoop s)
    (hmatch : s.distPending = true →
      s.matchLen.written = true ∧ 3 ≤ s.matchLen.val.toNat ∧ s.matchLen.val.toNat ≤ 258) : Inv s :=
  h.inv (by simp [hloop.1]) (by simp [hloop.1]) fun _ => ⟨hloop, hmatch⟩

/-- A decode that awaits an element is running. -/
theorem Inv.running (h : Inv s) (hbusy : s.busy = true) : Running s := by
  have hkind : s.errKind = .none := by
    by_contra hne
    rw [State.busy, State.status, h.errKind.mpr hne] at hbusy
    exact absurd hbusy (by decide)
  refine ⟨h.srcWf, h.outWf, h.outBelow, h.capacity, h.cursor hbusy, hkind, ?_⟩
  by_contra hne
  have := h.errCause.mp hne
  rw [hkind] at this
  exact absurd this (by decide)

theorem Inv.headerLoop (h : Inv s) (hphase : s.phase = .dynHeader) : HeaderLoop s := by
  obtain ⟨hbfinal, hbtype⟩ := h.inBlock (.inl hphase)
  obtain ⟨htype, hl, hd, -, htw, hl_ge, hl_le, hd_ge, hd_le, -, htree⟩ := h.inHeader hphase
  exact ⟨hphase, hbfinal, hbtype, htype, ⟨hl, hl_ge, hl_le, hd, hd_ge, hd_le⟩, htw, htree⟩

theorem Inv.tokenLoop (h : Inv s) (hphase : s.phase = .tokens) : TokenLoop s := by
  obtain ⟨hbfinal, hbtype⟩ := h.inBlock (.inr hphase)
  exact ⟨hphase, hbfinal, hbtype, h.inTokens hphase⟩

/-! ## What keeps a decode running -/

theorem running_moves : KeptByMoves Running := by
  rintro s t ⟨p, -, hp, rfl⟩ ⟨hsrc, hout, hbelow, hcap, hcursor, herr⟩
  refine ⟨hsrc, hout, hbelow, hcap, ?_, herr⟩
  simpa [State.hasBits] using hp hcursor

/-- A byte that fits goes to `OUT_LEN`, below the new one (20_memory.md R211, R212). -/
theorem running_appends : KeptByAppends Running := by
  rintro s b hfull ⟨hsrc, hout, hbelow, hcap, hcursor, herr⟩
  refine ⟨hsrc, write_wf _ _ _ hout, fun a ha => ?_, (hasRoom_one s hcap).mpr hfull, hcursor, herr⟩
  rw [pushByte_outLen] at ha
  rw [pushByte_out, read_write_other _ _ _ _ (by omega), hbelow a (by omega)]

/-- Beside `Running`, what a move of the cursor does not touch. -/
theorem running_and_moves {F : State → Prop} (hF : ∀ s p, F s → F (s.moveTo p)) :
    KeptByMoves fun s => Running s ∧ F s := by
  rintro s t hst ⟨h, hf⟩
  refine ⟨running_moves s t hst h, ?_⟩
  obtain ⟨p, -, -, rfl⟩ := hst
  exact hF s p hf

theorem running_and_appends {F : State → Prop} (hF : ∀ s b, F s → F (s.pushByte b)) :
    KeptByAppends fun s => Running s ∧ F s :=
  fun s b hfull ⟨h, hf⟩ => ⟨running_appends s b hfull h, hF s b hf⟩

theorem inv_of_blockEnd (h : BlockEnd Running t) : Inv t := by
  obtain ⟨u, hu, rfl | rfl⟩ := h
  · exact Running.inv_between hu (.inr rfl)
  · exact Running.inv_between hu (.inl rfl)

theorem inv_of_clElementEnd (h : ClElementEnd (fun s => Running s ∧ HeaderLoop s) t) : Inv t := by
  obtain ⟨⟨hrun, hloop⟩, hw, hlen⟩ | ⟨u, ⟨hrun, hloop⟩, hlit, hdist, hlitTree, hdistTree, rfl⟩ := h
  · exact hrun.inv_headerLoop hloop hw hlen
  · obtain ⟨-, hbfinal, hbtype, htype, ⟨-, -, hl_le, -, -, hd_le⟩, -, -⟩ := hloop
    exact Running.inv_tokenLoop hrun
      ⟨rfl, hbfinal, hbtype, .inr ⟨htype, hlit, hlitTree 288 hl_le, hdist, hdistTree 32 hd_le⟩⟩ nofun

/-! ## Elements -/

/-- Where the phase awaits an element, and of which format (42_inflate_blocks.md R501, 43_token_loop.md R550, R553). -/
theorem fetchFormat_cases {f : Format} (h : fetchFormat s = some f) :
    (f = .blockHdr ∧ s.phase = .blockHeader) ∨ (f = .clSymbol ∧ s.phase = .dynHeader) ∨
    (f = .litlenSymbol ∧ s.phase = .tokens ∧ s.distPending = false) ∨
    (f = .distSymbol ∧ s.phase = .tokens ∧ s.distPending = true) := by
  rw [fetchFormat] at h
  split at h
  · cases h
    exact .inl ⟨rfl, ‹_›⟩
  · cases h
    exact .inr (.inl ⟨rfl, ‹_›⟩)
  · cases hd : s.distPending <;> rw [hd] at h <;> cases h
    · exact .inr (.inr (.inl ⟨rfl, ‹_›, rfl⟩))
    · exact .inr (.inr (.inr ⟨rfl, ‹_›, rfl⟩))
  all_goals cases h

/-- The greatest match length is 258 and the least is 3 (43_token_loop.md R553). -/
theorem lengthRow_range : ∀ row ∈ lengthRows, 3 ≤ row.2.2.2 ∧ row.2.2.2 + 2 ^ row.2.2.1 ≤ 259 := by decide

theorem execBlock_inv {i : Instr} (hi : formatOf i = .blockHdr) (h : Running s) (ht : exec i s = .next t) : Inv t := by
  have habort : ∀ k c u, Raisable k c → Running u → Inv (u.abort k c) := fun k c u hk hu => hu.inv_abort hk
  cases i
  case blkStored f =>
    exact (blkStored_ends running_moves running_appends (fun _ _ _ _ hu => hu) f h).outcome
      (fun _ _ => inv_of_blockEnd) habort ht
  case blkFixed f =>
    cases ht
    exact Running.inv_tokenLoop h ⟨rfl, rfl, rfl, .inl rfl⟩ nofun
  case blkDynamic f =>
    refine (blkDynamic_ends (P := fun s => Running s ∧ s.phase = .dynHeader ∧ s.bfinal.written = true ∧
      s.btype = wrote 2) (running_and_moves fun _ _ hF => hF) (fun _ _ _ _ _ _ _ _ _ hu => hu) f
      ⟨h, rfl, rfl, rfl⟩).outcome ?_ (fun k c u hk hu => habort k c u hk hu.1) ht
    rintro _ u ⟨⟨hrun, hphase, hbfinal, hbtype⟩, hcounts, hlengths, htree⟩
    refine hrun.inv_headerLoop ⟨hphase, hbfinal, by rw [hbtype]; rfl, by rw [hbtype]; rfl, hcounts, htree⟩
      (by rw [hlengths]; rfl) ?_
    obtain ⟨-, hl_ge, -⟩ := hcounts
    rw [hlengths]
    exact Nat.lt_of_lt_of_le (Nat.lt_of_lt_of_le (by decide) hl_ge) (Nat.le_add_right _ _)
  case blkReserved f =>
    cases ht
    exact Running.inv_abort h (by decide)
  all_goals cases hi

theorem execLitlen_inv {i : Instr} (hi : formatOf i = .litlenSymbol) (h : Running s) (hloop : TokenLoop s)
    (hpending : s.distPending = false) (ht : exec i s = .next t) : Inv t := by
  have habort : ∀ k c u, Raisable k c → Running u → Inv (u.abort k c) := fun k c u hk hu => hu.inv_abort hk
  induction i using instr_byKind with
  | lit x =>
    have happend : (outAppend (x.setWidth 8) (s.withSym x)).Ends Running fun _ => Inv :=
      outAppend_ends _ h fun hfull => Running.inv_tokenLoop (running_appends _ _ hfull h) hloop fun hp =>
        absurd (hpending.symm.trans hp) (by decide)
    exact happend.outcome (fun _ _ hu => hu) habort ht
  | eob => exact (endOfBlock_ends (P := Running) (s := s.withSym 256) h).outcome (fun _ _ => inv_of_blockEnd) habort ht
  | length row hrow =>
    rw [exec_lengthRow row hrow] at ht
    refine (lengthCode_ends (P := fun s => Running s ∧ TokenLoop s) row.2.1 (running_and_moves fun _ _ hF => hF)
      ⟨h, hloop⟩).outcome ?_ (fun k c u hk hu => habort k c u hk hu.1) ht
    rintro _ _ ⟨u, n, ⟨hrun, hu⟩, hge, hlt, rfl⟩
    obtain ⟨hmin, hmax⟩ := lengthRow_range row hrow
    rw [lengthEntry_lengthRow row hrow] at hge hlt
    refine Running.inv_tokenLoop hrun hu fun _ => ⟨rfl, ?_⟩
    simp only [wrote_val, BitVec.toNat_ofNat]
    omega
  | litlenInvalid x =>
    cases ht
    exact Running.inv_abort h (by decide)
  | distance row hrow =>
    rw [formatOf_distRow row hrow] at hi
    cases hi
  | _ => cases hi

theorem execDist_inv {i : Instr} (hi : formatOf i = .distSymbol) (h : Running s) (hloop : TokenLoop s)
    (ht : exec i s = .next t) : Inv t := by
  induction i using instr_byKind with
  | distance row hrow =>
    rw [exec_distRow row hrow] at ht
    refine (distanceCode_ends (P := fun s => Running s ∧ TokenLoop s) row.2.1 (running_and_moves fun _ _ hF => hF)
      (running_and_appends fun _ _ hF => hF) (fun _ _ _ hu => hu) ⟨h, hloop⟩).outcome ?_
      (fun k c u hk hu => hu.1.inv_abort hk) ht
    rintro _ _ ⟨u, ⟨hrun, hu⟩, rfl⟩
    exact Running.inv_tokenLoop hrun hu nofun
  | distInvalid d =>
    cases ht
    exact Running.inv_abort h (by decide)
  | length row hrow =>
    rw [formatOf_lengthRow row hrow] at hi
    cases hi
  | _ => cases hi

theorem execCl_inv {i : Instr} (hi : formatOf i = .clSymbol) (h : Running s) (hloop : HeaderLoop s)
    (ht : exec i s = .next t) : Inv t := by
  have habort : ∀ k c u, Raisable k c → (Running u ∧ HeaderLoop u) → Inv (u.abort k c) :=
    fun k c u hk hu => hu.1.inv_abort hk
  have hmove : KeptByMoves fun s => Running s ∧ HeaderLoop s := running_and_moves fun _ _ hF => hF
  have hexp : KeptByExpansion fun s => Running s ∧ HeaderLoop s := fun _ _ _ _ _ _ hu => hu
  have hP : Running s ∧ HeaderLoop s := ⟨h, hloop⟩
  cases i
  case clLen c => exact (clRun_ends hexp _ _ hP).outcome (fun _ _ => inv_of_clElementEnd) habort ht
  case clRep16 => exact (clRep16_ends hmove hexp hP).outcome (fun _ _ => inv_of_clElementEnd) habort ht
  case clZero17 =>
    exact (readBasePlus_clRun_ends hmove hexp 0 3 3 hP).outcome (fun _ _ => inv_of_clElementEnd) habort ht
  case clZero18 =>
    exact (readBasePlus_clRun_ends hmove hexp 0 11 7 hP).outcome (fun _ _ => inv_of_clElementEnd) habort ht
  all_goals cases hi

theorem busy_of_fetchFormat {f : Format} (h : fetchFormat s = some f) : s.busy = true := by
  rcases fetchFormat_cases h with ⟨-, e⟩ | ⟨-, e⟩ | ⟨-, e, -⟩ | ⟨-, e, -⟩ <;>
    rw [State.busy, State.status, e] <;> rfl

/-- An element run where its format is awaited keeps the invariant. -/
theorem exec_inv {i : Instr} (h : Inv s) (hf : fetchFormat s = some (formatOf i)) (ht : exec i s = .next t) :
    Inv t := by
  have hrun := h.running (busy_of_fetchFormat hf)
  rcases fetchFormat_cases hf with ⟨hi, -⟩ | ⟨hi, hp⟩ | ⟨hi, hp, hpending⟩ | ⟨hi, hp, -⟩
  · exact execBlock_inv hi hrun ht
  · exact execCl_inv hi hrun (h.headerLoop hp) ht
  · exact execLitlen_inv hi hrun (h.tokenLoop hp) hpending ht
  · exact execDist_inv hi hrun (h.tokenLoop hp) ht

/-! ## Steps -/

/-- A read that the cursor moves on in `SRC` keeps the invariant and the format that is awaited. -/
theorem inv_awaiting_moves (f : Format) : KeptByMoves fun s => Inv s ∧ fetchFormat s = some f := by
  rintro s t ⟨p, -, hp, rfl⟩ ⟨h, hf⟩
  refine ⟨{ h with cursor := fun _ => ?_ }, hf⟩
  simpa [State.hasBits] using hp (h.cursor (busy_of_fetchFormat hf))

/-- The final bit is read before the block begins, so the invariant does not depend on it there (R502). -/
theorem inv_awaiting_header {b : Reg Bool} (h : Inv s ∧ fetchFormat s = some .blockHdr) :
    Inv { s with bfinal := b } ∧ fetchFormat { s with bfinal := b } = some .blockHdr := by
  obtain ⟨hinv, hf⟩ := h
  rcases fetchFormat_cases hf with ⟨-, hp⟩ | ⟨e, -⟩ | ⟨e, -⟩ | ⟨e, -⟩
  · exact ⟨{ hinv with inBlock := by simp [hp] }, hf⟩
  all_goals cases e

theorem instanceTurn_inv (h : Inv s) (ht : instanceTurn s = .next t) : Inv t := by
  rw [instanceTurn] at ht
  split at ht
  · rename_i f hf
    refine fetchAndRun_keeps (P := fun s => Inv s ∧ fetchFormat s = some f)
      (fetchValue_ends (inv_awaiting_moves f) (fun e u b hu => ?_) ⟨h, hf⟩) (fun i u hi hu hexec => ?_)
      (fun k c u hk hu => (hu.1.running (busy_of_fetchFormat hu.2)).inv_abort hk) ht
    · subst e
      exact inv_awaiting_header hu
    · exact exec_inv hu.1 (hi ▸ hu.2) hexec
  · rw [if_neg h.notStored] at ht
    cases ht
    exact h

/-- The commands of the host that take effect: a set-up or a `START` while no decode runs, or a power-on reset. -/
theorem hostTurn_cases (h : hostTurn s = some t) : ∃ cs,
    (s.busy = false ∧ ∃ bytes policy, t = { s with hostCmds := cs }.setup bytes policy) ∨
    t = { s with hostCmds := cs }.start ∨ t = { s with hostCmds := cs }.powerOn := by
  rw [hostTurn] at h
  split at h
  · cases h
  · split at h
    · cases h
    · cases h
      exact ⟨_, .inl ⟨Bool.eq_false_iff.mpr ‹_›, _, _, rfl⟩⟩
  · split at h <;> cases h
    exact ⟨_, .inr (.inl rfl)⟩
  · cases h
    exact ⟨_, .inr (.inr rfl)⟩
  · cases h

/-- The queue of the host's commands is in no clause of the invariant. -/
theorem Inv.withHostCmds (h : Inv s) (cs : List HostCmd) : Inv { s with hostCmds := cs } := { h with }

theorem Inv.setup (h : Inv s) (hidle : s.busy = false) (bytes : List Byte) (policy : Policy) :
    Inv (s.setup bytes policy) :=
  { h with
    srcWf := ofBytes_wf bytes
    cursor := fun hb => absurd (hidle.symm.trans hb) (by decide) }

theorem Inv.start (h : Inv s) : Inv s.start :=
  Running.inv_between (s := s.start)
    ⟨h.srcWf, rfl, fun _ _ => rfl, fun _ _ => Nat.zero_le _, Nat.zero_le _, rfl, rfl⟩ (.inl rfl)

/-- The state at power-on reset (10_state.md R129). -/
theorem inv_reset : Inv State.reset where
  srcWf := rfl
  outWf := rfl
  outBelow := fun _ _ => rfl
  capacity := nofun
  cursor := nofun
  errKind := by decide
  errCause := by decide
  neverRaised := by decide
  notStored := nofun
  inBlock := nofun
  inHeader := nofun
  inTokens := nofun
  inMatch := nofun

theorem Inv.powerOn (h : Inv s) : Inv s.powerOn :=
  { inv_reset with
    srcWf := h.srcWf
    capacity := fun _ _ => Nat.zero_le _
    cursor := nofun }

theorem hostTurn_inv (h : Inv s) (ht : hostTurn s = some t) : Inv t := by
  obtain ⟨cs, ⟨hidle, bytes, policy, rfl⟩ | rfl | rfl⟩ := hostTurn_cases ht
  · exact (h.withHostCmds cs).setup hidle bytes policy
  · exact (h.withHostCmds cs).start
  · exact (h.withHostCmds cs).powerOn

end

end Sys2Proof.Machine

open Sys2Proof.Machine

/-- Settles O53: at reset no clause has a running decode to speak of. -/
theorem resetMeetsTheInvariant : Obligations.ResetMeetsTheInvariant := inv_reset

/-- Settles O54: a command of the host and a turn of the decode each keep the invariant. -/
theorem stepKeepsTheInvariant : Obligations.StepKeepsTheInvariant := by
  intro s t h ht
  cases hturn : hostTurn s with
  | some u =>
    rw [step_of_hostTurn_some hturn] at ht
    cases ht
    exact hostTurn_inv h hturn
  | none =>
    rw [step_of_hostTurn_none hturn, hostTick_eq] at ht
    exact instanceTurn_inv (h.withHostCmds _) ht
end

section
/-! PROOFS. The reads of registers that this decode has not written, each a fault. -/

namespace Sys2Proof.Machine

/-- A rule's read of a register that is not written (10_state.md R128). -/
theorem readReg_unwritten {α : Type} {r : Reg α} {s : State} (h : r.written = false) :
    readReg r s = .fault .unwrittenRegisterRead := by
  rw [readReg, h]
  rfl

/-- A read of a register, written or not, before an operation that faults so. -/
theorem readReg_bind_unwritten {α β : Type} {r : Reg α} {s : State} {f : α → State → Res β}
    (h : r.written = true → f r.val s = .fault .unwrittenRegisterRead) :
    (readReg r s).bind f = .fault .unwrittenRegisterRead := by
  cases hr : r.written with
  | false => rw [readReg_unwritten hr, bind_fault]
  | true => rw [readReg_eq hr, bind_ok, h hr]

section
variable {s : State}

theorem endOfBlock_unwritten (h : s.bfinal.written = false) : endOfBlock s = .fault .unwrittenRegisterRead := by
  rw [endOfBlock, readReg_unwritten h, bind_fault]

/-! ## Code-length elements -/

theorem clRun_unwritten (h : ¬ expanding s) (v : BitVec 4) (n : Nat) :
    clRun v n s = .fault .unwrittenRegisterRead := by
  have happend : appendLengths v n s = .fault .unwrittenRegisterRead :=
    readReg_bind_unwritten fun hl => readReg_bind_unwritten fun hh => readReg_bind_unwritten fun hd =>
      absurd ⟨hl, hh, hd⟩ h
  rw [clRun, happend, bind_fault]

theorem clRep16_unwritten (h : s.lengths.written = false) : clRep16 s = .fault .unwrittenRegisterRead := by
  rw [clRep16, readReg_unwritten h, bind_fault]

/-- A code-length element whose extra bits are there is its run from the cursor past them. -/
theorem exec_of_clRunOf {i : Instr} {e n : Nat} {v : BitVec 4} (h : clRunOf i s = some (e, v, n))
    (hbits : s.hasBits e) (hw : i = .clRep16 → s.lengths.written = true) :
    exec i s = (clRun v n (s.moveTo (s.pos + e))).outcome := by
  cases i
  case clLen c =>
    cases h
    rw [Nat.add_zero, moveTo_pos]
    rfl
  case clRep16 =>
    simp only [clRunOf, Option.map_eq_some_iff] at h
    obtain ⟨p, hp, h⟩ := h
    cases h
    rw [exec, execClRep16, clRep16, readReg_eq (hw rfl), bind_ok]
    simp only [hp]
    rw [readRep16, readBasePlus_eq 3 2 hbits, bind_ok]
  case clZero17 =>
    cases h
    rw [exec, execClZero17, readZero17, readBasePlus_eq 3 3 hbits, bind_ok]
  case clZero18 =>
    cases h
    rw [exec, execClZero18, readZero18, readBasePlus_eq 11 7 hbits, bind_ok]
  all_goals cases h

theorem exec_of_clRunOf_unwritten {i : Instr} {e n : Nat} {v : BitVec 4} (h : clRunOf i s = some (e, v, n))
    (hbits : s.hasBits e) (hw : ¬ expanding s) : exec i s = .fault .unwrittenRegisterRead := by
  by_cases hrep : i = .clRep16 ∧ s.lengths.written = false
  · rw [hrep.1, exec, execClRep16, clRep16_unwritten hrep.2, outcome_fault]
  · rw [exec_of_clRunOf h hbits fun hi => Bool.of_not_eq_false fun hl => hrep ⟨hi, hl⟩]
    rw [clRun_unwritten (by exact hw), outcome_fault]

/-! ## Distance codes -/

/-- No distance of the table is past 32768, so `MATCH_DIST` holds it (10_state.md R121). -/
theorem distRow_range : ∀ row ∈ distRows, row.2.2.2 + 2 ^ row.2.2.1 ≤ 32769 := by decide

/-- The state of a distance code once its distance is read (43_token_loop.md R585). -/
def State.distanceRead (s : State) (row : Instr × Nat × Nat × Nat) : State :=
  { (s.withDsym (BitVec.ofNat 5 row.2.1)).moveTo (s.pos + row.2.2.1) with
    matchDist := wrote (BitVec.ofNat 16 (row.2.2.2 + s.field s.pos row.2.2.1)) }

/-- A distance code whose extra bits are there, and whose distance is in reach, goes on to its copy (R617). -/
theorem distanceCode_inReach {row : Instr × Nat × Nat × Nat} (hrow : row ∈ distRows) (hbits : s.hasBits row.2.2.1)
    (hreach : row.2.2.2 + s.field s.pos row.2.2.1 ≤ s.outLen) :
    distanceCode row.2.1 s =
      (copyMatch (s.distanceRead row)).bind fun _ t => .ok () { t with distPending := false } := by
  have hval : (BitVec.ofNat 16 (row.2.2.2 + s.field s.pos row.2.2.1)).toNat =
      row.2.2.2 + s.field s.pos row.2.2.1 := by
    have := field_lt s s.pos row.2.2.1
    have := distRow_range row hrow
    rw [BitVec.toNat_ofNat]
    omega
  have hread : readMatchDist row.2.1 (s.withDsym (BitVec.ofNat 5 row.2.1)) =
      .ok (row.2.2.2 + s.field s.pos row.2.2.1)
        ((s.withDsym (BitVec.ofNat 5 row.2.1)).moveTo (s.pos + row.2.2.1)) := by
    rw [readMatchDist, distEntry_distRow row hrow]
    exact readBasePlus_eq _ _ hbits
  have hcheck : checkDistance (s.distanceRead row) = .ok () (s.distanceRead row) := by
    rw [checkDistance, readReg_eq rfl, bind_ok]
    refine if_neg (Nat.not_lt.mpr ?_)
    exact hval.trans_le hreach
  rw [distanceCode, hread, bind_ok]
  exact congrArg (Res.bind · _) hcheck

/-! ## The read of the next value -/

theorem instanceTurn_of_fetch_fault {f : Format} {x : Fault} (hf : fetchFormat s = some f)
    (h : fetchValue f s = .fault x) : instanceTurn s = .fault x := by
  simp only [instanceTurn, hf, fetchAndRun, h]

theorem instanceTurn_stored (h : s.phase = .stored) : instanceTurn s = (resumeStored s).outcome := by
  simp only [instanceTurn, fetchFormat, h, if_true]

theorem fetchFormat_tokens (h : s.phase = .tokens) :
    fetchFormat s = some (if s.distPending then .distSymbol else .litlenSymbol) := by
  simp only [fetchFormat, h]

/-- In a block that is not fixed the value is read with a tree, which must be written; so must BTYPE. -/
theorem readFixedMode_bind_unwritten {α : Type} {g : Bool → State → Res α}
    (h : s.btype.written = true → g (decide (s.btype.val = 1)) s = .fault .unwrittenRegisterRead) :
    (readFixedMode s).bind g = .fault .unwrittenRegisterRead := by
  cases hw : s.btype.written with
  | false => rw [readFixedMode, readReg_unwritten hw, bind_fault, bind_fault]
  | true => rw [readFixedMode, readReg_eq hw, bind_ok, bind_ok, h hw]

theorem instanceTurn_without_clTree (hp : s.phase = .dynHeader) (h : s.clTree.written = false) :
    instanceTurn s = .fault .unwrittenRegisterRead := by
  refine instanceTurn_of_fetch_fault (f := .clSymbol) (by simp only [fetchFormat, hp]) ?_
  rw [fetchValue, fetchCl, readReg_unwritten h, bind_fault]

theorem instanceTurn_without_btype (hp : s.phase = .tokens) (h : s.btype.written = false) :
    instanceTurn s = .fault .unwrittenRegisterRead := by
  refine instanceTurn_of_fetch_fault (fetchFormat_tokens hp) ?_
  cases s.distPending
  · exact readFixedMode_bind_unwritten fun hw => absurd (h.symm.trans hw) (by decide)
  · exact readFixedMode_bind_unwritten fun hw => absurd (h.symm.trans hw) (by decide)

theorem instanceTurn_without_litTree (hp : s.phase = .tokens) (hb : s.btype.val ≠ 1) (hd : s.distPending = false)
    (h : s.litTree.written = false) : instanceTurn s = .fault .unwrittenRegisterRead := by
  refine instanceTurn_of_fetch_fault (f := .litlenSymbol) (by rw [fetchFormat_tokens hp, hd]; rfl) ?_
  refine readFixedMode_bind_unwritten fun _ => ?_
  rw [decide_eq_false hb, readReg_unwritten h]
  rfl

theorem instanceTurn_without_distTree (hp : s.phase = .tokens) (hb : s.btype.val ≠ 1) (hd : s.distPending = true)
    (h : s.distTree.written = false) : instanceTurn s = .fault .unwrittenRegisterRead := by
  refine instanceTurn_of_fetch_fault (f := .distSymbol) (by rw [fetchFormat_tokens hp, hd]; rfl) ?_
  refine readFixedMode_bind_unwritten fun _ => ?_
  rw [decide_eq_false hb, readReg_unwritten h]
  rfl

theorem instanceTurn_without_remain (hp : s.phase = .stored) (h : s.remain.written = false) :
    instanceTurn s = .fault .unwrittenRegisterRead := by
  rw [instanceTurn_stored hp, resumeStored, readReg_unwritten h, bind_fault, outcome_fault]

/-- The rest of a stored block whose bytes are there and fit is copied before BFINAL is read (R512, R508). -/
theorem instanceTurn_stored_without_bfinal (hp : s.phase = .stored) (hb : s.bitIdx = 0)
    (hbits : s.hasBits (8 * s.remain.val.toNat)) (hroom : s.hasRoom s.remain.val.toNat)
    (h : s.bfinal.written = false) : instanceTurn s = .fault .unwrittenRegisterRead := by
  have hresume : resumeStored s = .fault .unwrittenRegisterRead := by
    refine readReg_bind_unwritten fun _ => ?_
    rw [copyStoredLoop_eq _ s ((bitIdx_eq_zero s).mp hb) hbits hroom, bind_ok]
    exact endOfBlock_unwritten h
  rw [instanceTurn_stored hp, hresume, outcome_fault]

end

end Sys2Proof.Machine

open Sys2Proof.Machine

/-- Settles O47: each clause is the first read of an unwritten register on the element's, or the fetch's, own path. -/
theorem unwrittenReadsFault : Obligations.UnwrittenReadsFault := by
  have hlengths : ∀ s : State, s.lengths.written = false → ¬ expanding s :=
    fun s h hs => absurd (h.symm.trans hs.1) (by decide)
  refine ⟨fun s h => ?eob, fun row hrow s hbits hreach h => ?distance,
    fun c s h => ?clLen, fun s h => ?clRep16,
    fun s h hbits => exec_of_clRunOf_unwritten (i := .clZero17) rfl hbits (hlengths s h),
    fun s h hbits => exec_of_clRunOf_unwritten (i := .clZero18) rfl hbits (hlengths s h),
    fun i s e n v hrun hbits h => exec_of_clRunOf_unwritten hrun hbits ?counts, fun s hturn => ?step⟩
  case eob =>
    rw [exec, execEob, endOfBlock_unwritten (by exact h), outcome_fault]
  case distance =>
    rw [exec_distRow row hrow, distanceCode_inReach hrow hbits hreach, copyMatch, readReg_unwritten (by exact h)]
    rfl
  case clLen => rw [exec, execClLen, clRun_unwritten (hlengths s h), outcome_fault]
  case clRep16 => rw [exec, execClRep16, clRep16_unwritten h, outcome_fault]
  case counts =>
    rintro ⟨-, hhlit, hhdist⟩
    rcases h with h | h
    · exact absurd (h.symm.trans hhlit) (by decide)
    · exact absurd (h.symm.trans hhdist) (by decide)
  case step =>
    rw [step_of_hostTurn_none hturn, hostTick_eq]
    exact ⟨fun hp h => instanceTurn_without_clTree hp h, fun hp h => instanceTurn_without_btype hp h,
      fun hp hb hd h => instanceTurn_without_litTree hp hb hd h,
      fun hp hb hd h => instanceTurn_without_distTree hp hb hd h,
      fun hp h => instanceTurn_without_remain hp h,
      fun hp hb hbits hroom h => instanceTurn_stored_without_bfinal hp hb hbits hroom h⟩
end

section
/-! PROOFS. The host's side: reset, set-up, commands that wait, and what the host may read. -/

namespace Sys2Proof.Machine

section
variable {s : State}

theorem busy_iff : s.busy = true ↔ s.status = .busy := decide_eq_true_iff

theorem hostTurn_setup {bytes : List Byte} {policy : Policy} {cs : List HostCmd}
    (h : s.hostCmds = .setup bytes policy :: cs) :
    hostTurn s = if s.busy then none else some ({ s with hostCmds := cs }.setup bytes policy) := by
  simp only [hostTurn, h]

theorem hostTurn_start {cs : List HostCmd} (h : s.hostCmds = .start :: cs) :
    hostTurn s = if s.busy then none else some { s with hostCmds := cs }.start := by
  simp only [hostTurn, h]

/-- Only a coming power-on reset is counted down (log entry 2). -/
theorem hostTick_of_not_reset (h : ∀ n cs, s.hostCmds ≠ .powerOnReset (n + 1) :: cs) : s.hostTick = s := by
  unfold State.hostTick
  split
  · exact absurd ‹_› (h _ _)
  · rfl

/-! ## The read of `OUT` -/

@[simp] theorem length_outBytesFrom (m : Memory) (a n : Nat) : (outBytesFrom m a n).length = n := by
  induction n generalizing a with
  | zero => rfl
  | succ n ih => rw [outBytesFrom, List.length_cons, ih]

theorem outBytesFrom_getD (m : Memory) (a : Nat) {n i : Nat} (h : i < n) :
    (outBytesFrom m a n).getD i 0 = Memory.read m (a + i) := by
  induction n generalizing a i with
  | zero => exact absurd h (Nat.not_lt_zero i)
  | succ n ih =>
    cases i with
    | zero => rfl
    | succ i =>
      rw [outBytesFrom, List.getD_cons_succ, ih (a + 1) (Nat.lt_of_succ_lt_succ h), Nat.add_assoc, Nat.add_comm 1 i]

end

end Sys2Proof.Machine

open Sys2Proof.Machine

/-- Settles O1, register by register. -/
theorem resetIsIdleWithNothingWritten : Obligations.ResetIsIdleWithNothingWritten := by
  have hunwritten : State.reset.allUnwritten := by
    simp only [State.allUnwritten, State.reset, unwritten_written, and_self]
  exact ⟨rfl, rfl, rfl, rfl, hunwritten, rfl⟩

/-- Settles O4: where no decode runs a set-up takes effect at once. -/
theorem setupSuppliesTheInputs : Obligations.SetupSuppliesTheInputs := by
  intro s bytes policy cs hcmds hidle
  have hturn : hostTurn s = some ({ s with hostCmds := cs }.setup bytes policy) := by
    rw [hostTurn_setup hcmds, if_neg (mt busy_iff.mp hidle)]
  exact ⟨_, step_of_hostTurn_some hturn, fun i _ => read_ofBytes bytes i, rfl⟩

/-- Settles O5: neither command takes effect while busy, and neither counts down. -/
theorem setupAndStartWaitWhileBusy : Obligations.SetupAndStartWaitWhileBusy := by
  intro s cs hbusy hcmds
  have hturn : hostTurn s = none := by
    rcases hcmds with h | ⟨bytes, policy, h⟩
    · rw [hostTurn_start h, if_pos (busy_iff.mpr hbusy)]
    · rw [hostTurn_setup h, if_pos (busy_iff.mpr hbusy)]
  have htick : s.hostTick = s := by
    refine hostTick_of_not_reset fun n ds hreset => ?_
    rcases hcmds with h | ⟨bytes, policy, h⟩ <;> cases h.symm.trans hreset
  rw [step_of_hostTurn_none hturn, htick]

/-- Settles O7: each read of the host has `DONE_OK` as its guard. -/
theorem outputIsReadableExactlyAfterSuccess : Obligations.OutputIsReadableExactlyAfterSuccess := by
  refine fun s => ⟨fun h => ⟨if_neg h, if_neg h, if_neg h⟩, fun h => ⟨if_pos h, if_pos h, _, if_pos h, ?_, ?_⟩⟩
  · exact length_outBytesFrom s.out 0 s.outLen
  · intro i hi
    rw [outBytesFrom_getD s.out 0 hi, Nat.zero_add]

/-- Settles O8, number by number. -/
theorem statusAndErrorNumbers : Obligations.StatusAndErrorNumbers := ⟨rfl, rfl, rfl⟩
end

section
/-! PROOFS. The encoding, in its two layers: which values of a format select an element and which value an element has
(30_encoding.md R310 to R314), and the bits in which the stream writes a value (R301, R306, R309). -/

namespace Sys2Proof.Machine

/-! ## The opcode map -/

/-- The number of values of a format that have a row in the opcode table (30_encoding.md R310 to R313). -/
def rowCount : Format → Nat
  | .blockHdr => 8
  | .litlenSymbol => 288
  | .distSymbol => 32
  | .clSymbol => 19

/-- What the opcode map answers for the value `v` of a format whose rows are the values below `n`: a well-formed element
of value `v` where there is a row, and an error where there is none. -/
def AnswersRow (n v : Nat) : Except DecodeError Instr → Prop
  | .ok i => v < n ∧ wellFormed i = true ∧ encode i = v
  | .error _ => n ≤ v

theorem bitNat_mod_two (v : Nat) : bitNat (decide (v % 2 = 1)) = v % 2 := by
  rcases Nat.mod_two_eq_zero_or_one v with h | h <;> rw [h] <;> rfl

theorem headerValue_div_mod {v t : Nat} (h : v / 2 = t) : headerValue t (decide (v % 2 = 1)) = v := by
  rw [headerValue, bitNat_mod_two, ← h, Nat.div_add_mod]

/-- The codes of a list whose values count up from `a`. -/
theorem encode_of_getElem? {codes : List Instr} {a n : Nat} (hcodes : codes.map encode = List.range' a n) {k : Nat}
    {i : Instr} (h : codes[k]? = some i) : k < n ∧ encode i = a + k := by
  have hk : (List.range' a n)[k]? = some (encode i) := by rw [← hcodes, List.getElem?_map, h, Option.map_some]
  rw [List.getElem?_eq_some_iff] at hk
  obtain ⟨hlt, hval⟩ := hk
  exact ⟨by simpa using hlt, by rw [← hval, List.getElem_range', Nat.one_mul]⟩

theorem encode_lengthCodes : lengthCodes.map encode = List.range' 257 29 := rfl

theorem encode_distanceCodes : distanceCodes.map encode = List.range' 0 30 := rfl

theorem wellFormed_lengthCodes : ∀ i ∈ lengthCodes, wellFormed i = true := by decide

theorem wellFormed_distanceCodes : ∀ i ∈ distanceCodes, wellFormed i = true := by decide

theorem decodeBlockHdr_answersRow (v : Nat) : AnswersRow 8 v (decodeBlockHdr v) := by
  unfold decodeBlockHdr
  split
  case h_5 h0 h1 h2 h3 =>
    simp only [imp_false] at h0 h1 h2 h3
    exact (by omega : 8 ≤ v)
  all_goals exact ⟨by omega, rfl, headerValue_div_mod ‹_›⟩

theorem decodeLitlen_answersRow (v : Nat) : AnswersRow 288 v (decodeLitlen v) := by
  unfold decodeLitlen
  split
  case isTrue h =>
    have hv : (BitVec.ofNat 9 v).toNat = v := Nat.mod_eq_of_lt (by omega)
    exact ⟨by omega, decide_eq_true (hv.symm ▸ h), hv⟩
  case isFalse hlit =>
    split
    case isTrue h => exact ⟨by omega, rfl, h.symm⟩
    case isFalse heob =>
      split
      case h_1 i h =>
        obtain ⟨hk, hval⟩ := encode_of_getElem? encode_lengthCodes h
        exact ⟨by omega, wellFormed_lengthCodes i (List.mem_of_getElem? h), by omega⟩
      case h_2 h =>
        have hk : 29 ≤ v - 257 := List.getElem?_eq_none_iff.mp h
        split
        case isTrue hlt =>
          have hv : (BitVec.ofNat 9 v).toNat = v := Nat.mod_eq_of_lt (by omega)
          exact ⟨hlt, decide_eq_true (by omega), hv⟩
        case isFalse hge => exact Nat.not_lt.mp hge

theorem decodeDist_answersRow (v : Nat) : AnswersRow 32 v (decodeDist v) := by
  unfold decodeDist
  split
  case h_1 i h =>
    obtain ⟨hk, hval⟩ := encode_of_getElem? encode_distanceCodes h
    exact ⟨by omega, wellFormed_distanceCodes i (List.mem_of_getElem? h), by omega⟩
  case h_2 h =>
    have hk : 30 ≤ v := List.getElem?_eq_none_iff.mp h
    split
    case isTrue hlt =>
      have hv : (BitVec.ofNat 5 v).toNat = v := Nat.mod_eq_of_lt hlt
      exact ⟨hlt, decide_eq_true (by omega), hv⟩
    case isFalse hge => exact Nat.not_lt.mp hge

theorem decodeCl_answersRow (v : Nat) : AnswersRow 19 v (decodeCl v) := by
  unfold decodeCl
  split
  case isTrue h =>
    have hv : (BitVec.ofNat 5 v).toNat = v := Nat.mod_eq_of_lt (by omega)
    exact ⟨by omega, decide_eq_true (hv.symm ▸ h), hv⟩
  case isFalse hlen =>
    split
    case h_1 h => exact ⟨by omega, rfl, (by omega : 16 = v)⟩
    case h_2 h => exact ⟨by omega, rfl, (by omega : 17 = v)⟩
    case h_3 h => exact ⟨by omega, rfl, (by omega : 18 = v)⟩
    case h_4 h0 h1 h2 =>
      simp only [imp_false] at h0 h1 h2
      exact (by omega : 19 ≤ v)

theorem decodeValue_answersRow : ∀ f v, AnswersRow (rowCount f) v (decodeValue f v)
  | .blockHdr, v => decodeBlockHdr_answersRow v
  | .litlenSymbol, v => decodeLitlen_answersRow v
  | .distSymbol, v => decodeDist_answersRow v
  | .clSymbol, v => decodeCl_answersRow v

section
variable {f : Format} {v : Nat} {i : Instr}

theorem decodeValue_ok (h : decodeValue f v = .ok i) : v < rowCount f ∧ wellFormed i = true ∧ encode i = v := by
  have hrow := decodeValue_answersRow f v
  rwa [h] at hrow

theorem exists_decodeValue_iff : (∃ i, decodeValue f v = .ok i) ↔ v < rowCount f := by
  refine ⟨fun ⟨i, h⟩ => (decodeValue_ok h).1, fun hv => ?_⟩
  have hrow := decodeValue_answersRow f v
  cases h : decodeValue f v with
  | ok i => exact ⟨i, rfl⟩
  | error e =>
    rw [h] at hrow
    exact absurd hv (Nat.not_lt.mpr hrow)

end

/-- The opcode map read back, for every element: the value of a well-formed element selects it. -/
theorem decodeValue_encode {i : Instr} (h : wellFormed i = true) : decodeValue (formatOf i) (encode i) = .ok i := by
  have hlength : ∀ row ∈ lengthRows, Laws.OpcodeMap.Statement row.1 := by
    intro row hrow
    fin_cases hrow <;> exact fun _ => rfl
  have hdistance : ∀ row ∈ distRows, Laws.OpcodeMap.Statement row.1 := by
    intro row hrow
    fin_cases hrow <;> exact fun _ => rfl
  exact instr_byKind (motive := Laws.OpcodeMap.Statement) Laws.OpcodeMap.blkStored Laws.OpcodeMap.blkFixed
    Laws.OpcodeMap.blkDynamic Laws.OpcodeMap.blkReserved Laws.OpcodeMap.lit Laws.OpcodeMap.eob hlength
    Laws.OpcodeMap.litlenInvalid hdistance Laws.OpcodeMap.distInvalid Laws.OpcodeMap.clLen Laws.OpcodeMap.clRep16
    Laws.OpcodeMap.clZero17 Laws.OpcodeMap.clZero18 i h

/-! ## The bits of a value -/

/-- A field of `n` bits reads back the low `n` bits of the value written (20_memory.md R206). -/
theorem natOfBitsLsb_bitsLsb (n v : Nat) : natOfBitsLsb (bitsLsb n v) = v % 2 ^ n := by
  induction n generalizing v with
  | zero => rw [Nat.pow_zero, Nat.mod_one]; rfl
  | succ n ih => rw [bitsLsb, natOfBitsLsb, bitNat_mod_two, ih, Nat.pow_succ', Nat.mod_mul]

/-- Least significant first, the low `n` bits come first, whatever stands above them. -/
theorem bitsLsb_add_mul {n c : Nat} (m p : Nat) (hc : c < 2 ^ n) :
    bitsLsb (n + m) (p * 2 ^ n + c) = bitsLsb n c ++ bitsLsb m p := by
  induction n generalizing c with
  | zero => simp [show c = 0 by simpa using hc, bitsLsb]
  | succ n ih =>
    have hc' : c / 2 < 2 ^ n := by rw [Nat.pow_succ] at hc; omega
    have hmod : (p * 2 ^ (n + 1) + c) % 2 = c % 2 := by rw [Nat.pow_succ, ← Nat.mul_assoc]; omega
    have hdiv : (p * 2 ^ (n + 1) + c) / 2 = p * 2 ^ n + c / 2 := by rw [Nat.pow_succ, ← Nat.mul_assoc]; omega
    rw [Nat.add_right_comm, bitsLsb, bitsLsb, hmod, hdiv, ih hc', List.cons_append]

/-- Most significant first, the bits of a code are those of a path and then those of the rest of the code. -/
theorem bitsMsb_add_mul {n c : Nat} (m p : Nat) (hc : c < 2 ^ n) :
    bitsMsb (m + n) (p * 2 ^ n + c) = bitsMsb m p ++ bitsMsb n c := by
  rw [bitsMsb, Nat.add_comm, bitsLsb_add_mul m p hc, List.reverse_append]
  rfl

/-- The bit of weight 2^`d` goes first. -/
theorem bitsMsb_succ {d c : Nat} (p : Nat) (hc : c < 2 ^ d) :
    bitsMsb (d + 1) (p * 2 ^ d + c) = decide (p % 2 = 1) :: bitsMsb d c := by
  rw [Nat.add_comm d, bitsMsb_add_mul 1 p hc]
  rfl

/-- A complete tree gives its leaves, from left to right, the codes 0, 1, …. -/
theorem walk_fullTree {d c : Nat} (x : Nat) (rest : List Bool) (hc : c < 2 ^ d) :
    walk (fullTree d x) (bitsMsb d c ++ rest) = .found (x + c) rest := by
  induction d generalizing x c with
  | zero =>
    rw [show c = 0 by simpa using hc]
    rfl
  | succ d ih =>
    by_cases hleft : c < 2 ^ d
    · have hbits := bitsMsb_succ 0 hleft
      rw [Nat.zero_mul, Nat.zero_add] at hbits
      rw [hbits]
      exact ih x hleft
    · obtain ⟨c', rfl⟩ := Nat.exists_eq_add_of_le (Nat.not_lt.mp hleft)
      have hright : c' < 2 ^ d := by rw [Nat.pow_succ] at hc; omega
      have hbits := bitsMsb_succ 1 hright
      rw [Nat.one_mul] at hbits
      rw [hbits, ← Nat.add_assoc]
      exact ih (x + 2 ^ d) hright

/-- Where the `m`-bit path of value `p` leads to the complete subtree of depth `d` with the symbols from `x` on, the
codes that go on from that path are those of its leaves. -/
theorem walk_of_subtree {T : Tree} {v w : Nat} {rest : List Bool} (m p d x : Nat)
    (hpath : ∀ bs, walk T (bitsMsb m p ++ bs) = walk (fullTree d x) bs)
    (hcode : x ≤ v ∧ v < x + 2 ^ d ∧ w + x = p * 2 ^ d + v) :
    walk T (bitsMsb (m + d) w ++ rest) = .found v rest := by
  obtain ⟨hfirst, hlast, hw⟩ := hcode
  obtain ⟨c, rfl⟩ := Nat.exists_eq_add_of_le hfirst
  have hc : c < 2 ^ d := by omega
  rw [show w = p * 2 ^ d + c by omega, bitsMsb_add_mul m p hc, List.append_assoc, hpath, walk_fullTree x rest hc]

/-- The ranges of R309, each cut where `fixedLitTree` has its complete subtrees. -/
theorem walk_fixedCodeBits {v : Nat} (rest : List Bool) (hv : v < 288) :
    walk fixedLitTree (fixedCodeBits v ++ rest) = .found v rest := by
  unfold fixedCodeBits
  split
  case isTrue h144 =>
    rcases (by omega : v < 16 ∨ (16 ≤ v ∧ v < 80) ∨ 80 ≤ v) with h | h | h
    · exact walk_of_subtree 4 3 4 0 (fun _ => rfl) (by omega)
    · exact walk_of_subtree 2 1 6 16 (fun _ => rfl) (by omega)
    · exact walk_of_subtree 2 2 6 80 (fun _ => rfl) (by omega)
  case isFalse h144 =>
    split
    case isTrue h256 =>
      rcases (by omega : v < 160 ∨ (160 ≤ v ∧ v < 192) ∨ 192 ≤ v) with h | h | h
      · exact walk_of_subtree 5 25 4 144 (fun _ => rfl) (by omega)
      · exact walk_of_subtree 4 13 5 160 (fun _ => rfl) (by omega)
      · exact walk_of_subtree 3 7 6 192 (fun _ => rfl) (by omega)
    case isFalse h256 =>
      split
      case isTrue h280 =>
        by_cases h : v < 272
        · exact walk_of_subtree 3 0 4 256 (fun _ => rfl) (by omega)
        · exact walk_of_subtree 4 2 3 272 (fun _ => rfl) (by omega)
      case isFalse h280 =>
        exact walk_of_subtree 5 24 3 280 (fun _ => rfl) (by omega)

theorem walk_plainClTree {v : Nat} (rest : List Bool) (hv : v < 19) :
    walk plainClTree (bitsMsb 5 v ++ rest) = .found v rest := by
  rcases (by omega : v < 16 ∨ v = 16 ∨ v = 17 ∨ v = 18) with h | rfl | rfl | rfl
  · exact walk_of_subtree 1 0 4 0 (fun _ => rfl) (by omega)
  all_goals rfl

/-! ## Reading back what is written -/

/-- The value of a format reads back from its bits (R301, R306, R309). -/
theorem readCode_fixedBits {f : Format} {v : Nat} (rest : List Bool) (hv : v < rowCount f) :
    readCode (fixedValueCode f) (fixedBits f v ++ rest) = .ok (v, rest) := by
  cases f with
  | blockHdr =>
    have hlen := length_bitsLsb 3 v
    have hval : natOfBitsLsb (bitsLsb 3 v) = v := (natOfBitsLsb_bitsLsb 3 v).trans (Nat.mod_eq_of_lt hv)
    rw [fixedValueCode, fixedBits, readCode, if_neg (by rw [List.length_append]; omega), List.take_left' hlen,
      List.drop_left' hlen, hval]
  | litlenSymbol =>
    rw [fixedValueCode, fixedBits, readCode, walk_fixedCodeBits rest hv]
  | distSymbol =>
    have hlen := length_bitsMsb 5 v
    have hval : natOfBitsLsb (bitsMsb 5 v).reverse = v := by
      rw [bitsMsb, List.reverse_reverse, natOfBitsLsb_bitsLsb]
      exact Nat.mod_eq_of_lt hv
    rw [fixedValueCode, fixedBits, readCode, if_neg (by rw [List.length_append]; omega), List.take_left' hlen,
      List.drop_left' hlen, hval]
  | clSymbol =>
    rw [fixedValueCode, fixedBits, readCode, walk_plainClTree rest hv]

theorem codeFormat_fixedValueCode (f : Format) : codeFormat (fixedValueCode f) = f := by
  cases f <;> rfl

theorem decodeBits_of_readCode {k : ValueCode} {bs rest : List Bool} {v : Nat} {i : Instr}
    (hread : readCode k bs = .ok (v, rest)) (hrow : decodeValue (codeFormat k) v = .ok i) :
    decodeBits k bs = .ok (i, rest) := by
  simp only [decodeBits, hread, hrow]

end Sys2Proof.Machine

open Sys2Proof.Machine

/-- Settles O12, word by word. -/
theorem writtenWordsDecode : Obligations.WrittenWordsDecode :=
  ⟨rfl, rfl, rfl, rfl, rfl, rfl, rfl, rfl, rfl, rfl, rfl⟩

/-- Settles O13: the value's bits read back as the value, and the value selects the element. -/
theorem encodedElementsDecodeBack : Obligations.EncodedElementsDecodeBack := by
  intro i rest hwf
  have hrow := decodeValue_encode hwf
  refine decodeBits_of_readCode (readCode_fixedBits rest (decodeValue_ok hrow).1) ?_
  rw [codeFormat_fixedValueCode, hrow]

/-- Settles O14, from what the map answers for every value of every format. -/
theorem opcodeMapIsOneToOne : Obligations.OpcodeMapIsOneToOne := by
  refine ⟨fun _ => exists_decodeValue_iff, fun _ => exists_decodeValue_iff, fun _ => exists_decodeValue_iff,
    fun _ => exists_decodeValue_iff, fun f v i h => ?_⟩
  obtain ⟨-, hwf, hval⟩ := decodeValue_ok h
  exact ⟨hwf, formatOf_decodeValue h, hval⟩
end

section
/-! PROOFS. The bit cursor: what its operations read, where they leave it, and what comes of a read that runs past the
end of `SRC`, of an operand or of the next element's value. -/

namespace Sys2Proof.Machine

/-! ## The bits of a field -/

theorem bitNat_add_two_mul (b : Bool) (v : Nat) : bitNat b + 2 * v = Nat.bit b v := by
  cases b
  · exact Nat.zero_add _
  · exact Nat.add_comm _ _

theorem testBit_natOfBitsLsb (bs : List Bool) (i : Nat) : (natOfBitsLsb bs).testBit i = bs.getD i false := by
  induction bs generalizing i with
  | nil => exact Nat.zero_testBit i
  | cons b bs ih =>
    rw [natOfBitsLsb, bitNat_add_two_mul]
    cases i with
    | zero => exact Nat.testBit_bit_zero b _
    | succ i => rw [Nat.testBit_bit_succ, ih, List.getD_cons_succ]

section
variable {s : State}

theorem getD_bitsAt (p : Nat) {n i : Nat} (h : i < n) : (s.bitsAt p n).getD i false = s.streamBit (p + i) := by
  rw [List.getD_eq_getElem _ _ (by rwa [length_bitsAt])]
  simp only [State.bitsAt, List.getElem_map, List.getElem_range]

/-- The field's bit of weight 2^i is the one read after `i` others (20_memory.md R206). -/
theorem testBit_field (p : Nat) {n i : Nat} (h : i < n) : (s.field p n).testBit i = s.streamBit (p + i) := by
  rw [State.field, testBit_natOfBitsLsb, getD_bitsAt p h]

/-- Read the other way round, the bit read after `i` others has `n - 1 - i` below it (20_memory.md R207). -/
theorem testBit_reversed_bitsAt (p : Nat) {n i : Nat} (h : i < n) :
    (natOfBitsLsb (s.bitsAt p n).reverse).testBit (n - 1 - i) = s.streamBit (p + i) := by
  have hrev : (s.bitsAt p n).reverse.getD (n - 1 - i) false = (s.bitsAt p n).getD i false := by
    rw [List.getD_eq_getElem?_getD, List.getElem?_reverse (by rw [length_bitsAt]; omega), length_bitsAt,
      show n - 1 - (n - 1 - i) = i by omega, List.getD_eq_getElem?_getD]
  rw [testBit_natOfBitsLsb, hrev, getD_bitsAt p h]

/-! ## Byte boundaries -/

theorem bitIdx_alignToByte (s : State) : (alignToByte s).bitIdx = 0 := by
  rw [alignToByte_eq, bitIdx_eq_zero, pos_moveTo, State.alignedPos, Nat.mul_mod_right]

theorem alignToByte_of_aligned (h : s.bitIdx = 0) : alignToByte s = s := if_pos h

/-- At a byte boundary the cursor eight bits on is the next byte's. -/
theorem moveTo_next_byte (h : s.bitIdx = 0) : s.moveTo (s.pos + 8) = { s with byteIdx := s.byteIdx + 1 } := by
  have hmod := (bitIdx_eq_zero s).mp h
  have hbyte : (s.pos + 8) / 8 = s.byteIdx + 1 := by rw [byteIdx_eq]; omega
  have hbit : BitVec.ofNat 3 ((s.pos + 8) % 8) = s.bitIdx := by rw [h, Nat.add_mod_right, hmod]; rfl
  rw [State.moveTo, hbyte, hbit]

theorem hasBits_byte (h : s.bitIdx = 0) : s.hasBits 8 ↔ s.byteIdx < s.srcLen := by
  have hmod := (bitIdx_eq_zero s).mp h
  have hbyte := byteIdx_eq s
  simp only [State.hasBits]
  omega

/-! ## Overrunning the source -/

theorem sourceOverrun_checked {α : Type} (h : s.policy = .checked) :
    (sourceOverrun s : Res α) = .raise .outOfRange .none s := by
  rw [sourceOverrun, h]

theorem sourceOverrun_raw {α : Type} (h : s.policy = .raw) :
    (sourceOverrun s : Res α) = .fault .undefinedSourceRead := by
  rw [sourceOverrun, h]

/-- The operation overruns `SRC` in a state whose source, policy and output are those of `s`. -/
def Overruns {α : Type} (s : State) (r : Res α) : Prop :=
  ∃ t : State, r = sourceOverrun t ∧ t.policy = s.policy ∧ t.src = s.src ∧ t.out = s.out ∧ t.outLen = s.outLen

/-- An element, or a step, ends as a read past the end of `SRC` makes it end: with `OutOfRange` under `CHECKED`, source
and output as in `s`, and in the fault under `RAW` (40_bit_cursor.md R406, 60_exceptions.md R820). -/
def EndsInOverrun (s : State) (o : Host.Outcome State Fault Refusal) : Prop :=
  (s.policy = .checked → ∃ t, o = .next t ∧ t.phase = .error ∧ t.errKind = .outOfRange ∧ t.errCause = .none ∧
    t.out = s.out ∧ t.outLen = s.outLen ∧ t.src = s.src) ∧
  (s.policy = .raw → o = .fault .undefinedSourceRead)

theorem overruns_atEnd {α : Type} (s : State) : Overruns s (sourceOverrun s.atEnd : Res α) :=
  ⟨s.atEnd, rfl, rfl, rfl, rfl, rfl⟩

theorem Overruns.bind {α β : Type} {r : Res α} (h : Overruns s r) (f : α → State → Res β) : Overruns s (r.bind f) := by
  obtain ⟨t, rfl, ht⟩ := h
  exact ⟨t, bind_sourceOverrun t f, ht⟩

theorem Overruns.outcome {r : Res Unit} (h : Overruns s r) : EndsInOverrun s r.outcome := by
  obtain ⟨t, rfl, hpolicy, hsrc, hout, houtLen⟩ := h
  refine ⟨fun hp => ?checked, fun hp => ?raw⟩
  case checked =>
    rw [sourceOverrun_checked (hpolicy.trans hp)]
    exact ⟨t.abort .outOfRange .none, rfl, rfl, rfl, rfl, hout, houtLen, hsrc⟩
  case raw => rw [sourceOverrun_raw (hpolicy.trans hp), outcome_fault]

theorem readBits_overruns {n : Nat} (h0 : s.hasBits 0) (h : ¬ s.hasBits n) : Overruns s (readBits n s) := by
  rw [readBits_short n h0 h]
  exact overruns_atEnd s

theorem readBasePlus_overruns (base : Nat) {n : Nat} (h0 : s.hasBits 0) (h : ¬ s.hasBits n) :
    Overruns s (readBasePlus base n s) := (readBits_overruns h0 h).bind _

/-! ## Elements with extra bits -/

theorem lengthCode_overruns {row : Instr × Nat × Nat × Nat} (hrow : row ∈ lengthRows) (h0 : s.hasBits 0)
    (h : ¬ s.hasBits row.2.2.1) : Overruns s (lengthCode row.2.1 s) := by
  have hread : Overruns (s.withSym (BitVec.ofNat 9 row.2.1))
      (readMatchLength row.2.1 (s.withSym (BitVec.ofNat 9 row.2.1))) := by
    rw [readMatchLength, lengthEntry_lengthRow row hrow]
    exact readBasePlus_overruns _ h0 h
  exact hread.bind _

theorem distanceCode_overruns {row : Instr × Nat × Nat × Nat} (hrow : row ∈ distRows) (h0 : s.hasBits 0)
    (h : ¬ s.hasBits row.2.2.1) : Overruns s (distanceCode row.2.1 s) := by
  have hread : Overruns (s.withDsym (BitVec.ofNat 5 row.2.1))
      (readMatchDist row.2.1 (s.withDsym (BitVec.ofNat 5 row.2.1))) := by
    rw [readMatchDist, distEntry_distRow row hrow]
    exact readBasePlus_overruns _ h0 h
  exact hread.bind _

/-- A code-length element's run needs its extra bits first; `CL_LEN` has none to run short of. -/
theorem exec_clRunOf_overrun {i : Instr} {e n : Nat} {v : BitVec 4} (hrun : clRunOf i s = some (e, v, n))
    (hw : s.lengths.written = true) (h0 : s.hasBits 0) (h : ¬ s.hasBits e) : EndsInOverrun s (exec i s) := by
  cases i
  case clLen c =>
    cases hrun
    exact absurd h0 h
  case clRep16 =>
    simp only [clRunOf, Option.map_eq_some_iff] at hrun
    obtain ⟨p, hp, hrun⟩ := hrun
    cases hrun
    have hrep : clRep16 s = (readRep16 s).bind fun n s => clRun v n s := by
      rw [clRep16, readReg_eq hw, bind_ok]
      simp only [hp]
    rw [exec, execClRep16, hrep]
    exact ((readBasePlus_overruns 3 h0 h).bind _).outcome
  case clZero17 =>
    cases hrun
    exact ((readBasePlus_overruns 3 h0 h).bind _).outcome
  case clZero18 =>
    cases hrun
    exact ((readBasePlus_overruns 11 h0 h).bind _).outcome
  all_goals cases hrun

/-! ## The next element's value -/

/-- The read of a value in the code in which the stream writes it (30_encoding.md R301, R304 to R306). -/
def readValue : ValueCode → State → Res Nat
  | .header, s => fetchHeader s
  | .huffman _ T, s => decodeSymbol T s
  | .fixedDist, s => readBitsReversed 5 s

/-- Where the registers that say so are written, the fetch reads the value in the awaited code. -/
theorem fetch_of_awaitedCode {k : ValueCode} (h : s.awaitedCode = some k) :
    fetchFormat s = some (codeFormat k) ∧ fetchValue (codeFormat k) s = readValue k s := by
  have hmode (hw : s.btype.written = true) : readFixedMode s = .ok (decide (s.btype.val = 1)) s := by
    rw [readFixedMode, readReg_eq hw, bind_ok]
  cases hphase : s.phase
  case blockHeader =>
    simp only [State.awaitedCode, hphase] at h
    cases h
    exact ⟨by rw [fetchFormat, hphase]; rfl, rfl⟩
  case dynHeader =>
    simp only [State.awaitedCode, hphase, Option.ite_none_right_eq_some] at h
    obtain ⟨hw, h⟩ := h
    cases h
    exact ⟨by rw [fetchFormat, hphase]; rfl, by rw [codeFormat, fetchValue, fetchCl, readReg_eq hw, bind_ok, readValue]⟩
  case tokens =>
    simp only [State.awaitedCode, hphase, Option.ite_none_left_eq_some, Bool.not_eq_false] at h
    obtain ⟨hw, h⟩ := h
    rw [fetchFormat_tokens hphase]
    split at h
    case isTrue hfixed =>
      cases h
      cases s.distPending <;> refine ⟨rfl, ?_⟩
      · rw [if_neg Bool.false_ne_true, codeFormat, fetchValue, fetchLitlen, hmode hw, bind_ok, decide_eq_true hfixed]
        rfl
      · rw [if_pos rfl, codeFormat, fetchValue, fetchDist, hmode hw, bind_ok, decide_eq_true hfixed]
        rfl
    case isFalse hdynamic =>
      cases hd : s.distPending with
      | false =>
        simp only [hd, Bool.false_eq_true, if_false, Option.ite_none_right_eq_some] at h
        obtain ⟨htree, h⟩ := h
        cases h
        refine ⟨rfl, ?_⟩
        rw [codeFormat, fetchValue, fetchLitlen, hmode hw, bind_ok, decide_eq_false hdynamic, readReg_eq htree]
        rfl
      | true =>
        simp only [hd, if_true, Option.ite_none_right_eq_some] at h
        obtain ⟨htree, h⟩ := h
        cases h
        refine ⟨rfl, ?_⟩
        rw [codeFormat, fetchValue, fetchDist, hmode hw, bind_ok, decide_eq_false hdynamic, readReg_eq htree]
        rfl
  all_goals
    simp only [State.awaitedCode, hphase] at h
    cases h

theorem not_hasBits_of_bitsLeft_lt {n : Nat} (h : s.bitsLeft.length < n) : ¬ s.hasBits n := by
  rw [length_bitsLeft] at h
  simp only [State.hasBits]
  omega

theorem fetchHeader_overruns (h : ¬ s.hasBits 3) : Overruns s (fetchHeader s) := by
  by_cases h1 : s.hasBits 1
  · have hleft : ¬ (s.moveTo (s.pos + 1)).hasBits 2 := by
      simp only [State.hasBits, pos_moveTo, moveTo_srcLen] at h ⊢
      omega
    have htype : Overruns s (readBits 2 { s.moveTo (s.pos + 1) with bfinal := wrote (s.streamBit s.pos) }) :=
      readBits_overruns (s := { s.moveTo (s.pos + 1) with bfinal := wrote (s.streamBit s.pos) })
        (hasBits_moveTo h1) hleft
    rw [fetchHeader, nextBit_eq h1, bind_ok]
    exact htype.bind _
  · rw [fetchHeader, nextBit_short h1]
    exact (overruns_atEnd s).bind _

/-- Where the bits left end inside a value, its read runs past them. -/
theorem readValue_overruns {k : ValueCode} (h0 : s.hasBits 0) (h : readCode k s.bitsLeft = .error .truncated) :
    Overruns s (readValue k s) := by
  cases k with
  | header =>
    rw [readCode] at h
    split at h
    case isTrue hlen => exact fetchHeader_overruns (not_hasBits_of_bitsLeft_lt hlen)
    case isFalse => cases h
  | huffman f T =>
    rw [readValue, decodeSymbol_eq T s h0]
    rw [readCode] at h
    cases hwalk : walk T s.bitsLeft with
    | found x rest =>
      rw [hwalk] at h
      cases h
    | absent rest =>
      rw [hwalk] at h
      cases h
    | truncated => exact overruns_atEnd s
  | fixedDist =>
    rw [readCode] at h
    split at h
    case isTrue hlen =>
      rw [readValue, readBitsReversed_short 5 h0 (not_hasBits_of_bitsLeft_lt hlen)]
      exact overruns_atEnd s
    case isFalse => cases h

/-- A value without an element is refused as a value without a row (log entry 10). -/
theorem decodeValue_error {f : Format} {v : Nat} {e : DecodeError} (h : decodeValue f v = .error e) :
    e = .noTableRow f v := by
  cases f with
  | blockHdr =>
    rw [decodeValue, decodeBlockHdr] at h
    split at h <;> cases h
    rfl
  | litlenSymbol =>
    rw [decodeValue, decodeLitlen] at h
    split at h
    · cases h
    · split at h
      · cases h
      · split at h
        · cases h
        · split at h <;> cases h
          rfl
  | distSymbol =>
    rw [decodeValue, decodeDist] at h
    split at h
    · cases h
    · split at h <;> cases h
      rfl
  | clSymbol =>
    rw [decodeValue, decodeCl] at h
    split at h
    · cases h
    · split at h <;> cases h
      rfl

/-- Bits that end too soon end inside the value. -/
theorem readCode_of_decodeBits_truncated {k : ValueCode} {bs : List Bool}
    (h : decodeBits k bs = .error .truncated) : readCode k bs = .error .truncated := by
  rw [decodeBits] at h
  split at h
  case h_1 e he =>
    cases h
    exact he
  case h_2 v rest _ =>
    split at h
    case h_1 e he =>
      cases h
      cases decodeValue_error he
    case h_2 => cases h

theorem fetchAndRun_overrun {f : Format} (h : Overruns s (fetchValue f s)) : EndsInOverrun s (fetchAndRun f s) := by
  obtain ⟨t, hfetch, ht⟩ := h
  have hrun : fetchAndRun f s = (sourceOverrun t : Res Unit).outcome := by
    rw [fetchAndRun, hfetch]
    cases hp : t.policy with
    | checked => rw [sourceOverrun_checked hp, sourceOverrun_checked hp, outcome_raise]
    | raw => rw [sourceOverrun_raw hp, sourceOverrun_raw hp, outcome_fault]
  rw [hrun]
  exact Overruns.outcome ⟨t, rfl, ht⟩

theorem instanceTurn_overrun {k : ValueCode} (h0 : s.hasBits 0) (hk : s.awaitedCode = some k)
    (h : decodeBits k s.bitsLeft = .error .truncated) : EndsInOverrun s (instanceTurn s) := by
  obtain ⟨hformat, hvalue⟩ := fetch_of_awaitedCode hk
  have hread := readValue_overruns h0 (readCode_of_decodeBits_truncated h)
  simp only [instanceTurn, hformat]
  exact fetchAndRun_overrun (hvalue ▸ hread)

end

end Sys2Proof.Machine

open Sys2Proof.Machine

/-- Settles O11: the step reads the value in the awaited code, and that read runs past the bits left. -/
theorem sourceEndingInAValueOverruns : Obligations.SourceEndingInAValueOverruns := by
  intro s k hturn h0 hk hbits
  rw [step_of_hostTurn_none hturn, hostTick_eq]
  exact instanceTurn_overrun (s := { s with hostCmds := s.hostTick.hostCmds }) h0 hk hbits

/-- Settles O22: both reads take the field's bits, and a bit's weight in either value is its place in the order read. -/
theorem fieldReadsAreBitReversals : Obligations.FieldReadsAreBitReversals := by
  intro s n h
  have hreversed := natOfBitsLsb_lt (s.bitsAt s.pos n).reverse
  rw [List.length_reverse, length_bitsAt] at hreversed
  exact ⟨_, _, _, readBits_eq n h, readBitsReversed_eq n h, pos_moveTo s _, field_lt s s.pos n, hreversed,
    fun i hi => ⟨testBit_field s.pos hi, testBit_reversed_bitsAt s.pos hi⟩⟩

/-- Settles O24: the eight-bit field at a byte boundary is the byte there. -/
theorem readByteIsReadBitsEight : Obligations.ReadByteIsReadBitsEight := by
  refine fun s => ⟨fun hb hlt => ?inside, fun hb hle => ?atEnd, fun hb => if_pos hb⟩
  case inside =>
    have hmod := (bitIdx_eq_zero s).mp hb
    have h8 := (hasBits_byte hb).mpr hlt
    refine ⟨_, _, readByte_eq hmod h8, ?_, by rw [← byteIdx_eq], moveTo_next_byte hb⟩
    rw [readBits_eq 8 h8, field_byte s s.pos hmod]
  case atEnd =>
    have hover : readByte s = sourceOverrun s := by rw [readByte, if_neg (not_not.mpr hb), if_pos hle]
    rw [hover]
    cases hp : s.policy with
    | checked => exact sourceOverrun_checked hp
    | raw => exact sourceOverrun_raw hp

/-- Settles O25: a field whose bits are there is read, and one that runs past the end overruns it. -/
theorem overrunExactlyPastTheEnd : Obligations.OverrunExactlyPastTheEnd := by
  intro s n h0
  by_cases h : s.hasBits n
  case pos =>
    have hin : ¬ 8 * s.srcLen < s.pos + n := Nat.not_lt.mpr h
    simp [readBits_eq n h, hin]
  case neg =>
    have hpast : 8 * s.srcLen < s.pos + n := Nat.not_le.mp h
    rw [readBits_short n h0 h]
    cases hp : s.policy with
    | checked =>
      rw [sourceOverrun_checked (by exact hp)]
      simp [hpast]
    | raw =>
      rw [sourceOverrun_raw (by exact hp)]
      simp [hpast]

/-- Settles O40: in each kind of element with extra bits, their read comes before any byte is output. -/
theorem extraBitsCutShortOverrun : Obligations.ExtraBitsCutShortOverrun := by
  intro i e s h0 h hkind
  have hend : EndsInOverrun s (exec i s) := by
    rcases hkind with ⟨x, base, hrow⟩ | ⟨hw, v, n, hrun⟩
    · rcases List.mem_append.mp hrow with hrow | hrow
      · rw [exec_lengthRow _ hrow]
        exact (lengthCode_overruns hrow h0 h).outcome
      · rw [exec_distRow _ hrow]
        exact (distanceCode_overruns hrow h0 h).outcome
    · exact exec_clRunOf_overrun hrun hw h0 h
  refine ⟨fun hp => ?_, hend.2⟩
  obtain ⟨t, ht, hphase, hkind, hcause, hout, houtLen, -⟩ := hend.1 hp
  exact ⟨t, ht, hphase, hkind, hcause, hout, houtLen⟩

/-- Settles O23: `alignToByte` is the move of the cursor to `alignedPos`. -/
theorem alignMovesToTheNextBoundary : Obligations.AlignMovesToTheNextBoundary := by
  intro s
  have hpos : (alignToByte s).pos = s.alignedPos := by rw [alignToByte_eq, pos_moveTo]
  refine ⟨bitIdx_alignToByte s, ?_, ?_, alignToByte_of_aligned, by rw [alignToByte_eq]; rfl⟩
  all_goals
    rw [hpos, State.alignedPos]
    omega
end

section
/-! PROOFS. The canonical builder: the counts and the consecutive codes, why by the Kraft check none begins another,
and that the tree then has exactly these codes. -/

namespace Sys2Proof.Machine

/-! ## Counting and assigning (41_huffman_trees.md R453 to R455) -/

/-- One symbol of length `l` counted (R453). -/
def countSymbol (bl : List Nat) (l : Nat) : List Nat := if l = 0 then bl else bl.set l (bl.getD l 0 + 1)

theorem countLengths_eq (L : List Nat) :
    countLengths L = L.foldl countSymbol (List.replicate (Config.maxBits + 1) 0) := rfl

theorem length_countSymbol (bl : List Nat) (l : Nat) : (countSymbol bl l).length = bl.length := by
  rw [countSymbol]
  split
  · rfl
  · rw [List.length_set]

/-- A write at an index of the list, read back. -/
theorem getD_set_eq (next : List Nat) {m : Nat} (hm : m < next.length) (l v : Nat) :
    (next.set m v).getD l 0 = if l = m then v else next.getD l 0 := by
  by_cases h : l = m
  · subst h
    simp [List.getD_eq_getElem?_getD, hm]
  · simp [List.getD_eq_getElem?_getD, List.getElem?_set_ne (Ne.symm h), h]

theorem getD_foldl_countSymbol (L bl : List Nat) {l : Nat} (hL : ∀ m ∈ L, m < bl.length) :
    (L.foldl countSymbol bl).getD l 0 = bl.getD l 0 + if l = 0 then 0 else L.count l := by
  induction L generalizing bl with
  | nil => simp
  | cons m L ih =>
    have hm : m < bl.length := hL m List.mem_cons_self
    rw [List.foldl_cons, ih _ fun n hn => by rw [length_countSymbol]; exact hL n (List.mem_cons_of_mem m hn),
      countSymbol]
    by_cases hm0 : m = 0
    · rw [if_pos hm0]
      by_cases hl0 : l = 0
      · rw [if_pos hl0, if_pos hl0]
      · rw [if_neg hl0, if_neg hl0, List.count_cons_of_ne (by omega)]
    · rw [if_neg hm0, getD_set_eq bl hm]
      by_cases hlm : l = m
      · subst hlm
        rw [if_pos rfl, if_neg hm0, if_neg hm0, List.count_cons_self]
        omega
      · simp [hlm, List.count_cons_of_ne (Ne.symm hlm)]

/-- `BL_COUNT` counts every length but 0, whose entry stays 0. -/
theorem getD_countLengths {L : List Nat} (hL : ∀ m ∈ L, m ≤ 15) (l : Nat) :
    (countLengths L).getD l 0 = if l = 0 then 0 else L.count l := by
  rw [countLengths_eq, getD_foldl_countSymbol L _ fun m hm => ?_]
  · rw [List.getD_eq_getElem?_getD, List.getElem?_getD_replicate_default_eq, Nat.zero_add]
  · have := hL m hm
    simp only [List.length_replicate, Config.maxBits]
    omega

theorem getD_firstCodes (bl : List Nat) {l : Nat} (hl : l ≤ 15) : (firstCodes bl).getD l 0 = firstCode bl l := by
  have hlt : l < Config.maxBits + 1 := Nat.lt_succ_of_le hl
  simp [firstCodes, List.getD_eq_getElem?_getD, hlt]

/-- A symbol's code is the counter of its length, as the symbols before it of that length have left it (R455). -/
theorem getD_assignCodes {L next : List Nat} {x : Nat} (hL : ∀ m ∈ L, m < next.length) (hx : x < L.length)
    (hused : L.getD x 0 ≠ 0) :
    (assignCodes L next).1.getD x 0 = next.getD (L.getD x 0) 0 + (L.take x).count (L.getD x 0) := by
  induction L generalizing next x with
  | nil => exact absurd hx (Nat.not_lt_zero x)
  | cons m L ih =>
    have hm : m < next.length := hL m List.mem_cons_self
    have htail : ∀ n ∈ L, n < next.length := fun n hn => hL n (List.mem_cons_of_mem m hn)
    cases x with
    | zero =>
      have hm0 : m ≠ 0 := hused
      simp [assignCodes, hm0]
    | succ x =>
      rw [List.length_cons, Nat.add_lt_add_iff_right] at hx
      rw [List.getD_cons_succ] at hused ⊢
      rw [assignCodes, List.take_succ_cons]
      split
      case isTrue hm0 =>
        rw [List.getD_cons_succ, ih htail hx hused, List.count_cons_of_ne (by omega)]
      case isFalse hm0 =>
        rw [List.getD_cons_succ, ih (by simpa using htail) hx hused, getD_set_eq next hm]
        by_cases h : L.getD x 0 = m
        · rw [if_pos h, h, List.count_cons_self]
          omega
        · rw [if_neg h, List.count_cons_of_ne (Ne.symm h)]

theorem length_assignCodes (L next : List Nat) : (assignCodes L next).1.length = L.length := by
  induction L generalizing next with
  | nil => rfl
  | cons m L ih =>
    rw [assignCodes]
    split <;> rw [List.length_cons, ih, List.length_cons]

section
variable {L : List Nat} {x y : Nat}

theorem getD_mem (hx : x < L.length) : L.getD x 0 ∈ L := by
  rw [List.getD_eq_getElem L 0 hx]
  exact List.getElem_mem hx

/-! ## The Kraft check (41_huffman_trees.md R456) -/

/-- Where the codes of length `l` end, in units of 2^(-`MAX_BITS`) (R454, R456). -/
def codeEnd (bl : List Nat) (l : Nat) : Nat := (firstCode bl l + bl.getD l 0) * 2 ^ (15 - l)

/-- The codes of a length begin where those of the length before it end (R454). -/
theorem firstCode_succ_scaled (bl : List Nat) {l : Nat} (hl : l < 15) :
    firstCode bl (l + 1) * 2 ^ (15 - (l + 1)) = codeEnd bl l := by
  rw [firstCode, codeEnd, Nat.shiftLeft_eq, Nat.pow_one, Nat.mul_assoc, ← Nat.pow_succ',
    show (15 - (l + 1)).succ = 15 - l by omega]

theorem codeEnd_succ (bl : List Nat) {l : Nat} (hl : l < 15) :
    codeEnd bl (l + 1) = codeEnd bl l + bl.getD (l + 1) 0 * 2 ^ (15 - (l + 1)) := by
  rw [← firstCode_succ_scaled bl hl, codeEnd, Nat.add_mul]

theorem codeEnd_mono (bl : List Nat) {l m : Nat} (hlm : l ≤ m) (hm : m ≤ 15) : codeEnd bl l ≤ codeEnd bl m := by
  induction m, hlm using Nat.le_induction with
  | base => exact Nat.le_refl _
  | succ m _ ih =>
    rw [codeEnd_succ bl hm]
    exact (ih (by omega)).trans (Nat.le_add_right _ _)

/-- The codes end at the Kraft sum. -/
theorem codeEnd_eq_sum (bl : List Nat) (h0 : bl.getD 0 0 = 0) {l : Nat} (hl : l ≤ 15) :
    codeEnd bl l = ((List.range l).map fun i => bl.getD (i + 1) 0 * 2 ^ (15 - (i + 1))).sum := by
  induction l with
  | zero => simp only [codeEnd, firstCode, h0]; rfl
  | succ l ih => rw [codeEnd_succ bl hl, ih (by omega), List.range_succ, List.map_append, List.sum_append]; simp

/-! ## No code begins another -/

/-- A symbol counts towards its length from its own place on. -/
theorem count_take_lt (hxy : x < y) (hy : y ≤ L.length) :
    (L.take x).count (L.getD x 0) < (L.take y).count (L.getD x 0) := by
  have hx : x < L.length := by omega
  have hself : (L.take (x + 1)).count (L.getD x 0) = (L.take x).count (L.getD x 0) + 1 := by
    rw [List.take_succ_eq_append_getElem hx, List.count_append, List.getD_eq_getElem L 0 hx, List.count_singleton_self]
  have hmono := (List.take_sublist_take_left (l := L) (by omega : x + 1 ≤ y)).count_le (L.getD x 0)
  omega

/-- The value of a code whose bits begin with those of another code. -/
theorem eq_of_bitsMsb_prefix {l c l' c' : Nat} (hc : c < 2 ^ l) (hc' : c' < 2 ^ l')
    (h : bitsMsb l c <+: bitsMsb l' c') : ∃ k r, l' = l + k ∧ r < 2 ^ k ∧ c' = c * 2 ^ k + r := by
  obtain ⟨t, ht⟩ := h
  have hlen := congrArg List.length ht
  have hval := congrArg (fun bs => natOfBitsLsb bs.reverse) ht
  simp only [List.length_append, length_bitsMsb] at hlen
  simp only [bitsMsb, List.reverse_append, List.reverse_reverse, natOfBitsLsb_append, natOfBitsLsb_bitsLsb,
    List.length_reverse, Nat.mod_eq_of_lt hc, Nat.mod_eq_of_lt hc'] at hval
  refine ⟨t.length, natOfBitsLsb t.reverse, hlen.symm, ?_, by rw [← hval, Nat.mul_comm, Nat.add_comm]⟩
  simpa using natOfBitsLsb_lt t.reverse

section
variable (hL : ∀ l ∈ L, l ≤ 15)
include hL

/-- The codes of one length are consecutive from its first code, in ascending symbol order (R455). -/
theorem codeOf_eq (hx : x < L.length) (hused : L.getD x 0 ≠ 0) :
    codeOf L x = firstCode (countLengths L) (L.getD x 0) + (L.take x).count (L.getD x 0) := by
  have hlen : (firstCodes (countLengths L)).length = 16 := by simp [firstCodes, Config.maxBits]
  rw [codeOf, getD_assignCodes (fun m hm => by rw [hlen]; exact Nat.lt_succ_of_le (hL m hm)) hx hused,
    getD_firstCodes _ (hL _ (getD_mem hx))]

/-- Where the Kraft check passes, the codes of every length end within 2^15. -/
theorem codeEnd_le (hkraft : oversubscribed (countLengths L) = false) {l : Nat} (hl : l ≤ 15) :
    codeEnd (countLengths L) l ≤ 2 ^ 15 := by
  have hsum : codeEnd (countLengths L) 15 = kraftSum (countLengths L) :=
    codeEnd_eq_sum _ (by rw [getD_countLengths hL, if_pos rfl]) (Nat.le_refl 15)
  have hle : kraftSum (countLengths L) ≤ 2 ^ 15 := Nat.not_lt.mp (of_decide_eq_false hkraft)
  exact (codeEnd_mono _ hl (Nat.le_refl 15)).trans (hsum.trans_le hle)

/-- A symbol's code lies between the ends of the codes of the lengths before and of its own length. -/
theorem codeOf_scaled (hx : x < L.length) (hused : L.getD x 0 ≠ 0) :
    codeEnd (countLengths L) (L.getD x 0 - 1) ≤ codeOf L x * 2 ^ (15 - L.getD x 0) ∧
      (codeOf L x + 1) * 2 ^ (15 - L.getD x 0) ≤ codeEnd (countLengths L) (L.getD x 0) := by
  have hl : L.getD x 0 ≤ 15 := hL _ (getD_mem hx)
  have hcount := count_take_lt hx (Nat.le_refl L.length)
  rw [List.take_length] at hcount
  rw [codeOf_eq hL hx hused]
  constructor
  · rw [← firstCode_succ_scaled _ (by omega : L.getD x 0 - 1 < 15), Nat.sub_add_cancel (Nat.pos_of_ne_zero hused)]
    exact Nat.mul_le_mul_right _ (Nat.le_add_right _ _)
  · rw [codeEnd, getD_countLengths hL, if_neg hused]
    exact Nat.mul_le_mul_right _ (by omega)

/-- A symbol's code fits its length. -/
theorem codeOf_lt (hkraft : oversubscribed (countLengths L) = false) (hx : x < L.length) (hused : L.getD x 0 ≠ 0) :
    codeOf L x < 2 ^ L.getD x 0 := by
  have hl : L.getD x 0 ≤ 15 := hL _ (getD_mem hx)
  have hle := (codeOf_scaled hL hx hused).2.trans (codeEnd_le hL hkraft hl)
  rw [← Nat.add_sub_cancel' hl, Nat.pow_add, Nat.add_sub_cancel' hl] at hle
  exact Nat.le_of_mul_le_mul_right hle (Nat.two_pow_pos _)

/-- Two used symbols of one length have different codes. -/
theorem codeOf_inj (hx : x < L.length) (hxused : L.getD x 0 ≠ 0) (hy : y < L.length) (hlen : L.getD y 0 = L.getD x 0)
    (hcode : codeOf L y = codeOf L x) : x = y := by
  rw [codeOf_eq hL hx hxused, codeOf_eq hL hy (hlen ▸ hxused), hlen] at hcode
  rcases Nat.lt_trichotomy x y with hxy | hxy | hyx
  · have := count_take_lt hxy hy.le
    omega
  · exact hxy
  · have := count_take_lt hyx hx.le
    rw [hlen] at this
    omega

/-- A shorter code ends before a longer one begins. -/
theorem codeOf_scaled_le (hx : x < L.length) (hxused : L.getD x 0 ≠ 0) (hy : y < L.length)
    (hlt : L.getD x 0 < L.getD y 0) :
    (codeOf L x + 1) * 2 ^ (15 - L.getD x 0) ≤ codeOf L y * 2 ^ (15 - L.getD y 0) := by
  have hly : L.getD y 0 ≤ 15 := hL _ (getD_mem hy)
  calc (codeOf L x + 1) * 2 ^ (15 - L.getD x 0) ≤ codeEnd (countLengths L) (L.getD x 0) :=
        (codeOf_scaled hL hx hxused).2
    _ ≤ codeEnd (countLengths L) (L.getD y 0 - 1) := codeEnd_mono _ (by omega) (by omega)
    _ ≤ codeOf L y * 2 ^ (15 - L.getD y 0) := (codeOf_scaled hL hy (by omega)).1

/-- Where the Kraft check passes, no used symbol's code begins with that of another. -/
theorem codeOf_prefixFree (hkraft : oversubscribed (countLengths L) = false) (hx : x < L.length)
    (hxused : L.getD x 0 ≠ 0) (hy : y < L.length) (hyused : L.getD y 0 ≠ 0)
    (h : bitsMsb (L.getD x 0) (codeOf L x) <+: bitsMsb (L.getD y 0) (codeOf L y)) : x = y := by
  obtain ⟨k, r, hlen, hr, hcode⟩ := eq_of_bitsMsb_prefix (codeOf_lt hL hkraft hx hxused)
    (codeOf_lt hL hkraft hy hyused) h
  rcases Nat.eq_zero_or_pos k with rfl | hk
  case inl =>
    have hr0 : r = 0 := by simpa using hr
    exact codeOf_inj hL hx hxused hy hlen (by simpa [hr0] using hcode)
  case inr =>
    have hly : L.getD y 0 ≤ 15 := hL _ (getD_mem hy)
    have hinside : codeOf L y * 2 ^ (15 - L.getD y 0) < (codeOf L x + 1) * 2 ^ (15 - L.getD x 0) := by
      rw [show 15 - L.getD x 0 = k + (15 - L.getD y 0) by omega, Nat.pow_add, ← Nat.mul_assoc, hcode, Nat.succ_mul]
      exact Nat.mul_lt_mul_of_pos_right (by omega) (Nat.two_pow_pos _)
    exact absurd (codeOf_scaled_le hL hx hxused hy (by omega)) (Nat.not_le.mpr hinside)

end

end

/-! ## The codes of a tree (41_huffman_trees.md R460) -/

/-- Bits that lead to a symbol lead to it whatever follows. -/
theorem walk_append {T : Tree} {p rest : List Bool} {x : Nat} (h : walk T p = .found x []) :
    walk T (p ++ rest) = .found x rest := by
  induction T generalizing p with
  | absent => cases h
  | leaf y =>
    cases h
    rfl
  | internal l r ihl ihr =>
    cases p with
    | nil => cases h
    | cons b p =>
      cases b
      · exact ihl h
      · exact ihr h

/-- Bits that lead to a symbol begin with a code of it, and what they leave is what follows the code. -/
theorem exists_code_of_walk {T : Tree} {bs rest : List Bool} {x : Nat} (h : walk T bs = .found x rest) :
    ∃ p, bs = p ++ rest ∧ walk T p = .found x [] := by
  induction T generalizing bs with
  | absent => cases h
  | leaf y =>
    cases h
    exact ⟨[], rfl, rfl⟩
  | internal l r ihl ihr =>
    cases bs with
    | nil => cases h
    | cons b bs =>
      cases b
      · obtain ⟨p, rfl, hp⟩ := ihl h
        exact ⟨false :: p, rfl, hp⟩
      · obtain ⟨p, rfl, hp⟩ := ihr h
        exact ⟨true :: p, rfl, hp⟩

/-! ## Inserting codes (41_huffman_trees.md R457) -/

/-- No code of the tree begins with `bs`, and `bs` begins with no code of it. -/
def Apart (T : Tree) (bs : List Bool) : Prop :=
  ∀ p x, walk T p = .found x [] → ¬ p <+: bs ∧ ¬ bs <+: p

theorem walk_emptyTree (p : List Bool) (x : Nat) : walk emptyTree p ≠ .found x [] := by
  rcases p with _ | ⟨_ | _, _⟩ <;> nofun

theorem Apart.child {l r : Tree} {b : Bool} {bs : List Bool} (h : Apart (.internal l r) (b :: bs)) :
    Apart (if b then r else l) bs := by
  intro p x hp
  have := h (b :: p) x (by cases b <;> exact hp)
  simpa using this

theorem insertCode_absent (b : Bool) (bs : List Bool) (s : Nat) :
    insertCode .absent (b :: bs) s = insertCode emptyTree (b :: bs) s := rfl

/-- Inserting a code that is apart from a tree adds that code and no other. -/
theorem walk_insertCode {T : Tree} {bs : List Bool} (hT : Apart T bs) (s : Nat) (p : List Bool) (x : Nat) :
    walk (insertCode T bs s) p = .found x [] ↔ walk T p = .found x [] ∨ (p = bs ∧ x = s) := by
  induction bs generalizing T p with
  | nil =>
    have hnone : walk T p ≠ .found x [] := fun h => (hT p x h).2 List.nil_prefix
    have hleaf : insertCode T [] s = .leaf s := by cases T <;> rfl
    rw [hleaf, walk]
    simp [hnone, eq_comm, and_comm]
  | cons b bs ih =>
    have hinternal (l r : Tree) (hlr : Apart (.internal l r) (b :: bs)) :
        walk (insertCode (.internal l r) (b :: bs) s) p = .found x [] ↔
          walk (.internal l r) p = .found x [] ∨ (p = b :: bs ∧ x = s) := by
      have hchild := hlr.child
      rcases p with _ | ⟨b', p⟩
      · cases b <;> simp [insertCode, walk]
      · cases b <;> cases b' <;> simp [insertCode, walk]
        · exact ih hchild p
        · exact ih hchild p
    cases T with
    | absent =>
      have h := hinternal .absent .absent fun p x h => absurd h (walk_emptyTree p x)
      rw [insertCode_absent, emptyTree, h]
      exact or_congr_left (iff_of_false (walk_emptyTree p x) nofun)
    | leaf y => exact absurd List.nil_prefix (hT [] y rfl).1
    | internal l r => exact hinternal l r hT

/-- `p` is the code that symbol `i` of a list of lengths has in a list of codes. -/
def IsCode (L C : List Nat) (i : Nat) (p : List Bool) : Prop :=
  i < L.length ∧ L.getD i 0 ≠ 0 ∧ p = bitsMsb (L.getD i 0) (C.getD i 0)

theorem isCode_zero {l c : Nat} {L C : List Nat} {p : List Bool} :
    IsCode (l :: L) (c :: C) 0 p ↔ l ≠ 0 ∧ p = bitsMsb l c := by simp [IsCode]

theorem isCode_succ {l c i : Nat} {L C : List Nat} {p : List Bool} :
    IsCode (l :: L) (c :: C) (i + 1) p ↔ IsCode L C i p := by simp [IsCode]

theorem exists_isCode_cons {l c s x : Nat} {L C : List Nat} {p : List Bool} :
    (∃ i, x = s + i ∧ IsCode (l :: L) (c :: C) i p) ↔
      (l ≠ 0 ∧ p = bitsMsb l c ∧ x = s) ∨ ∃ i, x = s + 1 + i ∧ IsCode L C i p := by
  constructor
  · rintro ⟨_ | i, rfl, hi⟩
    · rw [isCode_zero] at hi
      exact .inl ⟨hi.1, hi.2, rfl⟩
    · exact .inr ⟨i, by omega, isCode_succ.mp hi⟩
  · rintro (⟨hl, hp, rfl⟩ | ⟨i, rfl, hi⟩)
    · exact ⟨0, rfl, isCode_zero.mpr ⟨hl, hp⟩⟩
    · exact ⟨i + 1, by omega, isCode_succ.mpr hi⟩

/-- Inserting codes of which none begins another, all apart from the tree, adds these and no others (R452). -/
theorem walk_insertAll {L C : List Nat} {T : Tree} (hlen : C.length = L.length)
    (hfree : ∀ i j p q, IsCode L C i p → IsCode L C j q → p <+: q → i = j)
    (hT : ∀ i p, IsCode L C i p → Apart T p) (s : Nat) (p : List Bool) (x : Nat) :
    walk (insertAll s L C T) p = .found x [] ↔ walk T p = .found x [] ∨ ∃ i, x = s + i ∧ IsCode L C i p := by
  induction L generalizing C T s with
  | nil => simp [insertAll, IsCode]
  | cons l L ih =>
    obtain _ | ⟨c, C⟩ := C
    · cases hlen
    have hfree' : ∀ i j p q, IsCode L C i p → IsCode L C j q → p <+: q → i = j := fun i j p q hi hj h =>
      Nat.succ.inj (hfree (i + 1) (j + 1) p q (isCode_succ.mpr hi) (isCode_succ.mpr hj) h)
    have hT' (i p) (hi : IsCode L C i p) : Apart T p := hT (i + 1) p (isCode_succ.mpr hi)
    rw [insertAll, exists_isCode_cons]
    by_cases hl : l = 0
    · rw [if_pos hl, ih (Nat.succ.inj hlen) hfree' hT']
      simp [hl]
    · have hcode : IsCode (l :: L) (c :: C) 0 (bitsMsb l c) := isCode_zero.mpr ⟨hl, rfl⟩
      have hins := walk_insertCode (hT 0 _ hcode) s
      have hApart (i q) (hi : IsCode L C i q) : Apart (insertCode T (bitsMsb l c) s) q := by
        intro p' y hp'
        rcases (hins p' y).mp hp' with hold | ⟨rfl, -⟩
        · exact hT' i q hi p' y hold
        · exact ⟨fun h => Nat.zero_ne_add_one i (hfree _ _ _ _ hcode (isCode_succ.mpr hi) h),
            fun h => Nat.add_one_ne_zero i (hfree _ _ _ _ (isCode_succ.mpr hi) hcode h)⟩
      rw [if_neg hl, ih (Nat.succ.inj hlen) hfree' hApart, hins p x, or_assoc]
      simp [hl]

/-! ## The canonical tree (41_huffman_trees.md R452) -/

theorem buildCanonical_eq_some {L : List Nat} {T : Tree} (h : buildCanonical L = some T) :
    oversubscribed (countLengths L) = false ∧ T = canonicalTree L := by
  rw [buildCanonical] at h
  split at h
  · cases h
  · rename_i hkraft
    cases h
    exact ⟨Bool.eq_false_of_not_eq_true hkraft, rfl⟩

/-- The codes of a canonical tree are those of the used symbols. -/
theorem walk_buildCanonical {L : List Nat} {T : Tree} (hL : ∀ l ∈ L, l ≤ 15) (h : buildCanonical L = some T)
    (p : List Bool) (x : Nat) :
    walk T p = .found x [] ↔ x < L.length ∧ L.getD x 0 ≠ 0 ∧ p = bitsMsb (L.getD x 0) (codeOf L x) := by
  obtain ⟨hkraft, rfl⟩ := buildCanonical_eq_some h
  rw [canonicalTree, walk_insertAll (length_assignCodes _ _)]
  case hfree =>
    rintro i j p q ⟨hi, hiused, rfl⟩ ⟨hj, hjused, rfl⟩ hpq
    exact codeOf_prefixFree hL hkraft hi hiused hj hjused hpq
  case hT => exact fun _ _ _ p x hp => absurd hp (walk_emptyTree p x)
  simp [walk_emptyTree, IsCode, codeOf]

/-- Every path of the tree ends in a leaf. -/
def complete : Tree → Bool
  | .absent => false
  | .leaf _ => true
  | .internal l r => complete l && complete r

theorem walk_ne_absent {T : Tree} (hT : complete T = true) (bs rest : List Bool) : walk T bs ≠ .absent rest := by
  induction T generalizing bs with
  | absent => cases hT
  | leaf x => nofun
  | internal l r ihl ihr =>
    rw [complete, Bool.and_eq_true] at hT
    rcases bs with _ | ⟨_ | _, bs⟩
    · nofun
    · exact ihl hT.1 bs
    · exact ihr hT.2 bs

end Sys2Proof.Machine

open Sys2Proof.Machine

/-- Settles O16: the code is one of the tree's, and bits that lead to a symbol lead to it whatever follows. -/
theorem canonicalTreeDecodesItsCodes : Obligations.CanonicalTreeDecodesItsCodes := by
  intro L T hL hT x rest hx hused
  exact ⟨codeOf_lt hL (buildCanonical_eq_some hT).1 hx hused,
    walk_append ((walk_buildCanonical hL hT _ x).mpr ⟨hx, hused, rfl⟩)⟩

/-- Settles O17: bits that lead to a symbol begin with a code of the tree. -/
theorem canonicalTreeHasNoOtherCodes : Obligations.CanonicalTreeHasNoOtherCodes := by
  intro L T hL hT bs x rest h
  obtain ⟨p, rfl, hp⟩ := exists_code_of_walk h
  obtain ⟨hx, hused, rfl⟩ := (walk_buildCanonical hL hT p x).mp hp
  exact ⟨hx, hused, rfl⟩

/-- Settles O15, from what the count and the assignment leave for every length. -/
theorem codesOfALengthAreConsecutive : Obligations.CodesOfALengthAreConsecutive := by
  refine fun L hL => ⟨fun l hl _ => ?_, fun x hx hused => codeOf_eq hL hx hused⟩
  rw [getD_countLengths hL, if_neg (by omega)]

/-- Settles O18: the values by running the builder, and no path is absent because the tree is complete. -/
theorem builderWorkedExample : Obligations.BuilderWorkedExample := by
  have hcomplete : complete (canonicalTree [3, 3, 3, 3, 3, 2, 4, 4]) = true := by decide +kernel
  refine ⟨by decide +kernel, by decide +kernel, by decide +kernel, canonicalTree [3, 3, 3, 3, 3, 2, 4, 4],
    by decide +kernel, ?_, ?_, ?_, ?_, ?_, ?_, ?_, ?_, by decide +kernel,
    fun a b d e rest => walk_ne_absent hcomplete [a, b, d, e] rest⟩
  all_goals decide +kernel
end

section
/-! PROOFS. Decoding by a tree: the bits of `Encode` lead to their symbol, and bits that lead to an absent child end the
decode. -/

namespace Sys2Proof.Machine

/-! ## The encoder (41_huffman_trees.md R475, R476) -/

theorem map_symbol_codesBelow (T : Tree) (c d : Nat) : (codesBelow T c d).map CodeEntry.symbol = leaves T := by
  induction T generalizing c d with
  | absent => rfl
  | leaf x => rfl
  | internal l r ihl ihr => rw [codesBelow, List.map_append, ihl, ihr, leaves]

theorem bitsMsb_append_bit (d c : Nat) (b : Bool) : bitsMsb (d + 1) (2 * c + bitNat b) = bitsMsb d c ++ [b] := by
  rw [Nat.mul_comm]
  exact (bitsMsb_add_mul (n := 1) d c (bitNat_lt b)).trans (by cases b <;> rfl)

/-- The code of an entry below a node is the path to the node and then one that leads from it to the entry's symbol. -/
theorem exists_path_of_codesBelow {T : Tree} {c d : Nat} {e : CodeEntry} (h : e ∈ codesBelow T c d) :
    ∃ p, bitsMsb e.length e.code = bitsMsb d c ++ p ∧ walk T p = .found e.symbol [] := by
  induction T generalizing c d with
  | absent => cases h
  | leaf x =>
    rw [codesBelow, List.mem_singleton] at h
    subst h
    exact ⟨[], (List.append_nil _).symm, rfl⟩
  | internal l r ihl ihr =>
    rcases List.mem_append.mp h with h | h
    · obtain ⟨p, hp, hwalk⟩ := ihl h
      have hbit : bitsMsb (d + 1) (2 * c) = bitsMsb d c ++ [false] := bitsMsb_append_bit d c false
      exact ⟨false :: p, by rw [hp, hbit, List.append_assoc, List.singleton_append], hwalk⟩
    · obtain ⟨p, hp, hwalk⟩ := ihr h
      have hbit : bitsMsb (d + 1) (2 * c + 1) = bitsMsb d c ++ [true] := bitsMsb_append_bit d c true
      exact ⟨true :: p, by rw [hp, hbit, List.append_assoc, List.singleton_append], hwalk⟩

/-- `Encode` gives the bits of a path to the symbol, where the symbol has a leaf. -/
theorem encodeSymbol_of_mem {T : Tree} {x : Nat} (h : x ∈ leaves T) :
    ∃ bits, encodeSymbol T x = .ok bits ∧ walk T bits = .found x [] := by
  rw [← map_symbol_codesBelow T 0 0, List.mem_map] at h
  obtain ⟨e, he, hx⟩ := h
  cases hfind : (codeTable T).find? (fun e => e.symbol == x) with
  | none => exact absurd (beq_iff_eq.mpr hx) (List.find?_eq_none.mp hfind e he)
  | some e' =>
    obtain ⟨p, hp, hwalk⟩ := exists_path_of_codesBelow (List.mem_of_find?_eq_some hfind)
    have hx' : e'.symbol = x := by simpa using List.find?_some hfind
    refine ⟨bitsMsb e'.length e'.code, by rw [encodeSymbol, hfind], ?_⟩
    rw [hp, ← hx']
    exact hwalk

theorem encodeSymbol_of_not_mem {T : Tree} {x : Nat} (h : x ∉ leaves T) :
    encodeSymbol T x = .error .unknownSymbol := by
  have hfind : (codeTable T).find? (fun e => e.symbol == x) = none := by
    rw [List.find?_eq_none]
    intro e he hx
    rw [← map_symbol_codesBelow T 0 0] at h
    exact h (List.mem_map.mpr ⟨e, he, beq_iff_eq.mp hx⟩)
  rw [encodeSymbol, hfind]

section
variable {s : State}

/-- A code of a tree at the cursor is read, and no bit after it. -/
theorem decodeSymbol_of_walk {T : Tree} {x : Nat} {bits : List Bool} (hwalk : walk T bits = .found x [])
    (h : s.hasBits bits.length) (hbits : s.bitsAt s.pos bits.length = bits) :
    decodeSymbol T s = .ok x (s.moveTo (s.pos + bits.length)) := by
  have hleft : s.bitsLeft = bits ++ s.bitsLeft.drop bits.length := by
    rw [← hbits, length_bitsAt, ← take_bitsLeft _ h, List.take_append_drop]
  rw [decodeSymbol_eq T s (hasBits_mono h (Nat.zero_le _)), hleft, walk_append hwalk]
  simp only [List.length_append, Nat.add_sub_cancel]

/-! ## Absent children (41_huffman_trees.md R458, R460) -/

/-- An error other than a value without a row is one of the value's read. -/
theorem readCode_of_decodeBits_error {k : ValueCode} {bs : List Bool} {e : DecodeError}
    (h : decodeBits k bs = .error e) (hrow : ∀ f v, e ≠ .noTableRow f v) : readCode k bs = .error e := by
  rw [decodeBits] at h
  split at h
  case h_1 e' hread =>
    cases h
    exact hread
  case h_2 v rest _ =>
    split at h
    case h_1 e' hvalue =>
      cases h
      exact absurd (decodeValue_error hvalue) (hrow _ _)
    case h_2 => cases h

/-- Only a Huffman code leaves bits without a value, at an absent child (R307). -/
theorem walk_of_decodeBits_noCode {k : ValueCode} {bs : List Bool} (h : decodeBits k bs = .error .noCode) :
    ∃ f T rest, k = .huffman f T ∧ walk T bs = .absent rest := by
  have hread := readCode_of_decodeBits_error h nofun
  cases k with
  | huffman f T =>
    rw [readCode] at hread
    cases hwalk : walk T bs with
    | absent rest => exact ⟨f, T, rest, rfl, hwalk⟩
    | _ =>
      rw [hwalk] at hread
      cases hread
  | _ =>
    rw [readCode] at hread
    split at hread <;> cases hread

/-- The turn that meets an absent child ends the decode where the walk has left the cursor. -/
theorem instanceTurn_noCode {k : ValueCode} (h0 : s.hasBits 0) (hk : s.awaitedCode = some k)
    (h : decodeBits k s.bitsLeft = .error .noCode) :
    ∃ p, s.pos ≤ p ∧ p ≤ 8 * s.srcLen ∧ instanceTurn s = .next ((s.moveTo p).abort .unknownSymbol .none) := by
  obtain ⟨hformat, hvalue⟩ := fetch_of_awaitedCode hk
  obtain ⟨f, T, rest, rfl, hwalk⟩ := walk_of_decodeBits_noCode h
  refine ⟨s.pos + (s.bitsLeft.length - rest.length), Nat.le_add_right _ _, ?_, ?_⟩
  · rw [length_bitsLeft]
    simp only [State.hasBits] at h0
    omega
  · have hdecode := decodeSymbol_eq T s h0
    rw [hwalk] at hdecode
    simp only [instanceTurn, hformat, fetchAndRun, hvalue, readValue, hdecode]

end

end Sys2Proof.Machine

open Sys2Proof.Machine

/-- Settles O10: the step is the turn that meets the absent child. -/
theorem unusedCodeRaisesUnknownSymbol : Obligations.UnusedCodeRaisesUnknownSymbol := by
  intro s k hturn h0 hk hbits
  rw [step_of_hostTurn_none hturn, hostTick_eq]
  exact instanceTurn_noCode (s := { s with hostCmds := s.hostTick.hostCmds }) h0 hk hbits

/-- Settles O19: the bits of `Encode` lead to the symbol in the tree, and `Decode` reads bits that do. -/
theorem encodeThenDecodeReturnsTheSymbol : Obligations.EncodeThenDecodeReturnsTheSymbol := by
  refine fun T x => ⟨fun hx => ?_, encodeSymbol_of_not_mem⟩
  obtain ⟨bits, hencode, hwalk⟩ := encodeSymbol_of_mem hx
  exact ⟨bits, hencode, fun s h hbits => decodeSymbol_of_walk hwalk h hbits⟩
end

section
/-! PROOFS. The frequency-based builder: a merge pops two nodes and keeps the leaves of the queue, and a queue of two
nodes has only two results. -/

namespace Sys2Proof.Machine

section
variable {tie : List (Nat × Tree) → Nat} {order : Nat × Tree → Nat × Tree → Bool} {q : List (Nat × Tree)}

/-! ## The queue (41_huffman_trees.md R470) -/

theorem exists_leastWeight (h : q ≠ []) : ∃ n ∈ q, n.1 = leastWeight q := by
  induction q with
  | nil => exact absurd rfl h
  | cons n q ih =>
    rcases q with _ | ⟨m, q⟩
    · exact ⟨n, List.mem_cons_self, rfl⟩
    · obtain ⟨n', hn', hw⟩ := ih (List.cons_ne_nil m q)
      rw [leastWeight, ← hw]
      · rcases Nat.le_total n.1 n'.1 with hle | hle
        · exact ⟨n, List.mem_cons_self, (Nat.min_eq_left hle).symm⟩
        · exact ⟨n', List.mem_cons_of_mem n hn', (Nat.min_eq_right hle).symm⟩
      · nofun

theorem takeNth_of_ne {w k : Nat} {n : Nat × Tree} (h : n.1 ≠ w) :
    takeNth w k (n :: q) = (takeNth w k q).map fun r => (r.1, n :: r.2) := by
  cases k <;> rw [takeNth, if_neg h]

/-- Where there are more than `k` nodes of weight `w`, taking the `k`-th out leaves the other nodes. -/
theorem exists_takeNth {w k : Nat} (hk : k < (q.filter fun n => n.1 == w).length) :
    ∃ n q', takeNth w k q = some (n, q') ∧ q.Perm (n :: q') := by
  induction q generalizing k with
  | nil => exact absurd hk (Nat.not_lt_zero k)
  | cons m q ih =>
    have hskip {k : Nat} (hk : k < (q.filter fun n => n.1 == w).length) :
        ∃ n q', (takeNth w k q).map (fun r => (r.1, m :: r.2)) = some (n, q') ∧ (m :: q).Perm (n :: q') := by
      obtain ⟨n, q', htake, hperm⟩ := ih hk
      exact ⟨n, m :: q', by rw [htake]; rfl, (hperm.cons m).trans (List.Perm.swap n m q')⟩
    by_cases hm : m.1 = w
    · cases k with
      | zero => exact ⟨m, q, by rw [takeNth, if_pos hm], List.Perm.refl _⟩
      | succ k =>
        rw [takeNth, if_pos hm]
        exact hskip (by simpa [hm] using hk)
    · rw [takeNth_of_ne hm]
      exact hskip (by simpa [hm] using hk)

/-- A queue that is not empty yields a node and keeps the others, whatever the tie-break. -/
theorem exists_popLeast (tie : List (Nat × Tree) → Nat) (h : q ≠ []) :
    ∃ n q', popLeast tie q = some (n, q') ∧ q.Perm (n :: q') := by
  obtain ⟨n, hn, hw⟩ := exists_leastWeight h
  exact exists_takeNth (Nat.mod_lt _ (List.length_pos_of_mem (List.mem_filter.mpr ⟨hn, beq_iff_eq.mpr hw⟩)))

/-! ## The merge loop -/

/-- The node of a merge (R474). -/
def mergedNode (order : Nat × Tree → Nat × Tree → Bool) (a b : Nat × Tree) : Tree :=
  if order a b then .internal a.2 b.2 else .internal b.2 a.2

theorem mergedNode_cases (order : Nat × Tree → Nat × Tree → Bool) (a b : Nat × Tree) :
    mergedNode order a b = .internal a.2 b.2 ∨ mergedNode order a b = .internal b.2 a.2 := by
  rw [mergedNode]
  split
  · exact .inl rfl
  · exact .inr rfl

theorem leaves_mergedNode (order : Nat × Tree → Nat × Tree → Bool) (a b : Nat × Tree) :
    (leaves (mergedNode order a b)).Perm (leaves a.2 ++ leaves b.2) := by
  rcases mergedNode_cases order a b with h | h <;> rw [h]
  · exact List.Perm.refl _
  · exact List.perm_append_comm

/-- A pass of the loop over a queue of two or more nodes. -/
theorem mergeLoop_of_pops {fuel : Nat} {a b : Nat × Tree} {q1 q2 : List (Nat × Tree)} (hq : 2 ≤ q.length)
    (ha : popLeast tie q = some (a, q1)) (hb : popLeast tie q1 = some (b, q2)) :
    mergeLoop tie order (fuel + 1) q =
      mergeLoop tie order fuel (q2 ++ [(a.1 + b.1, mergedNode order a b)]) := by
  rcases q with _ | ⟨n, _ | ⟨m, q⟩⟩
  · exact absurd hq (by decide)
  · exact absurd hq (by simp)
  · simp [mergeLoop, ha, hb, mergedNode]

/-- Whatever the OPEN parameters, a pass merges two nodes of the queue and keeps the others. -/
theorem exists_mergePass (tie : List (Nat × Tree) → Nat) (order : Nat × Tree → Nat × Tree → Bool) (fuel : Nat)
    (hq : 2 ≤ q.length) :
    ∃ a b q2, q.Perm (a :: b :: q2) ∧ mergeLoop tie order (fuel + 1) q =
      mergeLoop tie order fuel (q2 ++ [(a.1 + b.1, mergedNode order a b)]) := by
  obtain ⟨a, q1, ha, hperm1⟩ := exists_popLeast tie (List.ne_nil_of_length_pos (by omega : 0 < q.length))
  have hlen := hperm1.length_eq
  rw [List.length_cons] at hlen
  obtain ⟨b, q2, hb, hperm2⟩ := exists_popLeast tie (List.ne_nil_of_length_pos (by omega : 0 < q1.length))
  exact ⟨a, b, q2, hperm1.trans (hperm2.cons a), mergeLoop_of_pops hq ha hb⟩

/-- The loop ends with one tree, whose leaves are those of the queue. -/
theorem exists_mergeLoop (tie : List (Nat × Tree) → Nat) (order : Nat × Tree → Nat × Tree → Bool) {fuel : Nat}
    (hq : q ≠ []) (hfuel : q.length ≤ fuel + 1) :
    ∃ T, mergeLoop tie order fuel q = some T ∧ (leaves T).Perm (q.flatMap fun n => leaves n.2) := by
  induction fuel generalizing q with
  | zero =>
    obtain ⟨n, rfl⟩ := List.length_eq_one_iff.mp (Nat.le_antisymm hfuel (List.length_pos_iff.mpr hq))
    exact ⟨n.2, rfl, by simp⟩
  | succ fuel ih =>
    by_cases hone : q.length = 1
    · obtain ⟨n, rfl⟩ := List.length_eq_one_iff.mp hone
      exact ⟨n.2, rfl, by simp⟩
    · have hpos := List.length_pos_iff.mpr hq
      obtain ⟨a, b, q2, hperm, hpass⟩ := exists_mergePass tie order fuel (by omega : 2 ≤ q.length)
      have hlen := hperm.length_eq
      simp only [List.length_cons] at hlen
      obtain ⟨T, hT, hleaves⟩ := ih (q := q2 ++ [(a.1 + b.1, mergedNode order a b)]) (by simp) (by simp; omega)
      refine ⟨T, hpass.trans hT, ?_⟩
      calc (leaves T).Perm _ := hleaves
        List.Perm _ (q2.flatMap (fun n => leaves n.2) ++ leaves (mergedNode order a b)) := by simp
        List.Perm _ (q2.flatMap (fun n => leaves n.2) ++ (leaves a.2 ++ leaves b.2)) :=
          (leaves_mergedNode order a b).append_left _
        List.Perm _ ((a :: b :: q2).flatMap fun n => leaves n.2) := by
          simpa using List.perm_append_comm (l₂ := leaves a.2 ++ leaves b.2)
        List.Perm _ (q.flatMap fun n => leaves n.2) := (hperm.flatMap_right _).symm

/-- A queue of two nodes has only two results. -/
theorem mergeLoop_pair (tie : List (Nat × Tree) → Nat) (order : Nat × Tree → Nat × Tree → Bool) (fuel : Nat)
    (m n : Nat × Tree) :
    mergeLoop tie order (fuel + 1) [m, n] = some (.internal m.2 n.2) ∨
      mergeLoop tie order (fuel + 1) [m, n] = some (.internal n.2 m.2) := by
  obtain ⟨a, b, q2, hperm, hpass⟩ := exists_mergePass tie order fuel (q := [m, n]) (Nat.le_refl 2)
  have hend (w : Nat) (T : Tree) : mergeLoop tie order fuel ([] ++ [(w, T)]) = some T := by cases fuel <;> rfl
  rcases List.pair_perm.mp hperm with h | h <;> cases h <;> rw [hpass, hend]
  · simpa using mergedNode_cases order m n
  · simpa using (mergedNode_cases order n m).symm

/-- The first pass over two nodes of least weight and a heavier one merges the two. -/
theorem mergeLoop_example_first (tie : List (Nat × Tree) → Nat) (order : Nat × Tree → Nat × Tree → Bool)
    (fuel : Nat) (X Y Z : Tree) :
    ∃ T, (T = .internal X Y ∨ T = .internal Y X) ∧
      mergeLoop tie order (fuel + 1) [(1, X), (1, Y), (2, Z)] = mergeLoop tie order fuel [(2, Z), (2, T)] := by
  have hfirst : popLeast tie [(1, X), (1, Y), (2, Z)] =
      takeNth 1 (tie [(1, X), (1, Y)] % 2) [(1, X), (1, Y), (2, Z)] := rfl
  have hsecond (W : Tree) : popLeast tie [(1, W), (2, Z)] = some ((1, W), [(2, Z)]) := by
    have h : popLeast tie [(1, W), (2, Z)] = takeNth 1 (tie [(1, W)] % 1) [(1, W), (2, Z)] := rfl
    rw [h, Nat.mod_one]
    rfl
  rcases Nat.mod_two_eq_zero_or_one (tie [(1, X), (1, Y)]) with h | h <;> rw [h] at hfirst
  · exact ⟨_, mergedNode_cases order (1, X) (1, Y), mergeLoop_of_pops (by simp) hfirst (hsecond Y)⟩
  · exact ⟨_, (mergedNode_cases order (1, Y) (1, X)).symm, mergeLoop_of_pops (by simp) hfirst (hsecond X)⟩

end

theorem buildFromFrequenciesWith_of_mergeLoop {tie : List (Nat × Tree) → Nat}
    {order : Nat × Tree → Nat × Tree → Bool} {F : List (Nat × Nat)} {T : Tree}
    (h : mergeLoop tie order F.length (F.map fun p => (p.2, .leaf p.1)) = some T) :
    buildFromFrequenciesWith tie order F = .ok T := by rw [buildFromFrequenciesWith, h]

end Sys2Proof.Machine

open Sys2Proof.Machine

/-- Settles O20: the loop over the map's leaves ends with one tree that has them all. -/
theorem frequencyBuildHasTheMapsSymbols : Obligations.FrequencyBuildHasTheMapsSymbols := by
  intro tie order F
  have hsymbols : F ≠ [] →
      ∃ T, buildFromFrequenciesWith tie order F = .ok T ∧ (leaves T).Perm (F.map Prod.fst) := by
    intro hF
    obtain ⟨T, hT, hleaves⟩ := exists_mergeLoop tie order (q := F.map fun p => (p.2, .leaf p.1)) (fuel := F.length)
      (by simpa using hF) (by simp)
    refine ⟨T, buildFromFrequenciesWith_of_mergeLoop hT, ?_⟩
    rw [List.map_eq_flatMap]
    simpa [List.flatMap_map, leaves] using hleaves
  refine ⟨⟨fun herror => ?_, fun hF => by subst hF; rfl⟩, fun x f hF => by subst hF; rfl, hsymbols⟩
  by_contra hF
  obtain ⟨T, hT, -⟩ := hsymbols hF
  rw [hT] at herror
  cases herror

/-- Settles O21: the first pass merges X and Y, the second merges Z with their node, each in one of two orders. -/
theorem frequencyBuildExampleLengths : Obligations.FrequencyBuildExampleLengths := by
  intro tie order
  obtain ⟨N, hN, hfirst⟩ := mergeLoop_example_first tie order 2 (.leaf 0) (.leaf 1) (.leaf 2)
  have hlast := mergeLoop_pair tie order 1 (2, .leaf 2) (2, N)
  rw [← hfirst] at hlast
  rcases hlast with h | h
  all_goals
    refine ⟨_, buildFromFrequenciesWith_of_mergeLoop h, ?_⟩
    rcases hN with rfl | rfl <;> exact ⟨rfl, rfl, rfl⟩
end

section
/-! PROOFS. The block elements: a stored block with every way it can end, the header of a dynamic block, and the end of
a block. -/

namespace Sys2Proof.Machine

section
variable {s : State}

theorem alignedPos_mod (s : State) : s.alignedPos % 8 = 0 := Nat.mul_mod_right 8 _

theorem pos_le_alignedPos (s : State) : s.pos ≤ s.alignedPos := by
  rw [State.alignedPos]
  omega

/-- The bits left `m` bits further on, whatever else has been written. -/
theorem hasBits_of_pos {t : State} {m n : Nat} (hpos : t.pos = s.pos + m) (hlen : t.srcLen = s.srcLen) :
    t.hasBits n ↔ s.hasBits (m + n) := by
  rw [State.hasBits, State.hasBits, hpos, hlen, Nat.add_assoc]

/-- `t` has the source, the policy and the output of `s`, so what overruns for `t` overruns for `s`. -/
theorem Overruns.congr {α : Type} {t : State} {r : Res α} (h : Overruns t r) (hpolicy : t.policy = s.policy)
    (hsrc : t.src = s.src) (hout : t.out = s.out) (houtLen : t.outLen = s.outLen) : Overruns s r := by
  obtain ⟨u, rfl, hu⟩ := h
  rw [hpolicy, hsrc, hout, houtLen] at hu
  exact ⟨u, rfl, hu⟩

/-! ## The lengths of a stored block (42_inflate_blocks.md R510, R511) -/

/-- The state of a stored block once its four length bytes are read. -/
def State.storedRead (s : State) (bfinal : Bool) : State :=
  { s.moveTo (s.alignedPos + 32) with
    bfinal := wrote bfinal, btype := wrote 0, phase := .stored
    len := wrote (BitVec.ofNat 16 (s.field s.alignedPos 16))
    nlen := wrote (BitVec.ofNat 16 (s.field (s.alignedPos + 16) 16)) }

/-- The state of a stored block before its first byte is copied (R512). -/
def State.storedBegun (s : State) (bfinal : Bool) : State :=
  { s.storedRead bfinal with remain := wrote (BitVec.ofNat 16 (s.field s.alignedPos 16)) }

@[simp] theorem pos_storedBegun (bfinal : Bool) : (s.storedBegun bfinal).pos = s.alignedPos + 32 := pos_moveTo s _

theorem pos_storedBegun_mod (s : State) (bfinal : Bool) : (s.storedBegun bfinal).pos % 8 = 0 := by
  rw [pos_storedBegun, Nat.add_mod, alignedPos_mod]

theorem hasBits_storedBegun {bfinal : Bool} {n : Nat} :
    (s.storedBegun bfinal).hasBits n ↔ s.alignedPos + 32 + n ≤ 8 * s.srcLen := by
  rw [State.hasBits, pos_storedBegun]
  exact Iff.rfl

theorem toNat_field16 (p : Nat) : (BitVec.ofNat 16 (s.field p 16)).toNat = s.field p 16 := by
  rw [BitVec.toNat_ofNat, Nat.mod_eq_of_lt (field_lt s p 16)]

theorem readLe16_overruns (h0 : s.pos % 8 = 0) (hin : s.hasBits 0) (h : ¬ s.hasBits 16) : Overruns s (readLe16 s) := by
  rw [readLe16_short h0 hin h]
  exact overruns_atEnd s

theorem readStoredLengths_overruns (h0 : s.pos % 8 = 0) (hin : s.hasBits 0) (h : ¬ s.hasBits 32) :
    Overruns s (readStoredLengths s) := by
  by_cases h16 : s.hasBits 16
  · rw [readStoredLengths, readLe16_eq h0 h16, bind_ok]
    have hnlen : ∀ l, Overruns s (readLe16 { s.moveTo (s.pos + 16) with len := l }) := by
      intro l
      have hpos : State.pos { s.moveTo (s.pos + 16) with len := l } = s.pos + 16 := pos_moveTo s _
      refine (readLe16_overruns ?_ ?_ ?_).congr rfl rfl rfl rfl
      · rw [hpos, Nat.add_mod, h0]
      · exact (hasBits_of_pos hpos rfl).mpr h16
      · exact mt (hasBits_of_pos hpos rfl).mp h
    exact (hnlen _).bind _
  · rw [readStoredLengths]
    exact (readLe16_overruns h0 hin h16).bind _

/-- The state in which a stored block reads its lengths: its header's registers, the cursor at the byte boundary. -/
def State.storedAligned (s : State) (bfinal : Bool) : State :=
  alignToByte { s.withHeader bfinal 0 with phase := .stored }

theorem storedAligned_eq (s : State) (bfinal : Bool) :
    s.storedAligned bfinal = { s.moveTo s.alignedPos with bfinal := wrote bfinal, btype := wrote 0, phase := .stored } :=
  alignToByte_eq _

theorem pos_storedAligned (s : State) (bfinal : Bool) : (s.storedAligned bfinal).pos = s.alignedPos := by
  rw [storedAligned_eq]
  exact pos_moveTo s _

theorem hasBits_storedAligned {bfinal : Bool} {n : Nat} :
    (s.storedAligned bfinal).hasBits n ↔ s.alignedPos + n ≤ 8 * s.srcLen := by
  rw [State.hasBits, pos_storedAligned, storedAligned_eq]
  exact Iff.rfl

/-- A stored block whose source ends in its length bytes. -/
theorem blkStored_overruns (bfinal : Bool) (hin : s.hasBits 0) (h : 8 * s.srcLen < s.alignedPos + 32) :
    Overruns s (blkStored bfinal s) := by
  have hlens : Overruns (s.storedAligned bfinal) (readStoredLengths (s.storedAligned bfinal)) := by
    refine readStoredLengths_overruns ?_ (hasBits_storedAligned.mpr ?_)
      (mt hasBits_storedAligned.mp (Nat.not_le.mpr h))
    · rw [pos_storedAligned]
      exact alignedPos_mod s
    · simp only [State.hasBits, State.alignedPos] at hin ⊢
      omega
  have hlens' : Overruns s (readStoredLengths (s.storedAligned bfinal)) := by
    refine hlens.congr ?_ ?_ ?_ ?_ <;> rw [storedAligned_eq] <;> rfl
  exact hlens'.bind _

/-- A stored block whose four length bytes are there goes on to their check. -/
theorem blkStored_eq (bfinal : Bool) (h : s.alignedPos + 32 ≤ 8 * s.srcLen) :
    blkStored bfinal s = (checkStoredLengths (s.storedRead bfinal)).bind fun _ t =>
      (copyStored t).bind fun _ t => endOfBlock t := by
  have hlens : readStoredLengths (s.storedAligned bfinal) = .ok () (s.storedRead bfinal) := by
    rw [readStoredLengths_eq (by rw [pos_storedAligned]; exact alignedPos_mod s) (hasBits_storedAligned.mpr h),
      pos_storedAligned, storedAligned_eq]
    rfl
  rw [blkStored, ← State.storedAligned, hlens, bind_ok]

/-- The lengths do not agree (R511). -/
theorem blkStored_mismatch (bfinal : Bool) (h : s.alignedPos + 32 ≤ 8 * s.srcLen)
    (hlens : s.field s.alignedPos 16 + s.field (s.alignedPos + 16) 16 ≠ 65535) :
    blkStored bfinal s = .raise .dataCorruption .storedLenMismatch (s.storedRead bfinal) := by
  have hcheck : checkStoredLengths (s.storedRead bfinal) =
      .raise .dataCorruption .storedLenMismatch (s.storedRead bfinal) := by
    rw [checkStoredLengths_eq rfl rfl]
    refine if_neg ?_
    show ¬ (BitVec.ofNat 16 _).toNat + (BitVec.ofNat 16 _).toNat = _
    rwa [toNat_field16, toNat_field16]
  rw [blkStored_eq bfinal h, hcheck, bind_raise]

/-- The lengths agree: the bytes are copied, and the block ends (R512, R508). -/
theorem blkStored_agree (bfinal : Bool) (h : s.alignedPos + 32 ≤ 8 * s.srcLen)
    (hlens : s.field s.alignedPos 16 + s.field (s.alignedPos + 16) 16 = 65535) :
    blkStored bfinal s =
      (copyStoredLoop (s.field s.alignedPos 16) (s.storedBegun bfinal)).bind fun _ t => endOfBlock t := by
  have hcheck : checkStoredLengths (s.storedRead bfinal) = .ok () (s.storedRead bfinal) := by
    rw [checkStoredLengths_eq rfl rfl]
    refine if_pos ?_
    show (BitVec.ofNat 16 _).toNat + (BitVec.ofNat 16 _).toNat = _
    rwa [toNat_field16, toNat_field16]
  have hcopy : copyStored (s.storedRead bfinal) =
      copyStoredLoop (s.field s.alignedPos 16) (s.storedBegun bfinal) := by
    rw [copyStored, readReg_eq rfl, bind_ok]
    show copyStoredLoop (BitVec.ofNat 16 _).toNat _ = _
    rw [toNat_field16]
    rfl
  rw [blkStored_eq bfinal h, hcheck, bind_ok, hcopy]

/-- All bytes are copied: where `LEN` is 0 as well, none is left. -/
theorem storedCopied_storedBegun (bfinal : Bool) (n : Nat) (hn : s.field s.alignedPos 16 = n) :
    storedCopied (s.storedBegun bfinal) n n =
      { (s.append (s.srcBytes (s.alignedPos / 8 + 4) n)).moveTo (s.alignedPos + 32 + 8 * n) with
        bfinal := wrote bfinal, btype := wrote 0, phase := .stored, len := wrote (BitVec.ofNat 16 n)
        nlen := wrote (BitVec.ofNat 16 (s.field (s.alignedPos + 16) 16)), remain := wrote 0 } := by
  have hbyte : (s.alignedPos + 32) / 8 = s.alignedPos / 8 + 4 := by omega
  have hremain : (if n = 0 then (s.storedBegun bfinal).remain else wrote (BitVec.ofNat 16 (n - n))) = wrote 0 := by
    split
    · subst n
      show wrote (BitVec.ofNat 16 (s.field s.alignedPos 16)) = wrote 0
      rw [‹s.field s.alignedPos 16 = 0›]
      rfl
    · rw [Nat.sub_self]
      rfl
  rw [storedCopied, hremain, pos_storedBegun, hbyte, ← hn]
  rfl

theorem pos_storedCopied (n j : Nat) : (storedCopied s n j).pos = s.pos + 8 * j := pos_moveTo s _

theorem outLen_storedCopied (n j : Nat) : (storedCopied s n j).outLen = s.outLen + j :=
  congrArg (s.outLen + ·) (length_srcBytes s _ j)

/-- A read never leaves the cursor past the end of `SRC` (10_state.md R102). -/
theorem hasBits_moves : KeptByMoves fun t => t.hasBits 0 := by
  rintro t u ⟨p, -, hp, rfl⟩ h
  simpa [State.hasBits] using hp h

/-- A byte is appended only where it fits (20_memory.md R211). -/
theorem hasRoom_appends : KeptByAppends fun t => t.hasRoom 0 :=
  fun t _ hfull h => (hasRoom_one t h).mpr hfull

/-- A copy that completes had all its bytes in `SRC` and room for them. -/
theorem of_copyStoredLoop_ok {n : Nat} (hin : s.hasBits 0) (hroom : s.hasRoom 0)
    (h : copyStoredLoop n s = .ok () (storedCopied s n n)) : s.hasBits (8 * n) ∧ s.hasRoom n := by
  have hends := copyStoredLoop_ends (P := fun t => t.hasBits 0 ∧ t.hasRoom 0)
    (fun t u htu ht => ⟨hasBits_moves t u htu ht.1, by obtain ⟨p, -, -, rfl⟩ := htu; exact ht.2⟩)
    (fun t b hfull ht => ⟨ht.1, hasRoom_appends t b hfull ht.2⟩) (fun _ _ ht => ht) n ⟨hin, hroom⟩
  rw [h] at hends
  cases hends with
  | ok hend =>
    obtain ⟨hbits, hfits⟩ := hend
    refine ⟨?_, fun c hc => ?_⟩
    · rw [State.hasBits, pos_storedCopied] at hbits
      exact hbits
    · have := hfits c hc
      rwa [outLen_storedCopied] at this

theorem not_outFull_storedCopied {n j : Nat} (hj : j < n) (hroom : s.hasRoom n) :
    (storedCopied s n j).outFull = false := by
  refine not_outFull fun c hc => ?_
  have := hroom c hc
  rw [outLen_storedCopied]
  omega

/-- The bytes fit, but not all of them are in `SRC`. -/
theorem copyStoredLoop_overruns {n : Nat} (h0 : s.pos % 8 = 0) (hin : s.hasBits 0) (hroom : s.hasRoom n)
    (h : ¬ s.hasBits (8 * n)) : ∃ t, copyStoredLoop n s = sourceOverrun t ∧ t.policy = s.policy := by
  obtain ⟨j, -, ⟨-, hok⟩ | ⟨hj, hfull, -⟩ | ⟨-, -, hover⟩⟩ := copyStoredLoop_cases n s h0
  · exact absurd (of_copyStoredLoop_ok hin (hasRoom_mono hroom (Nat.zero_le n)) hok).1 h
  · rw [not_outFull_storedCopied hj hroom] at hfull
    cases hfull
  · exact ⟨_, hover, rfl⟩

/-- The bytes are in `SRC`, but not all of them fit. -/
theorem copyStoredLoop_full {n : Nat} (h0 : s.pos % 8 = 0) (hbits : s.hasBits (8 * n)) (hroom : s.hasRoom 0)
    (h : ¬ s.hasRoom n) : ∃ t, copyStoredLoop n s = .raise .capacityExceeded .none t ∧
      s.outCapacity = some t.outLen := by
  obtain ⟨j, -, ⟨-, hok⟩ | ⟨hj, hfull, -, hraise⟩ | ⟨hj, hshort, -⟩⟩ := copyStoredLoop_cases n s h0
  · exact absurd (of_copyStoredLoop_ok (hasBits_mono hbits (Nat.zero_le _)) hroom hok).2 h
  · exact ⟨_, hraise, eq_of_beq hfull⟩
  · exact absurd (hasBits_mono hbits (by omega)) hshort

/-! ## The header of a dynamic block (44_dynamic_header.md R701 to R705) -/

/-- `t` stands `m` bits further on than `s`, whatever registers have been written in between. -/
def FurtherOn (s t : State) (m : Nat) : Prop :=
  t.pos = s.pos + m ∧ t.srcLen = s.srcLen ∧ t.policy = s.policy ∧ t.src = s.src ∧ t.out = s.out ∧ t.outLen = s.outLen

section
variable {α : Type} {t : State} {m : Nat} {f : Nat → State → Res α}

theorem readBasePlus_furtherOn (base n : Nat) (ht : FurtherOn s t m) (h : s.hasBits (m + n)) :
    (readBasePlus base n t).bind f = f (s.field (s.pos + m) n + base) (t.moveTo (s.pos + (m + n))) := by
  obtain ⟨hpos, hlen, -, hsrc, -, -⟩ := ht
  rw [readBasePlus_eq base n ((hasBits_of_pos hpos hlen).mpr h), bind_ok, hpos, field_congr hsrc, Nat.add_comm base,
    Nat.add_assoc]

theorem readBasePlus_furtherOn_overruns (base n : Nat) (ht : FurtherOn s t m) (hin : s.hasBits m)
    (h : ¬ s.hasBits (m + n)) : Overruns s ((readBasePlus base n t).bind f) := by
  obtain ⟨hpos, hlen, hsame⟩ := ht
  obtain ⟨hpolicy, hsrc, hout, houtLen⟩ := hsame
  have hread := readBasePlus_overruns base ((hasBits_of_pos (n := 0) hpos hlen).mpr hin)
    (mt (hasBits_of_pos hpos hlen).mp h)
  exact (hread.congr hpolicy hsrc hout houtLen).bind f

end

/-- The state in which a dynamic block reads its counts: its header's registers (R502, R506). -/
def State.dynBegun (s : State) (bfinal : Bool) : State := { s.withHeader bfinal 2 with phase := .dynHeader }

/-- The state once `HLIT` is read (R701). -/
def State.hlitRead (s : State) (bfinal : Bool) : State :=
  { s.moveTo (s.pos + 5) with
    bfinal := wrote bfinal, btype := wrote 2, phase := .dynHeader
    hlit := wrote (BitVec.ofNat 9 (s.field s.pos 5 + 257)) }

/-- The state once `HDIST` is read too (R702). -/
def State.hdistRead (s : State) (bfinal : Bool) : State :=
  { s.moveTo (s.pos + 10) with
    bfinal := wrote bfinal, btype := wrote 2, phase := .dynHeader
    hlit := wrote (BitVec.ofNat 9 (s.field s.pos 5 + 257))
    hdist := wrote (BitVec.ofNat 6 (s.field (s.pos + 5) 5 + 1)) }

/-- The state once all three counts are read (R703). -/
def State.countsRead (s : State) (bfinal : Bool) : State :=
  { s.moveTo (s.pos + 14) with
    bfinal := wrote bfinal, btype := wrote 2, phase := .dynHeader
    hlit := wrote (BitVec.ofNat 9 (s.field s.pos 5 + 257))
    hdist := wrote (BitVec.ofNat 6 (s.field (s.pos + 5) 5 + 1))
    hclen := wrote (BitVec.ofNat 5 (s.field (s.pos + 10) 4 + 4)) }

theorem furtherOn_dynBegun (bfinal : Bool) : FurtherOn s (s.dynBegun bfinal) 0 := ⟨rfl, rfl, rfl, rfl, rfl, rfl⟩

theorem furtherOn_hlitRead (bfinal : Bool) : FurtherOn s (s.hlitRead bfinal) 5 :=
  ⟨(pos_congr (s := s.moveTo (s.pos + 5)) rfl rfl).trans (pos_moveTo s _), rfl, rfl, rfl, rfl, rfl⟩

theorem furtherOn_hdistRead (bfinal : Bool) : FurtherOn s (s.hdistRead bfinal) 10 :=
  ⟨(pos_congr (s := s.moveTo (s.pos + 10)) rfl rfl).trans (pos_moveTo s _), rfl, rfl, rfl, rfl, rfl⟩

theorem furtherOn_countsRead (bfinal : Bool) : FurtherOn s (s.countsRead bfinal) 14 :=
  ⟨(pos_congr (s := s.moveTo (s.pos + 14)) rfl rfl).trans (pos_moveTo s _), rfl, rfl, rfl, rfl, rfl⟩

theorem pos_countsRead (bfinal : Bool) : (s.countsRead bfinal).pos = s.pos + 14 := (furtherOn_countsRead bfinal).1

theorem hclen_lt (s : State) : s.field (s.pos + 10) 4 + 4 < 20 := Nat.add_lt_add_right (field_lt s _ 4) 4

theorem toNat_hclen_countsRead (bfinal : Bool) :
    (s.countsRead bfinal).hclen.val.toNat = s.field (s.pos + 10) 4 + 4 := by
  have := hclen_lt s
  show (BitVec.ofNat 5 _).toNat = _
  rw [BitVec.toNat_ofNat, Nat.mod_eq_of_lt (by omega)]

/-- The element with its counts' reads spelt out (R701 to R703). -/
theorem blkDynamic_dynBegun (s : State) (bfinal : Bool) : blkDynamic bfinal s =
    (readBasePlus 257 5 (s.dynBegun bfinal)).bind fun hlit t =>
      (readBasePlus 1 5 { t with hlit := wrote (BitVec.ofNat 9 hlit) }).bind fun hdist t =>
        (readBasePlus 4 4 { t with hdist := wrote (BitVec.ofNat 6 hdist) }).bind fun hclen t =>
          (readCodeLengthCodeLengths { t with hclen := wrote (BitVec.ofNat 5 hclen) }).bind fun _ t =>
            (buildClTree t).bind fun _ t => .ok () { t with lengths := wrote [] } := rfl

/-- A dynamic block whose counts are there goes on to its code-length code lengths. -/
theorem blkDynamic_eq (bfinal : Bool) (h : s.hasBits 14) :
    blkDynamic bfinal s = (readCodeLengthCodeLengths (s.countsRead bfinal)).bind fun _ t =>
      (buildClTree t).bind fun _ t => .ok () { t with lengths := wrote [] } := by
  have h5 : s.hasBits 5 := hasBits_mono h (by decide)
  have h10 : s.hasBits 10 := hasBits_mono h (by decide)
  rw [blkDynamic_dynBegun, readBasePlus_furtherOn 257 5 (furtherOn_dynBegun bfinal) h5]
  change (readBasePlus 1 5 (s.hlitRead bfinal)).bind _ = _
  rw [readBasePlus_furtherOn 1 5 (furtherOn_hlitRead bfinal) h10]
  change (readBasePlus 4 4 (s.hdistRead bfinal)).bind _ = _
  rw [readBasePlus_furtherOn 4 4 (furtherOn_hdistRead bfinal) h]
  rfl

/-- A dynamic block whose source ends in its counts. -/
theorem blkDynamic_overruns_counts (bfinal : Bool) (hin : s.hasBits 0) (h : ¬ s.hasBits 14) :
    Overruns s (blkDynamic bfinal s) := by
  rw [blkDynamic_dynBegun]
  by_cases h5 : s.hasBits 5
  case neg => exact readBasePlus_furtherOn_overruns 257 5 (furtherOn_dynBegun bfinal) hin h5
  rw [readBasePlus_furtherOn 257 5 (furtherOn_dynBegun bfinal) h5]
  change Overruns s ((readBasePlus 1 5 (s.hlitRead bfinal)).bind _)
  by_cases h10 : s.hasBits 10
  case neg => exact readBasePlus_furtherOn_overruns 1 5 (furtherOn_hlitRead bfinal) h5 h10
  rw [readBasePlus_furtherOn 1 5 (furtherOn_hlitRead bfinal) h10]
  exact readBasePlus_furtherOn_overruns 4 4 (furtherOn_hdistRead bfinal) h10 h

theorem readCll_overruns (cs : List Nat) (hw : s.cll.written = true) (hin : s.hasBits 0)
    (h : ¬ s.hasBits (3 * cs.length)) : Overruns s (readCll cs s) := by
  induction cs generalizing s with
  | nil => exact absurd hin h
  | cons c cs ih =>
    by_cases h3 : s.hasBits 3
    · rw [readCll, readBits_eq 3 h3, bind_ok, readReg_eq (by exact hw), bind_ok]
      have hpos (v : Reg (Vector (BitVec 3) 19)) : State.pos { s.moveTo (s.pos + 3) with cll := v } = s.pos + 3 :=
        pos_moveTo s _
      refine (ih rfl ((hasBits_of_pos (hpos _) rfl).mpr h3) (mt (hasBits_of_pos (hpos _) rfl).mp ?_)).congr
        rfl rfl rfl rfl
      rwa [List.length_cons, Nat.mul_succ, Nat.add_comm] at h
    · rw [readCll]
      exact (readBits_overruns hin h3).bind _

/-- A dynamic block whose source ends in its counts or in its code-length code lengths. -/
theorem blkDynamic_overruns (bfinal : Bool) (hin : s.hasBits 0)
    (h : ¬ s.hasBits (14 + 3 * (s.field (s.pos + 10) 4 + 4))) : Overruns s (blkDynamic bfinal s) := by
  by_cases h14 : s.hasBits 14
  case neg => exact blkDynamic_overruns_counts bfinal hin h14
  obtain ⟨hpos, hlen, hpolicy, hsrc, hout, houtLen⟩ := furtherOn_countsRead (s := s) bfinal
  have hcll : Overruns s (readCodeLengthCodeLengths (s.countsRead bfinal)) := by
    rw [readCodeLengthCodeLengths, readReg_eq rfl, bind_ok, toNat_hclen_countsRead]
    refine (readCll_overruns (s := { s.countsRead bfinal with cll := wrote (Vector.replicate 19 0) }) _ rfl
      ((hasBits_of_pos (by exact hpos) hlen).mpr h14)
      (mt (hasBits_of_pos (by exact hpos) hlen).mp ?_)).congr hpolicy hsrc hout houtLen
    rwa [length_take_clOrder _ (hclen_lt s)]
  rw [blkDynamic_eq bfinal h14]
  exact hcll.bind _

/-- The state once the code-length code lengths are read (R704). -/
def State.cllRead (s : State) (bfinal : Bool) : State :=
  { (s.countsRead bfinal).moveTo (s.pos + 14 + 3 * (s.field (s.pos + 10) 4 + 4)) with
    cll := wrote (s.clLengths (s.pos + 14) (s.field (s.pos + 10) 4 + 4)) }

/-- A dynamic block whose header is there goes on to build its code-length tree. -/
theorem blkDynamic_cllRead (bfinal : Bool) (h : s.hasBits (14 + 3 * (s.field (s.pos + 10) 4 + 4))) :
    blkDynamic bfinal s =
      (buildClTree (s.cllRead bfinal)).bind fun _ t => .ok () { t with lengths := wrote [] } := by
  have hcll : readCodeLengthCodeLengths (s.countsRead bfinal) = .ok () (s.cllRead bfinal) := by
    have hn := toNat_hclen_countsRead (s := s) bfinal
    rw [readCodeLengthCodeLengths_eq rfl (by rw [hn]; exact hclen_lt s), hn, pos_countsRead]
    · rfl
    · rw [hn]
      exact (hasBits_of_pos (pos_countsRead bfinal) rfl).mpr h
  rw [blkDynamic_eq bfinal (hasBits_mono h (Nat.le_add_right _ _)), hcll, bind_ok]

/-- The code-length tree is built, or its lengths are over-subscribed (R705, 41_huffman_trees.md R456). -/
theorem buildClTree_eq (hw : s.cll.written = true) :
    buildClTree s =
      if oversubscribed (countLengths (s.cll.val.toList.map BitVec.toNat)) then
        .raise .dataCorruption .oversubscribedCode
          { s with blCount := unwritten (countLengths (s.cll.val.toList.map BitVec.toNat)) }
      else
        .ok () { s with
          clTree := wrote (canonicalTree (s.cll.val.toList.map BitVec.toNat))
          blCount := unwritten (countLengths (s.cll.val.toList.map BitVec.toNat))
          nextCode := unwritten (assignCodes (s.cll.val.toList.map BitVec.toNat)
            (firstCodes (countLengths (s.cll.val.toList.map BitVec.toNat)))).2 } := by
  rw [buildClTree, readReg_eq hw, bind_ok, buildTree_eq]
  split <;> rfl

end

end Sys2Proof.Machine

open Sys2Proof.Machine

/-- Settles O26: the lengths agree, so all the bytes, which are there and fit, are copied, and the block ends. -/
theorem storedBlockCopiesItsBytes : Obligations.StoredBlockCopiesItsBytes := by
  intro bfinal s p len nlen hbits hlens hroom
  have hcopy : copyStoredLoop len (s.storedBegun bfinal) = .ok () (storedCopied (s.storedBegun bfinal) len len) := by
    exact copyStoredLoop_eq len _ (pos_storedBegun_mod s bfinal) (hasBits_storedBegun.mpr hbits) hroom
  rw [exec, execBlkStored, blkStored_agree bfinal (Nat.le_of_add_right_le hbits) hlens, hcopy, bind_ok,
    endOfBlock_eq rfl, outcome_ok, storedCopied_storedBegun bfinal len rfl]

/-- Settles O27: the check of the lengths comes after their four bytes and before the copy. -/
theorem storedLengthMismatchIsCorruption : Obligations.StoredLengthMismatchIsCorruption := by
  intro bfinal s p len nlen hbits hlens
  have hne : len + nlen ≠ 65535 := by omega
  rw [exec, execBlkStored, blkStored_mismatch bfinal hbits hne]
  rfl

/-- Settles O28: the source ends in the lengths, or the copy of the bytes ends before the last of them. -/
theorem storedBlockCutShort : Obligations.StoredBlockCutShort := by
  intro bfinal s hin p len nlen
  have h0 := pos_storedBegun_mod s bfinal
  refine ⟨fun h => ?overrun, fun hbits hlens hroom hfull => ?full⟩
  case overrun =>
    by_cases hshort : 8 * s.srcLen < p + 32
    · obtain ⟨hchecked, hraw⟩ := (blkStored_overruns bfinal hin hshort).outcome
      refine ⟨fun hp => ?_, hraw⟩
      obtain ⟨t, ht, hphase, hkind, hcause, -⟩ := hchecked hp
      exact ⟨t, ht, hphase, hkind, hcause⟩
    · obtain ⟨hcut, hlens, hroom⟩ := h.resolve_left hshort
      have hlensIn : p + 32 ≤ 8 * s.srcLen := Nat.not_lt.mp hshort
      obtain ⟨t, hcopy, hpolicy⟩ := copyStoredLoop_overruns (n := len) h0 (hasBits_storedBegun.mpr hlensIn) hroom
        (mt hasBits_storedBegun.mp (Nat.not_le.mpr hcut))
      rw [exec, execBlkStored, blkStored_agree bfinal hlensIn hlens, hcopy, bind_sourceOverrun]
      refine ⟨fun hp => ?_, fun hp => ?_⟩
      · rw [sourceOverrun_checked (hpolicy.trans hp)]
        exact ⟨_, rfl, rfl, rfl, rfl⟩
      · rw [sourceOverrun_raw (hpolicy.trans hp), outcome_fault]
  case full =>
    obtain ⟨t, hcopy, hcap⟩ := copyStoredLoop_full (n := len) h0 (hasBits_storedBegun.mpr hbits) hroom hfull
    rw [exec, execBlkStored, blkStored_agree bfinal (Nat.le_of_add_right_le hbits) hlens, hcopy, bind_raise]
    exact ⟨_, rfl, rfl, rfl, rfl, hcap⟩

/-- Settles O29: both only write their header's registers and the phase. -/
theorem fixedAndReservedBlocks : Obligations.FixedAndReservedBlocks := fun _ _ => ⟨rfl, rfl⟩

/-- Settles O30: the header's fields are there, and the tree of the code lengths they give is built. -/
theorem dynamicBlockReadsItsHeader : Obligations.DynamicBlockReadsItsHeader := by
  intro bfinal s p hlit hdist hclen cll lens hbits hover
  rw [exec, execBlkDynamic, blkDynamic_cllRead bfinal hbits, buildClTree_eq rfl]
  change (Res.bind (if oversubscribed (countLengths lens) = true then _ else _) _).outcome = _
  rw [if_neg (by rw [hover]; decide)]
  rfl

/-- Settles O33: the block ends as its final bit says. -/
theorem endOfBlockFollowsTheFinalBit : Obligations.EndOfBlockFollowsTheFinalBit := by
  intro s hw
  have hend : exec .eob s = .next (s.withSym 256).endBlock := by
    rw [exec, execEob, endOfBlock_eq (by exact hw), outcome_ok]
  refine ⟨fun hfinal => ?_, fun hfinal => ?_⟩ <;> rw [hend, State.endBlock, withSym_bfinal, hfinal] <;> rfl
end

section
/-! PROOFS. The turn of a decode: the element that the bits at the cursor decode to is run past its value, and of all
elements only `EOB` and a stored block complete a decode. -/

namespace Sys2Proof.Machine

section
variable {s t : State}

/-! ## The phase that awaits a format -/

theorem phase_of_awaits_header (h : fetchFormat s = some .blockHdr) : s.phase = .blockHeader := by
  obtain ⟨-, hp⟩ | ⟨e, -⟩ | ⟨e, -⟩ | ⟨e, -⟩ := fetchFormat_cases h
  case inl => exact hp
  all_goals cases e

theorem phase_of_awaits_cl (h : fetchFormat s = some .clSymbol) : s.phase = .dynHeader := by
  obtain ⟨e, -⟩ | ⟨-, hp⟩ | ⟨e, -⟩ | ⟨e, -⟩ := fetchFormat_cases h
  case inr.inl => exact hp
  all_goals cases e

theorem phase_of_awaits_litlen (h : fetchFormat s = some .litlenSymbol) :
    s.phase = .tokens ∧ s.distPending = false := by
  obtain ⟨e, -⟩ | ⟨e, -⟩ | ⟨-, hp⟩ | ⟨e, -⟩ := fetchFormat_cases h
  case inr.inr.inl => exact hp
  all_goals cases e

theorem phase_of_awaits_dist (h : fetchFormat s = some .distSymbol) : s.phase = .tokens ∧ s.distPending = true := by
  obtain ⟨e, -⟩ | ⟨e, -⟩ | ⟨e, -⟩ | ⟨-, hp⟩ := fetchFormat_cases h
  case inr.inr.inr => exact hp
  all_goals cases e

/-! ## The read of an element's value -/

theorem hasBits_of_le_bitsLeft {n : Nat} (h0 : s.hasBits 0) (h : n ≤ s.bitsLeft.length) : s.hasBits n := by
  rw [length_bitsLeft] at h
  simp only [State.hasBits] at h0 ⊢
  omega

/-- The header value read bit by bit is the 3-bit field at the cursor (30_encoding.md R301, 42_inflate_blocks.md R502). -/
theorem fetchHeader_eq (h : s.hasBits 3) :
    fetchHeader s = .ok (s.field s.pos 3) { s.moveTo (s.pos + 3) with bfinal := wrote (s.streamBit s.pos) } := by
  have hpos : State.pos { s.moveTo (s.pos + 1) with bfinal := wrote (s.streamBit s.pos) } = s.pos + 1 := pos_moveTo s _
  have hsrc : State.src { s.moveTo (s.pos + 1) with bfinal := wrote (s.streamBit s.pos) } = s.src := rfl
  rw [fetchHeader, nextBit_eq (hasBits_mono h (by decide)), bind_ok,
    readBits_eq 2 ((hasBits_of_pos hpos rfl).mpr h), bind_ok, hpos, field_congr hsrc, headerValue, Nat.add_comm,
    ← field_succ]
  rfl

theorem afterValue_header (hp : s.phase = .blockHeader) (n : Nat) :
    s.afterValue n = { s.moveTo (s.pos + n) with bfinal := wrote (s.streamBit s.pos) } := if_pos hp

theorem afterValue_of_ne (hp : s.phase ≠ .blockHeader) (n : Nat) : s.afterValue n = s.moveTo (s.pos + n) := if_neg hp

theorem awaitedCode_blockHeader (hp : s.phase = .blockHeader) : s.awaitedCode = some .header := by
  rw [State.awaitedCode, hp]

/-- The block awaits a header exactly before a block. -/
theorem phase_of_awaitedCode {k : ValueCode} (hk : s.awaitedCode = some k) : s.phase = .blockHeader ↔ k = .header := by
  refine ⟨fun hp => ?_, fun hk' => ?_⟩
  · rw [awaitedCode_blockHeader hp] at hk
    cases hk
    rfl
  · subst hk'
    obtain ⟨hformat, -⟩ := fetch_of_awaitedCode hk
    exact phase_of_awaits_header hformat

/-- Where the bits left hold a value in the awaited code, the fetch reads it and uses up just its bits. -/
theorem readValue_of_readCode {k : ValueCode} {v : Nat} {rest : List Bool} (h0 : s.hasBits 0)
    (hk : s.awaitedCode = some k) (h : readCode k s.bitsLeft = .ok (v, rest)) :
    readValue k s = .ok v (s.afterValue (s.bitsLeft.length - rest.length)) := by
  cases k with
  | header =>
    rw [readCode] at h
    split at h
    case isTrue => cases h
    case isFalse hlen =>
      cases h
      have h3 := hasBits_of_le_bitsLeft h0 (Nat.not_lt.mp hlen)
      have hused : s.bitsLeft.length - (s.bitsLeft.drop 3).length = 3 := by
        rw [List.length_drop]
        omega
      rw [readValue, fetchHeader_eq h3, hused, afterValue_header ((phase_of_awaitedCode hk).mpr rfl),
        take_bitsLeft 3 h3, State.field]
  | fixedDist =>
    rw [readCode] at h
    split at h
    case isTrue => cases h
    case isFalse hlen =>
      cases h
      have h5 := hasBits_of_le_bitsLeft h0 (Nat.not_lt.mp hlen)
      have hused : s.bitsLeft.length - (s.bitsLeft.drop 5).length = 5 := by
        rw [List.length_drop]
        omega
      rw [readValue, readBitsReversed_eq 5 h5, hused, afterValue_of_ne (mt (phase_of_awaitedCode hk).mp nofun),
        take_bitsLeft 5 h5]
  | huffman f T =>
    rw [readCode] at h
    rw [readValue, decodeSymbol_eq T s h0, afterValue_of_ne (mt (phase_of_awaitedCode hk).mp nofun)]
    cases hwalk : walk T s.bitsLeft with
    | found x rest' =>
      rw [hwalk] at h
      cases h
      rfl
    | _ =>
      rw [hwalk] at h
      cases h

theorem of_decodeBits_ok {k : ValueCode} {bs rest : List Bool} {i : Instr} (h : decodeBits k bs = .ok (i, rest)) :
    ∃ v, readCode k bs = .ok (v, rest) ∧ decodeValue (codeFormat k) v = .ok i := by
  rw [decodeBits] at h
  split at h
  case h_1 => cases h
  case h_2 v rest' hread =>
    split at h
    case h_1 => cases h
    case h_2 j hvalue =>
      cases h
      exact ⟨v, hread, hvalue⟩

/-- The turn runs the element that the bits at the cursor decode to, past its value (R501, R550, R700). -/
theorem instanceTurn_of_decodeBits {k : ValueCode} {i : Instr} {rest : List Bool} (h0 : s.hasBits 0)
    (hk : s.awaitedCode = some k) (h : decodeBits k s.bitsLeft = .ok (i, rest)) :
    instanceTurn s = exec i (s.afterValue (s.bitsLeft.length - rest.length)) := by
  obtain ⟨v, hread, hvalue⟩ := of_decodeBits_ok h
  obtain ⟨hformat, hfetch⟩ := fetch_of_awaitedCode hk
  rw [readValue_of_readCode h0 hk hread] at hfetch
  simp only [instanceTurn, hformat, fetchAndRun, hfetch, runValue, hvalue]

/-! ## The phase in which an element ends -/

/-- The decode has begun and has not completed. -/
def Underway (s : State) : Prop := s.phase ≠ .idle ∧ s.phase ≠ .done

/-- The decode has begun, and it has completed only if the element `i` ends a block (42_inflate_blocks.md R508). -/
def CompletesAtBlockEnd (i : Instr) (t : State) : Prop :=
  t.phase ≠ .idle ∧ (t.phase = .done → i = .eob ∨ ∃ f, i = .blkStored f)

section
variable {i : Instr}

theorem Underway.completesAtBlockEnd (h : Underway t) : CompletesAtBlockEnd i t := ⟨h.1, fun hdone => absurd hdone h.2⟩

theorem completesAtBlockEnd_abort (k : ErrKind) (c : ErrCause) (u : State) : CompletesAtBlockEnd i (u.abort k c) :=
  ⟨nofun, nofun⟩

theorem BlockEnd.completesAtBlockEnd (hi : i = .eob ∨ ∃ f, i = .blkStored f) (h : BlockEnd Underway t) :
    CompletesAtBlockEnd i t := by
  refine ⟨?_, fun _ => hi⟩
  obtain ⟨u, -, rfl | rfl⟩ := h <;> exact nofun

theorem ClElementEnd.completesAtBlockEnd (h : ClElementEnd Underway t) : CompletesAtBlockEnd i t := by
  obtain ⟨hu, -⟩ | ⟨u, -, -, -, -, -, rfl⟩ := h
  · exact hu.completesAtBlockEnd
  · exact ⟨nofun, nofun⟩

theorem exec_completesAtBlockEnd (h : Underway s) (ht : exec i s = .next t) : CompletesAtBlockEnd i t := by
  have hmove : KeptByMoves Underway := by
    rintro u w ⟨p, -, -, rfl⟩ hu
    exact hu
  have hpush : KeptByAppends Underway := fun _ _ _ hu => hu
  have hexp : KeptByExpansion Underway := fun _ _ _ _ _ _ hu => hu
  have habort : ∀ k c u, Raisable k c → Underway u → CompletesAtBlockEnd i (u.abort k c) :=
    fun k c u _ _ => completesAtBlockEnd_abort k c u
  have hcl : ∀ (_ : Unit) u, ClElementEnd Underway u → CompletesAtBlockEnd i u := fun _ _ hu => hu.completesAtBlockEnd
  induction i using instr_byKind with
  | blkStored f =>
    exact (blkStored_ends (P := Underway) hmove hpush (fun _ _ _ _ hu => hu) f ⟨nofun, nofun⟩).outcome
      (fun _ _ hu => hu.completesAtBlockEnd (.inr ⟨f, rfl⟩)) habort ht
  | blkDynamic f =>
    exact (blkDynamic_ends (P := Underway) hmove (fun _ _ _ _ _ _ _ _ _ hu => hu) f ⟨nofun, nofun⟩).outcome
      (fun _ _ hu => hu.1.completesAtBlockEnd) habort ht
  | blkFixed f | blkReserved f | litlenInvalid x | distInvalid d =>
    cases ht
    exact ⟨nofun, nofun⟩
  | lit x =>
    exact (outAppend_ends (P := Underway) (Q := fun _ => Underway) (s := s.withSym x) _ h fun _ => h).outcome
      (fun _ _ hu => hu.completesAtBlockEnd) habort ht
  | eob =>
    exact (endOfBlock_ends (P := Underway) (s := s.withSym 256) h).outcome
      (fun _ _ hu => hu.completesAtBlockEnd (.inl rfl)) habort ht
  | length row hrow =>
    rw [exec_lengthRow row hrow] at ht
    refine (lengthCode_ends row.2.1 hmove h).outcome ?_ habort ht
    rintro _ _ ⟨u, n, hu, -, -, rfl⟩
    exact Underway.completesAtBlockEnd hu
  | distance row hrow =>
    rw [exec_distRow row hrow] at ht
    refine (distanceCode_ends row.2.1 hmove hpush (fun _ _ _ hu => hu) h).outcome ?_ habort ht
    rintro _ _ ⟨u, hu, rfl⟩
    exact Underway.completesAtBlockEnd hu
  | clLen c => exact (clRun_ends hexp _ _ h).outcome hcl habort ht
  | clRep16 => exact (clRep16_ends hmove hexp h).outcome hcl habort ht
  | clZero17 => exact (readBasePlus_clRun_ends hmove hexp 0 3 3 h).outcome hcl habort ht
  | clZero18 => exact (readBasePlus_clRun_ends hmove hexp 0 11 7 h).outcome hcl habort ht

end

/-! ## The completed decode (42_inflate_blocks.md R508, R509) -/

theorem eq_wrote {α : Type} {r : Reg α} (h : r.written = true) : r = wrote r.val := by
  cases r
  cases h
  rfl

/-- The decode of `s` completes in `t`, the block's final bit being 1. -/
def CompletedBy (s t : State) : Prop := s.bfinal = wrote true ∧ t = s.complete

theorem endOfBlock_completes (ht : (endOfBlock s).outcome = .next t) (hdone : t.phase = .done) : CompletedBy s t := by
  cases hw : s.bfinal.written with
  | false =>
    rw [endOfBlock_unwritten hw] at ht
    cases ht
  | true =>
    rw [endOfBlock_eq hw, outcome_ok, State.endBlock] at ht
    split at ht
    case isTrue hval =>
      cases ht
      exact ⟨(eq_wrote hw).trans (congrArg wrote hval), rfl⟩
    case isFalse =>
      cases ht
      cases hdone

/-- `REMAIN` counts the copy down to 0 (R512). -/
theorem copyStoredLoop_remain {n : Nat} (h : s.remain = wrote (BitVec.ofNat 16 n)) :
    (copyStoredLoop n s).Ends (fun _ => True) fun _ u => u.remain = wrote 0 := by
  induction n generalizing s with
  | zero => exact .ok h
  | succ n ih =>
    refine (readByte_ends s).bind (fun _ _ => trivial) fun b u _ => ?_
    exact (outAppend_ends (P := fun _ => True) (Q := fun _ _ => True) b trivial fun _ => trivial).bind
      (fun _ _ => trivial) fun _ w _ => ih rfl

/-- The copy of a stored block, then the end of the block: where it completes the decode, no byte is left to copy. -/
theorem copyStored_completes {n : Nat} (hremain : s.remain = wrote (BitVec.ofNat 16 n))
    (ht : ((copyStoredLoop n s).bind fun _ u => endOfBlock u).outcome = .next t) (hdone : t.phase = .done) :
    s.bfinal = wrote true ∧ t.bfinal = s.bfinal ∧ t.btype = s.btype ∧ t.remain = wrote 0 ∧
      t.finalPos = ⟨t.byteIdx, t.bitIdx⟩ := by
  have hcount := copyStoredLoop_remain hremain
  have hframe := copyStoredLoop_ends (P := fun u => u.bfinal = s.bfinal ∧ u.btype = s.btype)
    (by rintro u w ⟨p, -, -, rfl⟩ hu; exact hu) (fun _ _ _ hu => hu) (fun _ _ hu => hu) n ⟨rfl, rfl⟩
  cases hcopy : copyStoredLoop n s with
  | ok a u =>
    rw [hcopy] at hcount hframe ht
    obtain ⟨hremain'⟩ := hcount
    obtain ⟨hbfinal, hbtype⟩ := hframe
    obtain ⟨hfinal, rfl⟩ := endOfBlock_completes ht hdone
    exact ⟨hbfinal.symm.trans hfinal, hbfinal, hbtype, hremain', rfl⟩
  | raise k c u =>
    rw [hcopy] at ht
    cases ht
    cases hdone
  | fault x =>
    rw [hcopy] at ht
    cases ht

theorem not_done_of_endsInOverrun {o : Host.Outcome State Fault Refusal} (h : EndsInOverrun s o) (ht : o = .next t) :
    t.phase ≠ .done := by
  obtain ⟨hchecked, hraw⟩ := h
  cases hp : s.policy with
  | checked =>
    obtain ⟨u, hu, hphase, -⟩ := hchecked hp
    cases ht.symm.trans hu
    rw [hphase]
    exact nofun
  | raw => cases ht.symm.trans (hraw hp)

theorem blkStored_completes {bfinal : Bool} (hin : s.hasBits 0) (ht : exec (.blkStored bfinal) s = .next t)
    (hdone : t.phase = .done) :
    bfinal = true ∧ t.bfinal = wrote true ∧ t.btype = wrote 0 ∧ t.remain = wrote 0 ∧
      t.finalPos = ⟨t.byteIdx, t.bitIdx⟩ := by
  rw [exec, execBlkStored] at ht
  by_cases hshort : 8 * s.srcLen < s.alignedPos + 32
  · exact absurd hdone (not_done_of_endsInOverrun (blkStored_overruns bfinal hin hshort).outcome ht)
  have hlensIn := Nat.not_lt.mp hshort
  by_cases hlens : s.field s.alignedPos 16 + s.field (s.alignedPos + 16) 16 = 65535
  · rw [blkStored_agree bfinal hlensIn hlens] at ht
    obtain ⟨hfinal, hbfinal, hbtype, hrest⟩ := copyStored_completes rfl ht hdone
    have hf : bfinal = true := congrArg Reg.val hfinal
    exact ⟨hf, hbfinal.trans hfinal, hbtype, hrest⟩
  · rw [blkStored_mismatch bfinal hlensIn hlens] at ht
    cases ht
    cases hdone

/-! ## What the fetch of a completing element has read -/

/-- A symbol read at the cursor is one that the bits left lead to. -/
theorem walk_of_decodeSymbol {T : Tree} {v : Nat} (h : decodeSymbol T s = .ok v t) :
    ∃ rest, walk T s.bitsLeft = .found v rest := by
  induction T generalizing s with
  | absent => cases h
  | leaf x =>
    cases h
    exact ⟨_, rfl⟩
  | internal l r ihl ihr =>
    by_cases h1 : s.hasBits 1
    · rw [decodeSymbol, nextBit_eq h1, bind_ok] at h
      rw [bitsLeft_cons h1, walk]
      split at h
      · rw [if_pos ‹_›]
        exact ihr h
      · rw [if_neg ‹_›]
        exact ihl h
    · rw [decodeSymbol, nextBit_short h1, bind_sourceOverrun, sourceOverrun] at h
      split at h <;> cases h

/-- In the token loop a turn that is no fault has a tree to read the next symbol with. -/
theorem exists_awaitedCode_of_turn (hp : s.phase = .tokens) (hd : s.distPending = false)
    (ht : instanceTurn s = .next t) : ∃ T, s.awaitedCode = some (.huffman .litlenSymbol T) := by
  have hbtype : s.btype.written = true := Bool.of_not_eq_false fun h => by
    cases ht.symm.trans (instanceTurn_without_btype hp h)
  by_cases hfixed : s.btype.val = 1
  · exact ⟨fixedLitTree, by simp only [State.awaitedCode, hp, hbtype, hfixed, hd, if_true]; rfl⟩
  · have htree : s.litTree.written = true := Bool.of_not_eq_false fun h => by
      cases ht.symm.trans (instanceTurn_without_litTree hp hfixed hd h)
    exact ⟨s.litTree.val, by simp only [State.awaitedCode, hp, hbtype, hfixed, hd, htree, if_true]; rfl⟩

theorem fetchValue_keeps_phase {f : Format} {v : Nat} (h : fetchValue f s = .ok v t) : t.phase = s.phase := by
  have hends := fetchValue_ends (P := fun u => u.phase = s.phase) (f := f)
    (by rintro u w ⟨p, -, -, rfl⟩ hu; exact hu) (fun _ _ _ hu => hu) rfl
  rw [h] at hends
  cases hends with
  | ok hphase => exact hphase

/-- What ended the block of a completed decode: the element `EOB` or `BLK_STORED`, read at the cursor, or the last byte
of a stored block whose copy was under way (log entry 18). -/
def EndedBlock (s t : State) : Prop :=
  (s.phase = .tokens ∧ t.sym = wrote 256 ∧
    ∃ k rest, s.awaitedCode = some k ∧ decodeBits k s.bitsLeft = .ok (.eob, rest)) ∨
  (s.phase = .blockHeader ∧ t.btype = wrote 0 ∧ t.remain = wrote 0 ∧
    ∃ rest, decodeBits .header s.bitsLeft = .ok (.blkStored true, rest)) ∨
  (s.phase = .stored ∧ t.remain = wrote 0)

/-- `EOB` in the token loop. -/
theorem eob_completes {v : Nat} {u : State} (hf : fetchFormat s = some .litlenSymbol)
    (hv : fetchValue .litlenSymbol s = .ok v u) (hi : decodeValue .litlenSymbol v = .ok .eob)
    (hturn : instanceTurn s = .next t) (ht : exec .eob u = .next t) (hdone : t.phase = .done) :
    t.bfinal = wrote true ∧ t.finalPos = ⟨t.byteIdx, t.bitIdx⟩ ∧ EndedBlock s t := by
  obtain ⟨hp, hd⟩ := phase_of_awaits_litlen hf
  obtain ⟨T, hk⟩ := exists_awaitedCode_of_turn hp hd hturn
  obtain ⟨-, hfetch⟩ := fetch_of_awaitedCode hk
  obtain ⟨rest, hwalk⟩ := walk_of_decodeSymbol (hfetch.symm.trans hv)
  have hread : readCode (.huffman .litlenSymbol T) s.bitsLeft = .ok (v, rest) := by rw [readCode, hwalk]
  obtain ⟨hfinal, rfl⟩ := endOfBlock_completes (s := u.withSym 256) ht hdone
  exact ⟨hfinal, rfl, .inl ⟨hp, rfl, _, rest, hk, decodeBits_of_readCode hread hi⟩⟩

/-- `BLK_STORED` before a block. -/
theorem stored_completes {v : Nat} {u : State} {bfinal : Bool} (hf : fetchFormat s = some .blockHdr)
    (hv : fetchValue .blockHdr s = .ok v u) (hi : decodeValue .blockHdr v = .ok (.blkStored bfinal))
    (ht : exec (.blkStored bfinal) u = .next t) (hdone : t.phase = .done) :
    t.bfinal = wrote true ∧ t.finalPos = ⟨t.byteIdx, t.bitIdx⟩ ∧ EndedBlock s t := by
  have h3 : s.hasBits 3 := by
    by_contra hshort
    obtain ⟨w, hover, -⟩ := fetchHeader_overruns hshort
    rw [fetchValue, hover, sourceOverrun] at hv
    split at hv <;> cases hv
  have hlen : ¬ s.bitsLeft.length < 3 := fun h => not_hasBits_of_bitsLeft_lt h h3
  have hread : readCode .header s.bitsLeft = .ok (s.field s.pos 3, s.bitsLeft.drop 3) := by
    rw [readCode, if_neg hlen, take_bitsLeft 3 h3, State.field]
  rw [fetchValue, fetchHeader_eq h3] at hv
  cases hv
  have hin : State.hasBits { s.moveTo (s.pos + 3) with bfinal := wrote (s.streamBit s.pos) } 0 :=
    (hasBits_of_pos (pos_moveTo s _) rfl).mpr h3
  obtain ⟨rfl, hbfinal, hbtype, hremain, hpos⟩ := blkStored_completes hin ht hdone
  exact ⟨hbfinal, hpos, .inr (.inl ⟨phase_of_awaits_header hf, hbtype, hremain, _, decodeBits_of_readCode hread hi⟩)⟩

/-- The rest of a stored block (log entry 18). -/
theorem resumeStored_completes (hp : s.phase = .stored) (ht : (resumeStored s).outcome = .next t)
    (hdone : t.phase = .done) : t.bfinal = wrote true ∧ t.finalPos = ⟨t.byteIdx, t.bitIdx⟩ ∧ EndedBlock s t := by
  have hw : s.remain.written = true := Bool.of_not_eq_false fun h => by
    rw [resumeStored, readReg_unwritten h] at ht
    cases ht
  have hremain : s.remain = wrote (BitVec.ofNat 16 s.remain.val.toNat) := by
    rw [BitVec.ofNat_toNat, BitVec.setWidth_eq]
    exact eq_wrote hw
  rw [resumeStored, readReg_eq hw, bind_ok] at ht
  obtain ⟨hfinal, hbfinal, -, hzero, hpos⟩ := copyStored_completes hremain ht hdone
  exact ⟨hbfinal.trans hfinal, hpos, .inr (.inr ⟨hp, hzero⟩)⟩

/-- A turn that completes a decode is at the end of a block whose final bit is 1 (R508, R509). -/
theorem instanceTurn_completes (hbusy : s.status = .busy) (ht : instanceTurn s = .next t) (hdone : t.phase = .done) :
    t.bfinal = wrote true ∧ t.finalPos = ⟨t.byteIdx, t.bitIdx⟩ ∧ EndedBlock s t := by
  have hunderway : Underway s := by
    constructor <;> intro hp <;> rw [State.status, hp] at hbusy <;> cases hbusy
  have hturn := ht
  rw [instanceTurn] at ht
  split at ht
  case h_1 f hf =>
    rw [fetchAndRun] at ht
    split at ht
    case h_1 v u hv =>
      rw [runValue] at ht
      split at ht
      case h_1 i hi =>
        have hu : Underway u := by
          rw [Underway, fetchValue_keeps_phase hv]
          exact hunderway
        obtain ⟨-, hend⟩ := exec_completesAtBlockEnd hu ht
        obtain rfl | ⟨bfinal, rfl⟩ := hend hdone <;> obtain rfl := formatOf_decodeValue hi
        · exact eob_completes hf hv hi hturn ht hdone
        · exact stored_completes hf hv hi ht hdone
      case h_2 => cases ht
    case h_2 =>
      cases ht
      cases hdone
    case h_3 => cases ht
  case h_2 =>
    split at ht
    case isTrue hp => exact resumeStored_completes hp ht hdone
    case isFalse =>
      cases ht
      exact absurd hdone hunderway.2

/-- No command of the host completes a decode. -/
theorem hostTurn_not_done (h : hostTurn s = some t) (hbusy : s.status = .busy) : t.phase ≠ .done := by
  obtain ⟨cs, ⟨hidle, -⟩ | rfl | rfl⟩ := hostTurn_cases h
  · rw [busy_iff.mpr hbusy] at hidle
    cases hidle
  · exact nofun
  · exact nofun

theorem phase_of_status_doneOk (h : s.status = .doneOk) : s.phase = .done := by
  rw [State.status] at h
  cases hp : s.phase with
  | done => rfl
  | _ =>
    rw [hp] at h
    cases h

end

end Sys2Proof.Machine

open Sys2Proof.Machine

/-- Settles O9: the step is the turn that runs the element decoded. -/
theorem stepRunsTheDecodedElement : Obligations.StepRunsTheDecodedElement := by
  intro s k i rest hturn h0 hk hbits
  have hleft : s.hostTick.bitsLeft = s.bitsLeft := by
    rw [hostTick_eq]
    rfl
  have h0' : s.hostTick.hasBits 0 := by
    rw [hostTick_eq]
    exact h0
  have hk' : s.hostTick.awaitedCode = some k := by
    rw [hostTick_eq]
    exact hk
  rw [step_of_hostTurn_none hturn, ← hleft]
  exact instanceTurn_of_decodeBits h0' hk' (hleft ▸ hbits)

/-- Settles O52: the step that completes is a turn of the decode, and the element it ran ended the block. -/
theorem successOnlyAfterTheFinalBlock : Obligations.SuccessOnlyAfterTheFinalBlock := by
  intro s t hbusy ht hok
  have hdone := phase_of_status_doneOk hok
  cases hturn : hostTurn s with
  | some u =>
    rw [step_of_hostTurn_some hturn] at ht
    cases ht
    exact absurd hdone (hostTurn_not_done hturn hbusy)
  | none =>
    rw [step_of_hostTurn_none hturn, hostTick_eq] at ht
    exact instanceTurn_completes (s := { s with hostCmds := s.hostTick.hostCmds }) hbusy ht hdone
end

section
/-! PROOFS. Every decode ends: from a state of the invariant an element answers or overruns `SRC`, its value takes a bit
at least, and what it appends is at most 258 bytes a bit. -/

namespace Sys2Proof.Machine

section
variable {s t : State}

/-! ## How an element answers -/

/-- The outcome is a next state, or under `RAW` the fault of a read past the end of `SRC`. What is appended is at most
258 bytes for each bit that the cursor moves on, and 258 for the element's value, which has been read before. -/
def Answers (s : State) (o : Host.Outcome State Fault Refusal) : Prop :=
  (∃ t, o = .next t ∧ t.outLen ≤ s.outLen + 258 * (t.pos - s.pos + 1)) ∨
  (s.policy = .raw ∧ o = .fault .undefinedSourceRead)

theorem answers_next (h : t.outLen ≤ s.outLen + 258) : Answers s (.next t) :=
  .inl ⟨t, rfl, h.trans (Nat.add_le_add_left (Nat.le_mul_of_pos_right _ (Nat.succ_pos _)) _)⟩

theorem answers_next_of_outLen_eq (h : t.outLen = s.outLen) : Answers s (.next t) :=
  answers_next (h.trans_le (Nat.le_add_right _ _))

/-- A byte of a stored block is paid for by its eight bits. -/
theorem answers_next_of_bytes {j : Nat} (houtLen : t.outLen = s.outLen + j) (hpos : s.pos + 8 * j ≤ t.pos) :
    Answers s (.next t) := by
  refine .inl ⟨t, rfl, ?_⟩
  rw [houtLen]
  omega

theorem EndsInOverrun.answers {o : Host.Outcome State Fault Refusal} (h : EndsInOverrun s o) : Answers s o := by
  obtain ⟨hchecked, hraw⟩ := h
  cases hp : s.policy with
  | checked =>
    obtain ⟨t, rfl, -, -, -, -, houtLen, -⟩ := hchecked hp
    exact answers_next_of_outLen_eq houtLen
  | raw => exact .inr ⟨hp, hraw hp⟩

/-! ## Block elements -/

@[simp] theorem endBlock_outLen : s.endBlock.outLen = s.outLen := by
  rw [State.endBlock]
  split <;> rfl

@[simp] theorem pos_abort (k : ErrKind) (c : ErrCause) : (s.abort k c).pos = s.pos := rfl

@[simp] theorem pos_endBlock : s.endBlock.pos = s.pos := by
  rw [State.endBlock]
  split <;> rfl

theorem copyStored_answers (n : Nat) (h0 : t.pos % 8 = 0) (hw : t.bfinal.written = true) (hpos : s.pos ≤ t.pos)
    (hpolicy : t.policy = s.policy) (houtLen : t.outLen = s.outLen) :
    Answers s ((copyStoredLoop n t).bind fun _ u => endOfBlock u).outcome := by
  have hout (j : Nat) : (storedCopied t n j).outLen = s.outLen + j := by rw [outLen_storedCopied, houtLen]
  obtain ⟨j, -, ⟨-, hcopy⟩ | ⟨-, -, -, hcopy⟩ | ⟨-, -, hcopy⟩⟩ := copyStoredLoop_cases n t h0
  · rw [hcopy, bind_ok, endOfBlock_eq (by exact hw), outcome_ok]
    refine answers_next_of_bytes (endBlock_outLen.trans (hout n)) ?_
    rw [pos_endBlock, pos_storedCopied]
    exact Nat.add_le_add_right hpos _
  · rw [hcopy, bind_raise, outcome_raise]
    refine answers_next_of_bytes (hout j) ?_
    rw [pos_abort, pos_moveTo]
    omega
  · have hend : s.pos + 8 * j ≤ (storedCopied t n j).atEnd.pos := by
      rw [State.atEnd, pos_moveTo, pos_storedCopied]
      omega
    have hpolicy' : (storedCopied t n j).atEnd.policy = s.policy := hpolicy
    rw [hcopy, bind_sourceOverrun]
    cases hp : s.policy with
    | checked =>
      rw [sourceOverrun_checked (hpolicy'.trans hp), outcome_raise]
      exact answers_next_of_bytes (hout j) (by rwa [pos_abort])
    | raw =>
      rw [sourceOverrun_raw (hpolicy'.trans hp), outcome_fault]
      exact .inr ⟨hp, rfl⟩

theorem blkStored_answers (bfinal : Bool) (hin : s.hasBits 0) : Answers s (exec (.blkStored bfinal) s) := by
  rw [exec, execBlkStored]
  by_cases hshort : 8 * s.srcLen < s.alignedPos + 32
  case pos => exact (blkStored_overruns bfinal hin hshort).outcome.answers
  have hlensIn := Nat.not_lt.mp hshort
  by_cases hlens : s.field s.alignedPos 16 + s.field (s.alignedPos + 16) 16 = 65535
  · rw [blkStored_agree bfinal hlensIn hlens]
    refine copyStored_answers _ (pos_storedBegun_mod s bfinal) rfl ?_ rfl rfl
    rw [pos_storedBegun]
    exact Nat.le_add_right_of_le (pos_le_alignedPos s)
  · rw [blkStored_mismatch bfinal hlensIn hlens]
    exact answers_next_of_outLen_eq rfl

theorem blkDynamic_answers (bfinal : Bool) (hin : s.hasBits 0) : Answers s (exec (.blkDynamic bfinal) s) := by
  rw [exec, execBlkDynamic]
  by_cases hbits : s.hasBits (14 + 3 * (s.field (s.pos + 10) 4 + 4))
  · rw [blkDynamic_cllRead bfinal hbits, buildClTree_eq rfl]
    split <;> exact answers_next_of_outLen_eq rfl
  · exact (blkDynamic_overruns bfinal hin hbits).outcome.answers

/-! ## Literal/length and distance elements -/

theorem lengthCode_answers {row : Instr × Nat × Nat × Nat} (hrow : row ∈ lengthRows) (hin : s.hasBits 0) :
    Answers s (exec row.1 s) := by
  rw [exec_lengthRow row hrow]
  by_cases hbits : s.hasBits row.2.2.1
  · have hread : readMatchLength row.2.1 (s.withSym (BitVec.ofNat 9 row.2.1)) =
        .ok (row.2.2.2 + s.field s.pos row.2.2.1)
          ((s.withSym (BitVec.ofNat 9 row.2.1)).moveTo (s.pos + row.2.2.1)) := by
      rw [readMatchLength, lengthEntry_lengthRow row hrow]
      exact readBasePlus_eq _ _ hbits
    rw [lengthCode, hread, bind_ok]
    exact answers_next_of_outLen_eq rfl
  · exact (lengthCode_overruns hrow hin hbits).outcome.answers

/-- The least distance is 1 (43_token_loop.md R586). -/
theorem distRow_pos : ∀ row ∈ distRows, 1 ≤ row.2.2.2 := by decide

theorem toNat_distanceRead {row : Instr × Nat × Nat × Nat} (hrow : row ∈ distRows) :
    (s.distanceRead row).matchDist.val.toNat = row.2.2.2 + s.field s.pos row.2.2.1 := by
  have := field_lt s s.pos row.2.2.1
  have := distRow_range row hrow
  show (BitVec.ofNat 16 _).toNat = _
  rw [BitVec.toNat_ofNat]
  omega

/-- A distance that reaches back past the start of `OUT` (R617). -/
theorem distanceCode_tooFar {row : Instr × Nat × Nat × Nat} (hrow : row ∈ distRows) (hbits : s.hasBits row.2.2.1)
    (hfar : s.outLen < row.2.2.2 + s.field s.pos row.2.2.1) :
    distanceCode row.2.1 s = .raise .dataCorruption .distanceTooFar (s.distanceRead row) := by
  have hread : readMatchDist row.2.1 (s.withDsym (BitVec.ofNat 5 row.2.1)) =
      .ok (row.2.2.2 + s.field s.pos row.2.2.1)
        ((s.withDsym (BitVec.ofNat 5 row.2.1)).moveTo (s.pos + row.2.2.1)) := by
    rw [readMatchDist, distEntry_distRow row hrow]
    exact readBasePlus_eq _ _ hbits
  have hcheck : checkDistance (s.distanceRead row) =
      .raise .dataCorruption .distanceTooFar (s.distanceRead row) := by
    rw [checkDistance, readReg_eq rfl, bind_ok, toNat_distanceRead hrow]
    exact if_pos hfar
  rw [distanceCode, hread, bind_ok]
  exact congrArg (Res.bind · _) hcheck

theorem outLen_matchCopied (dist n j : Nat) : (matchCopied s dist n j).outLen = s.outLen + j :=
  congrArg (s.outLen + ·) (length_matchBytes s dist j)

/-- The state of a match before its first byte is copied (R618). -/
def State.matchBegun (s : State) (row : Instr × Nat × Nat × Nat) : State :=
  { s.distanceRead row with copyRemain := wrote s.matchLen.val }

/-- A match whose distance is in reach appends no more than its length. -/
theorem distanceCode_answers {row : Instr × Nat × Nat × Nat} (hrow : row ∈ distRows) (hin : s.hasBits 0)
    (hwf : Memory.wf s.out = true) (hw : s.matchLen.written = true) (hlen : s.matchLen.val.toNat ≤ 258) :
    Answers s (exec row.1 s) := by
  rw [exec_distRow row hrow]
  by_cases hbits : s.hasBits row.2.2.1
  case neg => exact (distanceCode_overruns hrow hin hbits).outcome.answers
  by_cases hfar : s.outLen < row.2.2.2 + s.field s.pos row.2.2.1
  case pos =>
    rw [distanceCode_tooFar hrow hbits hfar]
    exact answers_next_of_outLen_eq rfl
  have hcopy : copyMatch (s.distanceRead row) =
      copyMatchLoop (row.2.2.2 + s.field s.pos row.2.2.1) s.matchLen.val.toNat (s.matchBegun row) := by
    rw [copyMatch, readReg_eq (by exact hw), bind_ok, readReg_eq rfl, bind_ok, toNat_distanceRead hrow]
    rfl
  have hout {j : Nat} (hj : j ≤ 258) : (matchCopied (s.matchBegun row) (row.2.2.2 + s.field s.pos row.2.2.1)
      s.matchLen.val.toNat j).outLen ≤ s.outLen + 258 := by
    rw [outLen_matchCopied]
    exact Nat.add_le_add_left hj _
  rw [distanceCode_inReach hrow hbits (Nat.not_lt.mp hfar), hcopy]
  obtain hloop | ⟨j, hj, -, hloop⟩ := copyMatchLoop_cases (row.2.2.2 + s.field s.pos row.2.2.1)
    s.matchLen.val.toNat (s.matchBegun row) hwf (Nat.le_add_right_of_le (distRow_pos row hrow)) (Nat.not_lt.mp hfar)
  · rw [hloop, bind_ok, outcome_ok]
    exact answers_next (hout hlen)
  · rw [hloop, bind_raise, outcome_raise]
    exact answers_next (hout (by omega))

/-! ## Code-length elements -/

theorem clRun_answers (h : expanding t) (houtLen : t.outLen = s.outLen) (v : BitVec 4) (n : Nat) :
    Answers s (clRun v n t).outcome := by
  rw [clRun, appendLengths_eq h]
  split
  · exact answers_next_of_outLen_eq houtLen
  · have hnext : expanding { t with lengths := wrote (t.lengths.val ++ List.replicate n v) } := ⟨rfl, h.2⟩
    rw [bind_ok, endOfClElement_eq hnext]
    split
    · exact answers_next_of_outLen_eq houtLen
    · rw [splitAndBuild_eq hnext]
      split
      · exact answers_next_of_outLen_eq houtLen
      · split <;> exact answers_next_of_outLen_eq houtLen

theorem exec_clRunOf_answers {i : Instr} {e n : Nat} {v : BitVec 4} (hrun : clRunOf i s = some (e, v, n))
    (hin : s.hasBits 0) (h : expanding s) : Answers s (exec i s) := by
  by_cases hbits : s.hasBits e
  · rw [exec_of_clRunOf hrun hbits fun _ => h.1]
    exact clRun_answers (by exact h) (moveTo_outLen s _) v n
  · exact (exec_clRunOf_overrun hrun h.1 hin hbits).answers

theorem clRep16_answers (hin : s.hasBits 0) (h : expanding s) : Answers s (exec .clRep16 s) := by
  cases hlast : s.lengths.val.getLast? with
  | none =>
    have hraise : clRep16 s = .raise .dataCorruption .repeatWithoutPrevious s := by
      rw [clRep16, readReg_eq h.1, bind_ok]
      simp only [hlast]
    rw [exec, execClRep16, hraise]
    exact answers_next_of_outLen_eq rfl
  | some p => exact exec_clRunOf_answers (by rw [clRunOf, hlast]; rfl) hin h

/-! ## Every element -/

theorem Inv.expanding (h : Inv s) (hf : fetchFormat s = some .clSymbol) : expanding s := by
  obtain ⟨-, hhlit, hhdist, hlengths, -⟩ := h.inHeader (phase_of_awaits_cl hf)
  exact ⟨hlengths, hhlit, hhdist⟩

/-- An element run where its format is awaited answers. -/
theorem exec_answers {i : Instr} (h : Inv s) (hf : fetchFormat s = some (formatOf i)) : Answers s (exec i s) := by
  have hin : s.hasBits 0 := h.cursor (busy_of_fetchFormat hf)
  induction i using instr_byKind with
  | blkStored f => exact blkStored_answers f hin
  | blkDynamic f => exact blkDynamic_answers f hin
  | blkFixed f | blkReserved f | litlenInvalid x | distInvalid d => exact answers_next_of_outLen_eq rfl
  | lit x =>
    rw [exec, execLit]
    rcases outAppend_cases (x.setWidth 8) (s.withSym x) with ⟨-, happend⟩ | ⟨-, happend⟩ <;> rw [happend]
    · exact answers_next (Nat.add_le_add_left (by decide) _)
    · exact answers_next_of_outLen_eq rfl
  | eob =>
    obtain ⟨hbfinal, -⟩ := h.inBlock (.inr (phase_of_awaits_litlen hf).1)
    rw [exec, execEob, endOfBlock_eq (by exact hbfinal), outcome_ok]
    exact answers_next_of_outLen_eq endBlock_outLen
  | length row hrow => exact lengthCode_answers hrow hin
  | distance row hrow =>
    rw [formatOf_distRow row hrow] at hf
    obtain ⟨hp, hd⟩ := phase_of_awaits_dist hf
    obtain ⟨hw, -, hlen⟩ := h.inMatch hp hd
    exact distanceCode_answers hrow hin h.outWf hw hlen
  | clLen c => exact exec_clRunOf_answers rfl hin (h.expanding hf)
  | clRep16 => exact clRep16_answers hin (h.expanding hf)
  | clZero17 => exact exec_clRunOf_answers rfl hin (h.expanding hf)
  | clZero18 => exact exec_clRunOf_answers rfl hin (h.expanding hf)

/-! ## The value of an element -/

/-- A tree of the code is one of its alphabet. -/
def FitsAlphabet (k : ValueCode) : Prop := ∀ f T, k = .huffman f T → treeOver (rowCount f) T

/-- Where the invariant holds, the registers that say what is awaited are written. -/
theorem exists_awaitedCode {f : Format} (h : Inv s) (hf : fetchFormat s = some f) :
    ∃ k, s.awaitedCode = some k ∧ FitsAlphabet k := by
  cases f with
  | blockHdr => exact ⟨.header, awaitedCode_blockHeader (phase_of_awaits_header hf), nofun⟩
  | clSymbol =>
    have hp := phase_of_awaits_cl hf
    obtain ⟨-, -, -, -, -, hw, htree⟩ := h.headerLoop hp
    refine ⟨.huffman .clSymbol s.clTree.val, by rw [State.awaitedCode, hp]; exact if_pos hw, ?_⟩
    rintro _ _ ⟨⟩
    exact htree
  | litlenSymbol =>
    obtain ⟨hp, hd⟩ := phase_of_awaits_litlen hf
    obtain ⟨-, -, hbtype, hfixed | ⟨hdynamic, hw, htree, -⟩⟩ := h.tokenLoop hp
    · refine ⟨.huffman .litlenSymbol fixedLitTree, ?_, ?_⟩
      · simp [State.awaitedCode, hp, hbtype, hfixed, hd]
      · rintro _ _ ⟨⟩
        exact fixedLitTree_treeOver
    · refine ⟨.huffman .litlenSymbol s.litTree.val, ?_, ?_⟩
      · simp [State.awaitedCode, hp, hbtype, hdynamic, hd, hw]
      · rintro _ _ ⟨⟩
        exact htree
  | distSymbol =>
    obtain ⟨hp, hd⟩ := phase_of_awaits_dist hf
    obtain ⟨-, -, hbtype, hfixed | ⟨hdynamic, -, -, hw, htree⟩⟩ := h.tokenLoop hp
    · exact ⟨.fixedDist, by simp [State.awaitedCode, hp, hbtype, hfixed, hd], nofun⟩
    · refine ⟨.huffman .distSymbol s.distTree.val, ?_, ?_⟩
      · simp [State.awaitedCode, hp, hbtype, hdynamic, hd, hw]
      · rintro _ _ ⟨⟩
        exact htree

/-- A value that is read has a row in its format, and takes a bit at least (30_encoding.md R301, 10_state.md R124). -/
theorem readCode_ok {k : ValueCode} {bs rest : List Bool} {v : Nat} (hk : FitsAlphabet k)
    (h : readCode k bs = .ok (v, rest)) : v < rowCount (codeFormat k) ∧ rest.length < bs.length := by
  cases k with
  | header =>
    rw [readCode] at h
    split at h
    case isTrue => cases h
    case isFalse hlen =>
      cases h
      have hv := natOfBitsLsb_lt (bs.take 3)
      rw [List.length_take_of_le (Nat.not_lt.mp hlen)] at hv
      refine ⟨hv, ?_⟩
      rw [List.length_drop]
      omega
  | fixedDist =>
    rw [readCode] at h
    split at h
    case isTrue => cases h
    case isFalse hlen =>
      cases h
      have hv := natOfBitsLsb_lt (bs.take 5).reverse
      rw [List.length_reverse, List.length_take_of_le (Nat.not_lt.mp hlen)] at hv
      refine ⟨hv, ?_⟩
      rw [List.length_drop]
      omega
  | huffman f T =>
    obtain ⟨hroot, hbelow⟩ := hk f T rfl
    rw [readCode] at h
    cases hwalk : walk T bs with
    | found x rest' =>
      rw [hwalk] at h
      cases h
      exact ⟨walk_symbol_lt _ T bs v rest hbelow hwalk, ((walk_rest_length T bs).1 v rest hwalk).2 hroot⟩
    | _ =>
      rw [hwalk] at h
      cases h

/-- Bits hold an element of the code, or lead to no code, or end too soon. -/
theorem decodeBits_cases {k : ValueCode} (hk : FitsAlphabet k) (bs : List Bool) :
    (∃ i rest, decodeBits k bs = .ok (i, rest) ∧ formatOf i = codeFormat k ∧ rest.length < bs.length) ∨
    decodeBits k bs = .error .noCode ∨ decodeBits k bs = .error .truncated := by
  cases hread : readCode k bs with
  | ok r =>
    obtain ⟨v, rest⟩ := r
    obtain ⟨hv, hlen⟩ := readCode_ok hk hread
    obtain ⟨i, hi⟩ := exists_decodeValue_iff.mpr hv
    exact .inl ⟨i, rest, decodeBits_of_readCode hread hi, formatOf_decodeValue hi, hlen⟩
  | error e =>
    have hbits : decodeBits k bs = .error e := by rw [decodeBits, hread]
    rw [hbits]
    cases e with
    | noCode => exact .inr (.inl rfl)
    | truncated => exact .inr (.inr rfl)
    | noTableRow f v =>
      exfalso
      cases k <;> rw [readCode] at hread <;> split at hread <;> cases hread

/-! ## Turns -/

theorem pos_afterValue (n : Nat) : (s.afterValue n).pos = s.pos + n := by
  rw [State.afterValue]
  split <;> exact pos_moveTo s _

theorem inv_afterValue {f : Format} {n : Nat} (h : Inv s) (hf : fetchFormat s = some f) (hn : s.hasBits n) :
    Inv (s.afterValue n) ∧ fetchFormat (s.afterValue n) = some f := by
  have hmoved := inv_awaiting_moves f s _ (ahead_moveTo hn) ⟨h, hf⟩
  rw [State.afterValue]
  split
  case isTrue hp =>
    have hheader : f = .blockHdr := by
      rw [fetchFormat, hp] at hf
      cases hf
      rfl
    subst hheader
    exact inv_awaiting_header hmoved
  case isFalse => exact hmoved

/-- A turn leaves a decode that has begun, that has moved on if it still runs, and that has appended no more than 258
bytes for each bit. -/
def Progress (s t : State) : Prop :=
  t.phase ≠ .idle ∧ (t.busy = true → s.pos < t.pos) ∧ t.outLen ≤ s.outLen + 258 * (t.pos - s.pos)

theorem progress_of_error (hphase : t.phase = .error) (houtLen : t.outLen = s.outLen) : Progress s t := by
  refine ⟨by rw [hphase]; exact nofun, fun hbusy => ?_, houtLen.trans_le (Nat.le_add_right _ _)⟩
  rw [State.busy, State.status, hphase] at hbusy
  cases hbusy

/-- The turn that runs an element: its value has taken a bit at least. -/
theorem progress_of_element {i : Instr} {n : Nat} (h : Inv s) (hf : fetchFormat s = some (formatOf i))
    (hn : s.hasBits n) (hpos : 0 < n) :
    (∃ t, exec i (s.afterValue n) = .next t ∧ Progress s t) ∨
    (s.policy = .raw ∧ exec i (s.afterValue n) = .fault .undefinedSourceRead) := by
  obtain ⟨hinv, hf'⟩ := inv_afterValue h hf hn
  have hvalue : (s.afterValue n).outLen = s.outLen ∧ (s.afterValue n).policy = s.policy := by
    rw [State.afterValue]
    split <;> exact ⟨rfl, rfl⟩
  obtain ⟨houtLen, hpolicy⟩ := hvalue
  rcases exec_answers hinv hf' with ⟨t, ht, hout⟩ | ⟨hraw, hfault⟩
  · have hunderway : Underway (s.afterValue n) := by
      constructor <;> intro hp <;> rw [fetchFormat, hp] at hf' <;> cases hf'
    obtain ⟨hbegun, -⟩ := exec_completesAtBlockEnd hunderway ht
    obtain ⟨-, hmoved, -⟩ := exec_keeps (extends_keptBy (s.afterValue n) i) (Extends.refl _) ht
    rw [pos_afterValue] at hmoved hout
    rw [houtLen] at hout
    exact .inl ⟨t, ht, hbegun, fun _ => by omega, by omega⟩
  · exact .inr ⟨hpolicy ▸ hraw, hfault⟩

theorem exists_fetchFormat (h : Inv s) (hbusy : s.busy = true) : ∃ f, fetchFormat s = some f := by
  cases hp : s.phase with
  | blockHeader | dynHeader | tokens => exact ⟨_, by rw [fetchFormat, hp]⟩
  | stored => exact absurd hp h.notStored
  | idle | done | error =>
    rw [State.busy, State.status, hp] at hbusy
    cases hbusy

/-- A turn of a decode makes progress, or is the fault of a read past the end of `SRC` under `RAW`. -/
theorem instanceTurn_progress (h : Inv s) (hbusy : s.busy = true) :
    (∃ t, instanceTurn s = .next t ∧ Progress s t) ∨
    (s.policy = .raw ∧ instanceTurn s = .fault .undefinedSourceRead) := by
  have hin : s.hasBits 0 := h.cursor hbusy
  obtain ⟨f, hf⟩ := exists_fetchFormat h hbusy
  obtain ⟨k, hk, hfits⟩ := exists_awaitedCode h hf
  obtain ⟨hformat, -⟩ := fetch_of_awaitedCode hk
  rcases decodeBits_cases hfits s.bitsLeft with ⟨i, rest, hbits, hi, hlen⟩ | hbits | hbits
  · rw [instanceTurn_of_decodeBits hin hk hbits]
    exact progress_of_element h (hi ▸ hformat) (hasBits_of_le_bitsLeft hin (Nat.sub_le _ _)) (Nat.sub_pos_of_lt hlen)
  · obtain ⟨p, -, -, hturn⟩ := instanceTurn_noCode hin hk hbits
    exact .inl ⟨_, hturn, progress_of_error rfl rfl⟩
  · obtain ⟨hchecked, hraw⟩ := instanceTurn_overrun hin hk hbits
    cases hp : s.policy with
    | checked =>
      obtain ⟨t, ht, hphase, -, -, -, houtLen, -⟩ := hchecked hp
      exact .inl ⟨t, ht, progress_of_error hphase houtLen⟩
    | raw => exact .inr ⟨rfl, hraw hp⟩

/-! ## Runs -/

/-- A decode that has begun, between two of its steps, with no command of the host to come. -/
structure Decoding (s : State) : Prop where
  inv : Inv s
  alone : s.hostCmds = []
  begun : s.phase ≠ .idle
  /-- The cursor stands in `SRC` or at its end, also once the decode has ended. -/
  cursor : s.hasBits 0
  /-- The bits read so far have paid for the output. -/
  output : s.outLen ≤ 258 * s.pos

/-- A `START` begins a decode, whatever it finds (R500). -/
theorem decoding_start (hcmds : s.hostCmds = []) (hsrc : Memory.wf s.src = true) : Decoding s.start where
  inv := Running.inv_between (s := s.start)
    ⟨hsrc, rfl, fun _ _ => rfl, fun _ _ => Nat.zero_le _, Nat.zero_le _, rfl, rfl⟩ (.inl rfl)
  alone := hcmds
  begun := nofun
  cursor := Nat.zero_le _
  output := Nat.zero_le _

theorem step_alone (h : s.hostCmds = []) : step s = instanceTurn s := by
  have hturn : hostTurn s = none := by simp only [hostTurn, h]
  rw [step_of_hostTurn_none hturn, hostTick_of_not_reset (by simp [h])]

/-- A decoder that is not busy keeps its state (60_exceptions.md R829). -/
theorem instanceTurn_not_busy (h : s.busy = false) : instanceTurn s = .next s := by
  cases hp : s.phase with
  | idle | done | error => simp only [instanceTurn, fetchFormat, hp, reduceCtorEq, if_false]
  | blockHeader | dynHeader | tokens | stored =>
    rw [State.busy, State.status, hp] at h
    cases h

theorem Decoding.step (h : Decoding s) (hbusy : s.busy = true) :
    (∃ t, Machine.step s = .next t ∧ Decoding t ∧ t.srcLen = s.srcLen ∧ t.policy = s.policy ∧
      (t.busy = true → s.pos < t.pos)) ∨
    (s.policy = .raw ∧ Machine.step s = .fault .undefinedSourceRead) := by
  rw [step_alone h.alone]
  obtain ⟨t, ht, hbegun, hmoved, hout⟩ | hfault := instanceTurn_progress h.inv hbusy
  case inr => exact .inr hfault
  obtain ⟨⟨-, hsrcLen, hpolicy, -⟩, hpos, -⟩ := instanceTurn_keeps (extends_keptBy s) (Extends.refl s) ht
  refine .inl ⟨t, ht, ⟨instanceTurn_inv h.inv ht, ?alone, hbegun, ?cursor, ?output⟩, hsrcLen, hpolicy, hmoved⟩
  case alone => exact instanceTurn_keeps (P := fun u => u.hostCmds = []) (fun _ => {}) h.alone ht
  case cursor =>
    exact instanceTurn_keeps (P := fun u => u.hasBits 0) (fun _ => { moves := hasBits_moves }) h.cursor ht
  case output =>
    have := h.output
    omega

theorem run_of_next {k : Nat} (h : step s = .next t) :
    Host.Core.run Sys2Proof.core (k + 1) s = Host.Core.run Sys2Proof.core k t := by
  have hcore : Sys2Proof.core.step s = .next t := h
  simp only [Host.Core.run, hcore]

theorem run_of_fault {k : Nat} {x : Fault} (h : step s = .fault x) :
    Host.Core.run Sys2Proof.core (k + 1) s = .fault x := by
  have hcore : Sys2Proof.core.step s = .fault x := h
  simp only [Host.Core.run, hcore]

/-- A decode ends within as many steps as there are bits left, and one more: each step but the last takes a bit. -/
theorem Decoding.run_ends (k : Nat) (h : Decoding s) (hk : s.busy = true → 8 * s.srcLen < s.pos + k) :
    (∃ t, Host.Core.run Sys2Proof.core k s = .next t ∧ Decoding t ∧ t.busy = false ∧ t.srcLen = s.srcLen) ∨
    (s.policy = .raw ∧ Host.Core.run Sys2Proof.core k s = .fault .undefinedSourceRead) := by
  induction k generalizing s with
  | zero =>
    refine .inl ⟨s, rfl, h, Bool.eq_false_iff.mpr fun hbusy => ?_, rfl⟩
    exact absurd h.cursor (Nat.not_le.mpr (hk hbusy))
  | succ k ih =>
    cases hbusy : s.busy with
    | false =>
      have hstay : Machine.step s = .next s := by rw [step_alone h.alone, instanceTurn_not_busy hbusy]
      rw [run_of_next hstay]
      exact ih h fun hb => absurd (hbusy.symm.trans hb) nofun
    | true =>
      obtain ⟨t, hstep, ht, hsrcLen, hpolicy, hmoved⟩ | ⟨hraw, hfault⟩ := h.step hbusy
      · have hk' : t.busy = true → 8 * t.srcLen < t.pos + k := fun hb => by
          have := hmoved hb
          have := hk hbusy
          omega
        rw [run_of_next hstep, ← hsrcLen, ← hpolicy]
        exact ih ht hk'
      · exact .inr ⟨hraw, run_of_fault hfault⟩

/-- A decode that has begun and is not busy has completed or failed (10_state.md R110). -/
theorem Decoding.status (h : Decoding s) (hbusy : s.busy = false) : s.status = .doneOk ∨ s.status = .doneErr := by
  rw [State.status]
  cases hp : s.phase with
  | done => exact .inl rfl
  | error => exact .inr rfl
  | idle => exact absurd hp h.begun
  | blockHeader | dynHeader | tokens | stored =>
    rw [State.busy, State.status, hp] at hbusy
    cases hbusy

end

end Sys2Proof.Machine

open Sys2Proof.Machine

/-- Settles O58: a step of a decode takes a bit of `SRC` or ends it, so one more step than there are bits ends it. -/
theorem everyDecodeEnds : Obligations.EveryDecodeEnds := by
  intro s hcmds hsrc
  have hk : s.start.busy = true → 8 * s.start.srcLen < s.start.pos + (8 * s.srcLen + 1) := fun _ =>
    Nat.lt_of_lt_of_le (Nat.lt_succ_self _) (Nat.le_add_left _ _)
  obtain ⟨t, hrun, ht, hbusy, hsrcLen⟩ | hfault := (decoding_start hcmds hsrc).run_ends _ hk
  · refine .inl ⟨t, hrun, ht.status hbusy, ?_⟩
    have hcursor := ht.cursor
    have hout := ht.output
    simp only [State.hasBits] at hcursor
    have hsrcLen' : t.srcLen = s.srcLen := hsrcLen
    omega
  · exact .inr hfault
end

section
/-! PROOFS. The elements of the token loop: a literal, a length code, a distance code with every way its copy can end,
and what they and a stored block write, byte by byte. -/

namespace Sys2Proof.Machine

section
variable {s : State} {row : Instr × Nat × Nat × Nat}

/-! ## Length codes (43_token_loop.md R553) -/

theorem lengthCode_eq (hrow : row ∈ lengthRows) (hbits : s.hasBits row.2.2.1) :
    lengthCode row.2.1 s = .ok () { s.moveTo (s.pos + row.2.2.1) with
      sym := wrote (BitVec.ofNat 9 row.2.1)
      matchLen := wrote (BitVec.ofNat 9 (row.2.2.2 + s.field s.pos row.2.2.1))
      distPending := true } := by
  have hread : readMatchLength row.2.1 (s.withSym (BitVec.ofNat 9 row.2.1)) =
      .ok (row.2.2.2 + s.field s.pos row.2.2.1)
        ((s.withSym (BitVec.ofNat 9 row.2.1)).moveTo (s.pos + row.2.2.1)) := by
    rw [readMatchLength, lengthEntry_lengthRow row hrow]
    exact readBasePlus_eq _ _ hbits
  rw [lengthCode, hread]
  rfl

/-! ## The copy of a match (43_token_loop.md R617 to R621) -/

@[simp] theorem distanceRead_matchLen : (s.distanceRead row).matchLen = s.matchLen := rfl
@[simp] theorem matchBegun_outCapacity : (s.matchBegun row).outCapacity = s.outCapacity := by
  rw [State.matchBegun, State.distanceRead, moveTo_outCapacity, withDsym_outCapacity]
@[simp] theorem matchBegun_out : (s.matchBegun row).out = s.out := by
  rw [State.matchBegun, State.distanceRead, moveTo_out, withDsym_out]
@[simp] theorem matchBegun_outLen : (s.matchBegun row).outLen = s.outLen := by
  rw [State.matchBegun, State.distanceRead, moveTo_outLen, withDsym_outLen]

@[simp] theorem hasRoom_matchBegun {n : Nat} : (s.matchBegun row).hasRoom n ↔ s.hasRoom n := by
  simp only [State.hasRoom, matchBegun_outCapacity, matchBegun_outLen]

@[simp] theorem matchBytes_matchBegun (dist n : Nat) : (s.matchBegun row).matchBytes dist n = s.matchBytes dist n := by
  simp only [State.matchBytes, matchBegun_out, matchBegun_outLen]

/-- A distance code whose distance is in reach is the copy of its match. -/
theorem exec_distRow_inReach (hrow : row ∈ distRows) (hbits : s.hasBits row.2.2.1)
    (hw : s.matchLen.written = true) (hreach : row.2.2.2 + s.field s.pos row.2.2.1 ≤ s.outLen) :
    exec row.1 s =
      ((copyMatchLoop (row.2.2.2 + s.field s.pos row.2.2.1) s.matchLen.val.toNat (s.matchBegun row)).bind
        fun _ t => .ok () { t with distPending := false }).outcome := by
  have hcopy : copyMatch (s.distanceRead row) =
      copyMatchLoop (row.2.2.2 + s.field s.pos row.2.2.1) s.matchLen.val.toNat (s.matchBegun row) := by
    rw [copyMatch, distanceRead_matchLen, readReg_eq hw, bind_ok, readReg_eq rfl, bind_ok, toNat_distanceRead hrow,
      State.matchBegun]
  rw [exec_distRow row hrow, distanceCode_inReach hrow hbits hreach, hcopy]

/-- All bytes are copied: where `MATCH_LEN` is 0 as well, none is left. -/
theorem matchCopied_matchBegun (dist : Nat) :
    matchCopied (s.matchBegun row) dist s.matchLen.val.toNat s.matchLen.val.toNat =
      { (s.append (s.matchBytes dist s.matchLen.val.toNat)).moveTo (s.pos + row.2.2.1) with
        dsym := wrote (BitVec.ofNat 5 row.2.1)
        matchDist := wrote (BitVec.ofNat 16 (row.2.2.2 + s.field s.pos row.2.2.1)), copyRemain := wrote 0 } := by
  have hremain : (if s.matchLen.val.toNat = 0 then (s.matchBegun row).copyRemain
      else wrote (BitVec.ofNat 9 (s.matchLen.val.toNat - s.matchLen.val.toNat))) = wrote 0 := by
    split
    · exact congrArg wrote (BitVec.eq_of_toNat_eq ‹_›)
    · rw [Nat.sub_self]
      rfl
  rw [matchCopied, hremain, matchBytes_matchBegun, State.matchBegun, State.distanceRead]
  rfl

/-- A copy that completes had room for all its bytes. -/
theorem hasRoom_of_copyMatchLoop_ok {dist n : Nat} (hroom : s.hasRoom 0)
    (h : copyMatchLoop dist n s = .ok () (matchCopied s dist n n)) : s.hasRoom n := by
  have hends := copyMatchLoop_ends hasRoom_appends (fun _ _ ht => ht) dist n hroom
  rw [h] at hends
  cases hends with
  | ok hfits =>
    intro c hc
    have := hfits c hc
    rwa [outLen_matchCopied] at this

/-- A match that does not fit is copied until the output is full (R621). -/
theorem copyMatchLoop_full {dist n : Nat} (hwf : Memory.wf s.out = true) (hd : 1 ≤ dist) (hreach : dist ≤ s.outLen)
    (hroom : s.hasRoom 0) (h : ¬ s.hasRoom n) :
    ∃ t, copyMatchLoop dist n s = .raise .capacityExceeded .none t ∧ s.outCapacity = some t.outLen := by
  obtain hok | ⟨j, -, hfull, hraise⟩ := copyMatchLoop_cases dist n s hwf hd hreach
  · exact absurd (hasRoom_of_copyMatchLoop_ok hroom hok) h
  · exact ⟨_, hraise, eq_of_beq hfull⟩

/-! ## Appended bytes (20_memory.md R210, R212) -/

theorem read_append_new {bs : List Byte} {n k : Nat} (hwf : Memory.wf s.out = true) (hn : bs.length = n) (hk : k < n) :
    Memory.read (s.append bs).out (s.outLen + k) = bs.getD k 0 :=
  read_writeBytes s.out s.outLen k bs hwf (hk.trans_eq hn.symm)

theorem read_append_other {bs : List Byte} {n a : Nat} (hn : bs.length = n)
    (ha : a < s.outLen ∨ s.outLen + n ≤ a) : Memory.read (s.append bs).out a = Memory.read s.out a := by
  subst hn
  exact read_writeBytes_other s.out s.outLen a bs ha

theorem srcBytes_getD (i : Nat) {n k : Nat} (h : k < n) : (s.srcBytes i n).getD k 0 = Memory.read s.src (i + k) := by
  simp [State.srcBytes, h]

theorem read_append_srcBytes (hwf : Memory.wf s.out = true) (i : Nat) {n k : Nat} (hk : k < n) :
    Memory.read (s.append (s.srcBytes i n)).out (s.outLen + k) = Memory.read s.src (i + k) :=
  (read_append_new hwf (length_srcBytes s i n) hk).trans (srcBytes_getD i hk)

theorem read_append_matchBytes (hwf : Memory.wf s.out = true) (dist : Nat) {n k : Nat} (hk : k < n) :
    Memory.read (s.append (s.matchBytes dist n)).out (s.outLen + k) =
      Memory.read s.out (s.outLen - dist + k % dist) :=
  (read_append_new hwf (length_matchBytes s dist n) hk).trans (matchBytes_getD s dist n k hk)

@[simp] theorem endBlock_out : s.endBlock.out = s.out := by
  rw [State.endBlock]
  split <;> rfl

@[simp] theorem endBlock_src : s.endBlock.src = s.src := by
  rw [State.endBlock]
  split <;> rfl

end

end Sys2Proof.Machine

open Sys2Proof.Machine

/-- Settles O34: the extra bits are there, so the table's entry and their field give the length. -/
theorem lengthCodesReadTheirLengths : Obligations.LengthCodesReadTheirLengths := by
  intro row hrow s hbits
  rw [exec_lengthRow row hrow, lengthCode_eq hrow hbits, outcome_ok]

/-- Settles O36: the distance is in reach and the match fits, so its copy completes. -/
theorem distanceCodesCopyTheirMatch : Obligations.DistanceCodesCopyTheirMatch := by
  intro row hrow s d n hbits hw hreach hroom hwf
  have hd : 1 ≤ d := Nat.le_add_right_of_le (distRow_pos row hrow)
  have hcopy : copyMatchLoop d n (s.matchBegun row) = .ok () (matchCopied (s.matchBegun row) d n n) :=
    copyMatchLoop_eq d n _ (by rwa [matchBegun_out]) hd (by rwa [matchBegun_outLen]) (hasRoom_matchBegun.mpr hroom)
  rw [exec_distRow_inReach hrow hbits hw hreach, hcopy, bind_ok, outcome_ok, matchCopied_matchBegun]

/-- Settles O37: the appended bytes are those of `matchBytes`, read back where they are written. -/
theorem matchRepeatsTheLastBytes : Obligations.MatchRepeatsTheLastBytes := by
  intro row hrow s d n hbits hw hreach hroom hwf
  have hlen : (s.matchBytes d n).length = n := length_matchBytes s d n
  refine ⟨_, distanceCodesCopyTheirMatch row hrow s hbits hw hreach hroom hwf, ?_, fun k hk => ?_, fun a ha => ?_,
    fun a => ?_⟩
  · simp only [moveTo_outLen, append_outLen, length_matchBytes, n]
  · simp only [moveTo_out]
    exact read_append_matchBytes hwf _ hk
  · simp only [moveTo_out]
    exact read_append_other hlen ha
  · simp only [moveTo_src, append_src]

/-- Settles O38: the check of the distance comes after its extra bits and before the copy. -/
theorem distanceTooFarIsCorruption : Obligations.DistanceTooFarIsCorruption := by
  intro row hrow s d hbits hfar
  rw [exec_distRow row hrow, distanceCode_tooFar hrow hbits hfar]
  rfl

/-- Settles O39: the copy ends in the error of a full output, and in the phase `ERROR` no output is readable. -/
theorem copyThatDoesNotFitRaises : Obligations.CopyThatDoesNotFitRaises := by
  intro row hrow s d n hbits hw hreach hroom hfit hwf
  have hd : 1 ≤ d := Nat.le_add_right_of_le (distRow_pos row hrow)
  obtain ⟨t, hcopy, hfull⟩ := copyMatchLoop_full (s := s.matchBegun row) (by rwa [matchBegun_out]) hd
    (by rwa [matchBegun_outLen]) (hasRoom_matchBegun.mpr hroom) (mt hasRoom_matchBegun.mp hfit)
  rw [matchBegun_outCapacity] at hfull
  rw [exec_distRow_inReach hrow hbits hw hreach, hcopy, bind_raise, outcome_raise]
  exact ⟨_, rfl, rfl, rfl, rfl, hfull, rfl⟩

/-- Settles O32: the symbol's byte is appended where the output is not full. -/
theorem literalAppendsItsByte : Obligations.LiteralAppendsItsByte := by
  intro sym s _
  rw [exec, execLit, ← BitVec.ofNat_toNat]
  obtain ⟨hroom, happend⟩ | ⟨hfull, happend⟩ := outAppend_cases (BitVec.ofNat 8 sym.toNat) (s.withSym sym)
  · have hne : s.outCapacity ≠ some s.outLen := ne_of_beq_false hroom
    rw [happend]
    exact ⟨fun _ => rfl, fun heq => absurd heq hne⟩
  · have heq : s.outCapacity = some s.outLen := eq_of_beq hfull
    rw [happend]
    exact ⟨fun hne => absurd heq hne, fun _ => rfl⟩

/-- Settles O35: the errors are raised from the symbol alone. -/
theorem invalidSymbolsAreCorruption : Obligations.InvalidSymbolsAreCorruption :=
  ⟨fun _ _ _ => rfl, fun _ _ _ => rfl⟩

/-- Settles O46: what the two elements append is read back where it is written, and nowhere else. -/
theorem storedBytesAndNoOthersAreWritten : Obligations.StoredBytesAndNoOthersAreWritten := by
  refine ⟨fun sym s hsym hroom hwf => ?literal, ?stored⟩
  case literal =>
    have hlt : sym.toNat < 256 := of_decide_eq_true hsym
    refine ⟨_, (literalAppendsItsByte sym s hsym).1 hroom, rfl, ?_, fun a ha => ?_, fun _ => rfl⟩
    · exact (congrArg BitVec.toNat (read_write_same s.out 0 s.outLen _ hwf)).trans
        (by rw [BitVec.toNat_ofNat, Nat.mod_eq_of_lt hlt])
    · exact read_write_other s.out s.outLen a _ ha
  case stored =>
    intro bfinal s p len hbits hlens hroom hwf
    have hlen : (s.srcBytes (p / 8 + 4) len).length = len := length_srcBytes s _ len
    refine ⟨_, storedBlockCopiesItsBytes bfinal s hbits hlens hroom, ?_, fun k hk => ?_, fun a ha => ?_, fun a => ?_⟩
    · simp only [endBlock_outLen, moveTo_outLen, append_outLen, length_srcBytes, len, p]
    · simp only [endBlock_out, moveTo_out]
      exact read_append_srcBytes hwf _ hk
    · simp only [endBlock_out, moveTo_out]
      exact read_append_other hlen ha
    · simp only [endBlock_src, moveTo_src, append_src]
end

section
/-! PROOFS. The dynamic header: a code-length element whose extra bits are there is the run it appends, which is
refused, leaves lengths to come, or completes them and with them both trees; and the errors of the header's own fields. -/

namespace Sys2Proof.Machine

section
variable {s : State} {v : BitVec 4} {n : Nat}

/-! ## The run of a code-length element (44_dynamic_header.md R710) -/

/-- The state once a run of `n` lengths `v` is appended. -/
def State.withRun (s : State) (v : BitVec 4) (n : Nat) : State :=
  { s with lengths := wrote (s.lengths.val ++ List.replicate n v) }

theorem expanding.withRun (h : expanding s) (v : BitVec 4) (n : Nat) : expanding (s.withRun v n) := ⟨rfl, h.2⟩

theorem length_withRun : (s.withRun v n).lengths.val.length = s.lengths.val.length + n := by
  rw [State.withRun, wrote_val, List.length_append, List.length_replicate]

theorem clRun_pastTheEnd (h : expanding s)
    (hlen : s.hlit.val.toNat + s.hdist.val.toNat < s.lengths.val.length + n) :
    clRun v n s = .raise .dataCorruption .codeLengthOverrun s := by
  rw [clRun, appendLengths_eq h, if_pos hlen, bind_raise]

/-- A run that fits is appended, and then the loop of the header is tested (R700). -/
theorem clRun_fits (h : expanding s)
    (hlen : s.lengths.val.length + n ≤ s.hlit.val.toNat + s.hdist.val.toNat) :
    clRun v n s =
      if s.lengths.val.length + n < s.hlit.val.toNat + s.hdist.val.toNat then .ok () (s.withRun v n)
      else splitAndBuild (s.withRun v n) := by
  rw [clRun, appendLengths_eq h, if_neg (Nat.not_lt.mpr hlen), bind_ok]
  exact (endOfClElement_eq (h.withRun v n)).trans (by rw [length_withRun]; rfl)

/-! ## The two trees (44_dynamic_header.md R711, R712) -/

/-- Of complete code lengths, those past the first `HLIT` are the `HDIST` of the distance tree. -/
theorem take_drop_of_complete {L : List (BitVec 4)} {a b : Nat} (hlen : L.length = a + b) :
    ((L.map BitVec.toNat).drop a).take b = (L.map BitVec.toNat).drop a :=
  List.take_of_length_le (by rw [List.length_drop, List.length_map]; omega)

theorem splitAndBuild_oversubscribed (h : expanding s)
    (hlen : s.lengths.val.length = s.hlit.val.toNat + s.hdist.val.toNat)
    (hover : oversubscribed (countLengths ((s.lengths.val.map BitVec.toNat).take s.hlit.val.toNat)) = true ∨
      oversubscribed (countLengths ((s.lengths.val.map BitVec.toNat).drop s.hlit.val.toNat)) = true) :
    ∃ t, splitAndBuild s = .raise .dataCorruption .oversubscribedCode t ∧ t.lengths = s.lengths ∧ t.out = s.out ∧
      t.outLen = s.outLen := by
  rw [splitAndBuild_eq h, take_drop_of_complete hlen]
  split
  case isTrue => exact ⟨_, rfl, rfl, rfl, rfl⟩
  case isFalse hlit =>
    rw [if_pos (hover.resolve_left hlit)]
    exact ⟨_, rfl, rfl, rfl, rfl⟩

theorem splitAndBuild_built (h : expanding s)
    (hlen : s.lengths.val.length = s.hlit.val.toNat + s.hdist.val.toNat)
    (hlit : oversubscribed (countLengths ((s.lengths.val.map BitVec.toNat).take s.hlit.val.toNat)) = false)
    (hdist : oversubscribed (countLengths ((s.lengths.val.map BitVec.toNat).drop s.hlit.val.toNat)) = false) :
    splitAndBuild s = .ok () (s.treesBuilt s.lengths.val) := by
  rw [splitAndBuild_eq h, take_drop_of_complete hlen, if_neg (Bool.eq_false_iff.mp hlit),
    if_neg (Bool.eq_false_iff.mp hdist)]

/-- Complete code lengths are split in two: no length is left over (R712). -/
theorem treesBuilt_of_complete {L : List (BitVec 4)} (hlen : L.length = s.hlit.val.toNat + s.hdist.val.toNat) :
    let lit := (L.map BitVec.toNat).take s.hlit.val.toNat
    let dist := (L.map BitVec.toNat).drop s.hlit.val.toNat
    s.treesBuilt L = { s with
      lengths := wrote L, litTree := wrote (canonicalTree lit), distTree := wrote (canonicalTree dist)
      blCount := unwritten (countLengths dist)
      nextCode := unwritten (assignCodes dist (firstCodes (countLengths dist))).2
      phase := .tokens, distPending := false } := by
  rw [State.treesBuilt, take_drop_of_complete hlen]

/-! ## Code-length elements (44_dynamic_header.md R706 to R709) -/

section
variable {i : Instr} {e : Nat}

theorem exec_runToCome (hrun : clRunOf i s = some (e, v, n)) (hbits : s.hasBits e) (h : expanding s)
    (hlen : s.lengths.val.length + n < s.hlit.val.toNat + s.hdist.val.toNat) :
    exec i s = .next ((s.moveTo (s.pos + e)).withRun v n) := by
  have hmoved : expanding (s.moveTo (s.pos + e)) := h
  rw [exec_of_clRunOf hrun hbits fun _ => h.1, clRun_fits hmoved (Nat.le_of_lt hlen), if_pos (by exact hlen),
    outcome_ok]

theorem exec_runCompletes (hrun : clRunOf i s = some (e, v, n)) (hbits : s.hasBits e) (h : expanding s)
    (hlen : (s.lengths.val ++ List.replicate n v).length = s.hlit.val.toNat + s.hdist.val.toNat) :
    exec i s = (splitAndBuild ((s.moveTo (s.pos + e)).withRun v n)).outcome := by
  have hmoved : expanding (s.moveTo (s.pos + e)) := h
  rw [List.length_append, List.length_replicate] at hlen
  rw [exec_of_clRunOf hrun hbits fun _ => h.1, clRun_fits hmoved (Nat.le_of_eq hlen),
    if_neg (by exact Nat.not_lt.mpr (Nat.le_of_eq hlen.symm))]

end

theorem clRep16_first (hw : s.lengths.written = true) (hempty : s.lengths.val = []) :
    clRep16 s = .raise .dataCorruption .repeatWithoutPrevious s := by
  rw [clRep16, readReg_eq hw, bind_ok, hempty]
  rfl

end

end Sys2Proof.Machine

open Sys2Proof.Machine

/-- Settles O31: once the header's fields are read, the build of the code-length tree is all that can fail. -/
theorem dynamicHeaderErrors : Obligations.DynamicHeaderErrors := by
  intro bfinal s hin p hclen
  refine ⟨fun hbits hover => ?oversubscribed, fun hshort => ?overrun⟩
  case oversubscribed =>
    rw [exec, execBlkDynamic, blkDynamic_cllRead bfinal hbits, buildClTree_eq rfl, if_pos (by exact hover)]
    exact ⟨_, rfl, rfl, rfl, rfl, rfl, rfl⟩
  case overrun =>
    have hcut : ¬ s.hasBits (14 + 3 * hclen) := hshort.elim (mt fun h => hasBits_mono h (Nat.le_add_right _ _)) id
    obtain ⟨hchecked, hraw⟩ := (blkDynamic_overruns bfinal hin hcut).outcome
    refine ⟨fun hp => ?_, hraw⟩
    obtain ⟨t, ht, hphase, hkind, hcause, hout, houtLen, -⟩ := hchecked hp
    exact ⟨t, ht, hphase, hkind, hcause, hout, houtLen⟩

/-- Settles O41: the run fits, and the loop of the header goes on. -/
theorem codeLengthRunsAppend : Obligations.CodeLengthRunsAppend :=
  fun _ _ _ _ _ _ hrun hbits hlengths hhlit hhdist hlen => exec_runToCome hrun hbits ⟨hlengths, hhlit, hhdist⟩ hlen

/-- Settles O42: the run completes the lengths, and neither of their two parts is over-subscribed. -/
theorem lastCodeLengthBuildsBothTrees : Obligations.LastCodeLengthBuildsBothTrees := by
  intro i s e n v _ hrun hbits hlengths hhlit hhdist L lit dist hlen hlit hdist
  have h : expanding s := ⟨hlengths, hhlit, hhdist⟩
  have hrunAppended : expanding ((s.moveTo (s.pos + e)).withRun v n) := expanding.withRun (by exact h) v n
  rw [exec_runCompletes hrun hbits h hlen, splitAndBuild_built hrunAppended hlen hlit hdist, outcome_ok,
    treesBuilt_of_complete (by exact hlen)]
  rfl

/-- Settles O43: the run completes the lengths and is appended before either tree is built. -/
theorem overSubscribedTreesAreCorruption : Obligations.OverSubscribedTreesAreCorruption := by
  intro i s e n v _ hrun hbits hlengths hhlit hhdist L hlen hover
  have h : expanding s := ⟨hlengths, hhlit, hhdist⟩
  have hrunAppended : expanding ((s.moveTo (s.pos + e)).withRun v n) := expanding.withRun (by exact h) v n
  obtain ⟨t, hraise, htlengths, hout, houtLen⟩ := splitAndBuild_oversubscribed hrunAppended hlen hover
  rw [exec_runCompletes hrun hbits h hlen, hraise, outcome_raise]
  exact ⟨_, rfl, rfl, rfl, rfl, htlengths, hout, houtLen⟩

/-- Settles O44: the check of the run's end comes after its extra bits and before anything is appended. -/
theorem runPastTheEndIsCorruption : Obligations.RunPastTheEndIsCorruption := by
  intro i s e n v _ hrun hbits hlengths hhlit hhdist hlen
  have hmoved : expanding (s.moveTo (s.pos + e)) := ⟨hlengths, hhlit, hhdist⟩
  rw [exec_of_clRunOf hrun hbits fun _ => hlengths, clRun_pastTheEnd hmoved hlen, outcome_raise]
  rfl

/-- Settles O45: the last of the code lengths so far is asked for before the extra bits, and there is none. -/
theorem repeatWithoutPreviousIsCorruption : Obligations.RepeatWithoutPreviousIsCorruption := by
  intro s hw hempty
  rw [exec, execClRep16, clRep16_first hw hempty]
  rfl
end

section
/-! PROOFS. The steps that can be taken: an instance that is not busy keeps its state, and from a state of the invariant
a turn answers or overruns `SRC` under `RAW`. -/

open Sys2Proof.Machine

/-- Settles O6: no command takes effect, and the instance's own turn awaits no element. -/
theorem idleInstanceKeepsItsState : Obligations.IdleInstanceKeepsItsState := by
  intro s hcmds hidle
  have hbusy : s.busy = false := Bool.eq_false_iff.mpr (mt busy_iff.mp hidle)
  rw [step_alone hcmds, instanceTurn_not_busy hbusy]

/-- Settles O55: a command of the host answers, and so does the turn of an instance that is not busy; the turn of a
decode makes progress, or is the one fault left. -/
theorem onlyTheRawReadFaults : Obligations.OnlyTheRawReadFaults := by
  intro s h
  cases hturn : hostTurn s with
  | some t => exact .inl ⟨t, step_of_hostTurn_some hturn⟩
  | none =>
    rw [step_of_hostTurn_none hturn, hostTick_eq]
    have hinv := h.withHostCmds s.hostTick.hostCmds
    cases hbusy : s.busy with
    | false => exact .inl ⟨_, instanceTurn_not_busy (by exact hbusy)⟩
    | true =>
      obtain ⟨t, ht, -⟩ | hfault := instanceTurn_progress hinv hbusy
      · exact .inl ⟨t, ht⟩
      · exact .inr hfault
end

section
/-! PROOFS. Two decodes side by side, under one policy (60_exceptions.md R824) or one under `CHECKED` and the other under
`RAW` (R825): from two states that no rule tells apart every operation ends alike, until `SRC` does. -/

namespace Sys2Proof.Machine

/-! ## Agreeing states -/

/-- The two registers read alike: both are unwritten, or both are written with one value. Where `exact` holds they are
equal, read or not. -/
def RegsAgree {α : Type} (exact : Prop) (r r' : Reg α) : Prop :=
  r.written = r'.written ∧ (exact ∨ r.written = true → r.val = r'.val)

theorem RegsAgree.refl {α : Type} {exact : Prop} (r : Reg α) : RegsAgree exact r r := ⟨rfl, fun _ => rfl⟩

theorem RegsAgree.eq {α : Type} {exact : Prop} {r r' : Reg α} (h : RegsAgree exact r r') (hexact : exact) : r = r' := by
  obtain ⟨v, w⟩ := r
  obtain ⟨rfl, hval⟩ := h
  cases hval (.inl hexact)
  rfl

/-- `START` leaves no register that can be read (10_state.md R128). -/
theorem forgetReg_agrees {α : Type} {exact : Prop} (hexact : ¬ exact) (r r' : Reg α) :
    RegsAgree exact (forgetReg r) (forgetReg r') :=
  ⟨rfl, fun h => h.elim (absurd · hexact) nofun⟩

/-- Two states of a decode, under the policy `p` in the one and `q` in the other, with no command of the host to come.
Under one policy they agree in all that a rule or the host can read; under two they agree in all but the policy. The
clauses with a proof of their own are those of a part that both states hold the same value in. -/
structure Agree (p q : Policy) (s t : State) : Prop where
  policies : p ≠ q → p = .checked ∧ q = .raw
  policy : s.policy = p
  policy' : t.policy = q
  alone : s.hostCmds = []
  alone' : t.hostCmds = []
  /-- Under two policies they agree only until the end of `SRC`. -/
  inSource : p ≠ q → s.errKind ≠ .outOfRange
  /-- `FINAL_POS` is read at `DONE_OK` alone (10_state.md R108). -/
  finalPos : p ≠ q ∨ s.phase = .done → s.finalPos = t.finalPos
  src : s.src = t.src := by rfl
  srcLen : s.srcLen = t.srcLen := by rfl
  outCapacity : s.outCapacity = t.outCapacity := by rfl
  phase : s.phase = t.phase := by rfl
  errKind : s.errKind = t.errKind := by rfl
  errCause : s.errCause = t.errCause := by rfl
  byteIdx : s.byteIdx = t.byteIdx := by rfl
  bitIdx : s.bitIdx = t.bitIdx := by rfl
  bfinal : RegsAgree (p ≠ q) s.bfinal t.bfinal := by exact .refl _
  btype : RegsAgree (p ≠ q) s.btype t.btype := by exact .refl _
  len : RegsAgree (p ≠ q) s.len t.len := by exact .refl _
  nlen : RegsAgree (p ≠ q) s.nlen t.nlen := by exact .refl _
  remain : RegsAgree (p ≠ q) s.remain t.remain := by exact .refl _
  hlit : RegsAgree (p ≠ q) s.hlit t.hlit := by exact .refl _
  hdist : RegsAgree (p ≠ q) s.hdist t.hdist := by exact .refl _
  hclen : RegsAgree (p ≠ q) s.hclen t.hclen := by exact .refl _
  cll : RegsAgree (p ≠ q) s.cll t.cll := by exact .refl _
  lengths : RegsAgree (p ≠ q) s.lengths t.lengths := by exact .refl _
  clTree : RegsAgree (p ≠ q) s.clTree t.clTree := by exact .refl _
  litTree : RegsAgree (p ≠ q) s.litTree t.litTree := by exact .refl _
  distTree : RegsAgree (p ≠ q) s.distTree t.distTree := by exact .refl _
  blCount : RegsAgree (p ≠ q) s.blCount t.blCount := by exact .refl _
  nextCode : RegsAgree (p ≠ q) s.nextCode t.nextCode := by exact .refl _
  sym : RegsAgree (p ≠ q) s.sym t.sym := by exact .refl _
  dsym : RegsAgree (p ≠ q) s.dsym t.dsym := by exact .refl _
  matchLen : RegsAgree (p ≠ q) s.matchLen t.matchLen := by exact .refl _
  matchDist : RegsAgree (p ≠ q) s.matchDist t.matchDist := by exact .refl _
  copyRemain : RegsAgree (p ≠ q) s.copyRemain t.copyRemain := by exact .refl _
  distPending : s.distPending = t.distPending := by rfl
  out : s.out = t.out := by rfl
  outLen : s.outLen = t.outLen := by rfl

/-- The two operations end alike, in agreeing states; or the one under `CHECKED` raises `OutOfRange` where the one under
`RAW` is the fault of a read past the end of `SRC` (40_bit_cursor.md R406). -/
inductive Res.Agree {α : Type} (p q : Policy) : Res α → Res α → Prop where
  | ok {a s t} (h : Machine.Agree p q s t) : Res.Agree p q (.ok a s) (.ok a t)
  | raise {k c s t} (h : Machine.Agree p q s t) (hk : p ≠ q → k ≠ .outOfRange) :
    Res.Agree p q (.raise k c s) (.raise k c t)
  | fault {x} : Res.Agree p q (.fault x) (.fault x)
  | overrun {s : State} (hpq : p ≠ q) (halone : s.hostCmds = []) :
    Res.Agree p q (.raise .outOfRange .none s) (.fault .undefinedSourceRead)

/-- The same of two outcomes, of which the one under `CHECKED` is then the end of its decode. -/
inductive OutcomesAgree (p q : Policy) :
    Host.Outcome State Fault Refusal → Host.Outcome State Fault Refusal → Prop where
  | next {s t} (h : Agree p q s t) : OutcomesAgree p q (.next s) (.next t)
  | fault {x} : OutcomesAgree p q (.fault x) (.fault x)
  | refused {r} : OutcomesAgree p q (.refused r) (.refused r)
  | overrun {s : State} (hpq : p ≠ q) (halone : s.hostCmds = []) :
    OutcomesAgree p q (.next (s.abort .outOfRange .none)) (.fault .undefinedSourceRead)

section
variable {α β : Type} {p q : Policy} {s t : State}

/-- What follows two operations that end alike need only be compared from agreeing states. -/
theorem Res.Agree.bind {r r' : Res α} {f g : α → State → Res β} (h : r.Agree p q r')
    (hf : ∀ a s t, Machine.Agree p q s t → (f a s).Agree p q (g a t)) : (r.bind f).Agree p q (r'.bind g) := by
  cases h with
  | ok h => exact hf _ _ _ h
  | raise h hk => exact .raise h hk
  | fault => exact .fault
  | overrun hpq halone => exact .overrun hpq halone

theorem Agree.abort (h : Agree p q s t) {k : ErrKind} (c : ErrCause) (hk : p ≠ q → k ≠ .outOfRange) :
    Agree p q (s.abort k c) (t.abort k c) :=
  { h with
    phase := rfl, errKind := rfl, errCause := rfl, inSource := hk
    finalPos := fun hpos => h.finalPos (hpos.imp_right nofun) }

theorem Res.Agree.outcome {r r' : Res Unit} (h : r.Agree p q r') : OutcomesAgree p q r.outcome r'.outcome := by
  cases h with
  | ok h => exact .next h
  | raise h hk => exact .next (h.abort _ hk)
  | fault => exact .fault
  | overrun hpq halone => exact .overrun hpq halone

theorem readReg_agrees {r r' : Reg α} (h : Agree p q s t) (hr : RegsAgree (p ≠ q) r r') :
    (readReg r s).Agree p q (readReg r' t) := by
  obtain ⟨hw', hval⟩ := hr
  cases hw : r.written with
  | false =>
    rw [readReg_unwritten hw, readReg_unwritten (hw'.symm.trans hw)]
    exact .fault
  | true =>
    rw [readReg_eq hw, readReg_eq (hw'.symm.trans hw), hval (.inr hw)]
    exact .ok h

/-! ## The cursor (40_bit_cursor.md) -/

theorem Agree.pos (h : Agree p q s t) : s.pos = t.pos := pos_congr h.byteIdx h.bitIdx

theorem Agree.moveTo (h : Agree p q s t) (n : Nat) : Agree p q (s.moveTo n) (t.moveTo n) :=
  { h with byteIdx := rfl, bitIdx := rfl }

theorem Agree.hasBits (h : Agree p q s t) (n : Nat) : s.hasBits n ↔ t.hasBits n := by
  rw [State.hasBits, State.hasBits, h.pos, h.srcLen]

theorem Agree.atEnd (h : Agree p q s t) : Agree p q s.atEnd t.atEnd := by
  rw [State.atEnd, State.atEnd, h.pos, h.srcLen]
  exact h.moveTo _

theorem Agree.alignToByte (h : Agree p q s t) : Agree p q (alignToByte s) (Machine.alignToByte t) := by
  rw [alignToByte_eq, alignToByte_eq, State.alignedPos, State.alignedPos, h.pos]
  exact h.moveTo _

theorem sourceOverrun_agrees (h : Agree p q s t) : (sourceOverrun s : Res α).Agree p q (sourceOverrun t) := by
  by_cases hpq : p = q
  · subst hpq
    rw [sourceOverrun, sourceOverrun, h.policy, h.policy']
    cases p with
    | checked => exact .raise h (absurd rfl)
    | raw => exact .fault
  · obtain ⟨hp, hq⟩ := h.policies hpq
    rw [sourceOverrun_checked (h.policy.trans hp), sourceOverrun_raw (h.policy'.trans hq)]
    exact .overrun hpq h.alone

theorem nextBit_agrees (h : Agree p q s t) : (nextBit s).Agree p q (nextBit t) := by
  by_cases hbit : s.hasBits 1
  · rw [nextBit_eq hbit, nextBit_eq ((h.hasBits 1).mp hbit), h.pos, State.streamBit, State.streamBit, h.src]
    exact .ok (h.moveTo _)
  · rw [nextBit_short hbit, nextBit_short (mt (h.hasBits 1).mpr hbit)]
    exact sourceOverrun_agrees h.atEnd

theorem readBits_agrees (n : Nat) (h : Agree p q s t) : (readBits n s).Agree p q (readBits n t) := by
  induction n generalizing s t with
  | zero => exact .ok h
  | succ n ih => exact (nextBit_agrees h).bind fun _ _ _ h => (ih h).bind fun _ _ _ h => .ok h

theorem readBitsReversedFrom_agrees (v n : Nat) (h : Agree p q s t) :
    (readBitsReversedFrom v n s).Agree p q (readBitsReversedFrom v n t) := by
  induction n generalizing v s t with
  | zero => exact .ok h
  | succ n ih => exact (nextBit_agrees h).bind fun _ _ _ h => ih _ h

theorem decodeSymbol_agrees (T : Tree) (h : Agree p q s t) : (decodeSymbol T s).Agree p q (decodeSymbol T t) := by
  induction T generalizing s t with
  | absent => exact .raise h nofun
  | leaf x => exact .ok h
  | internal l r ihl ihr =>
    refine (nextBit_agrees h).bind fun b _ _ h => ?_
    cases b
    · exact ihl h
    · exact ihr h

theorem readBasePlus_agrees (base n : Nat) (h : Agree p q s t) :
    (readBasePlus base n s).Agree p q (readBasePlus base n t) := (readBits_agrees n h).bind fun _ _ _ h => .ok h

theorem readByte_agrees (h : Agree p q s t) : (readByte s).Agree p q (readByte t) := by
  by_cases h0 : s.bitIdx = 0
  · have hs := (bitIdx_eq_zero s).mp h0
    have ht := (bitIdx_eq_zero t).mp (h.bitIdx ▸ h0)
    by_cases hbyte : s.hasBits 8
    · rw [readByte_eq hs hbyte, readByte_eq ht ((h.hasBits 8).mp hbyte), h.pos, h.src]
      exact .ok (h.moveTo _)
    · rw [readByte_short hs hbyte, readByte_short ht (mt (h.hasBits 8).mpr hbyte)]
      exact sourceOverrun_agrees h.atEnd
  · rw [readByte, readByte, if_pos h0, if_pos (h.bitIdx ▸ h0)]
    exact .fault

theorem readLe16_agrees (h : Agree p q s t) : (readLe16 s).Agree p q (readLe16 t) :=
  (readByte_agrees h).bind fun _ _ _ h => (readByte_agrees h).bind fun _ _ _ h => .ok h

/-! ## The output (20_memory.md R211 to R213) -/

theorem outAppend_agrees (b : Byte) (h : Agree p q s t) : (outAppend b s).Agree p q (outAppend b t) := by
  rw [outAppend, outAppend, State.outFull, State.outFull, h.outCapacity, h.outLen]
  split
  · exact .raise h nofun
  · exact .ok { h with out := by rw [pushByte_out, pushByte_out, h.out, h.outLen], outLen := congrArg (· + 1) h.outLen }

theorem outByte_agrees (i : Nat) (h : Agree p q s t) : (outByte i s).Agree p q (outByte i t) := by
  rw [outByte, outByte, h.outLen, h.out]
  split
  · exact .ok h
  · exact .fault

theorem copyStoredLoop_agrees (n : Nat) (h : Agree p q s t) :
    (copyStoredLoop n s).Agree p q (copyStoredLoop n t) := by
  induction n generalizing s t with
  | zero => exact .ok h
  | succ n ih =>
    exact (readByte_agrees h).bind fun b _ _ h => (outAppend_agrees b h).bind fun _ _ _ h =>
      ih { h with remain := .refl _ }

theorem copyMatchLoop_agrees (dist n : Nat) (h : Agree p q s t) :
    (copyMatchLoop dist n s).Agree p q (copyMatchLoop dist n t) := by
  induction n generalizing s t with
  | zero => exact .ok h
  | succ n ih =>
    rw [copyMatchLoop, copyMatchLoop, h.outLen]
    exact (outByte_agrees _ h).bind fun b _ _ h => (outAppend_agrees b h).bind fun _ _ _ h =>
      ih { h with copyRemain := .refl _ }

/-! ## Blocks (42_inflate_blocks.md) -/

theorem Agree.withPhase (h : Agree p q s t) {ph : Phase} (hph : ph ≠ .done) :
    Agree p q { s with phase := ph } { t with phase := ph } :=
  { h with phase := rfl, finalPos := fun hpos => h.finalPos (hpos.imp_right (absurd · hph)) }

theorem Agree.withHeader (h : Agree p q s t) (bfinal : Bool) (btype : BitVec 2) :
    Agree p q (s.withHeader bfinal btype) (t.withHeader bfinal btype) :=
  { h with bfinal := .refl _, btype := .refl _ }

theorem endOfBlock_agrees (h : Agree p q s t) : (endOfBlock s).Agree p q (endOfBlock t) := by
  refine (readReg_agrees h h.bfinal).bind fun final s t h => ?_
  cases final
  · exact .ok (h.withPhase nofun)
  · exact .ok { h with phase := rfl, finalPos := fun _ => by rw [State.complete, State.complete, h.byteIdx, h.bitIdx] }

theorem readStoredLengths_agrees (h : Agree p q s t) : (readStoredLengths s).Agree p q (readStoredLengths t) :=
  (readLe16_agrees h).bind fun _ _ _ h => (readLe16_agrees (by exact { h with len := .refl _ })).bind fun _ _ _ h =>
    .ok (by exact { h with nlen := .refl _ })

theorem checkStoredLengths_agrees (h : Agree p q s t) : (checkStoredLengths s).Agree p q (checkStoredLengths t) := by
  refine (readReg_agrees h h.len).bind fun len _ _ h => (readReg_agrees h h.nlen).bind fun nlen _ _ h => ?_
  split
  · exact .raise h nofun
  · exact .ok h

theorem copyStored_agrees (h : Agree p q s t) : (copyStored s).Agree p q (copyStored t) :=
  (readReg_agrees h h.len).bind fun _ _ _ h => copyStoredLoop_agrees _ { h with remain := .refl _ }

theorem blkStored_agrees (bfinal : Bool) (h : Agree p q s t) : (blkStored bfinal s).Agree p q (blkStored bfinal t) :=
  (readStoredLengths_agrees ((h.withHeader bfinal 0).withPhase (ph := .stored) nofun).alignToByte).bind fun _ _ _ h =>
    (checkStoredLengths_agrees h).bind fun _ _ _ h => (copyStored_agrees h).bind fun _ _ _ h => endOfBlock_agrees h

theorem resumeStored_agrees (h : Agree p q s t) : (resumeStored s).Agree p q (resumeStored t) :=
  (readReg_agrees h h.remain).bind fun _ _ _ h => (copyStoredLoop_agrees _ h).bind fun _ _ _ h => endOfBlock_agrees h

/-! ## Dynamic headers (44_dynamic_header.md) -/

theorem buildTree_agrees (L : List Nat) (h : Agree p q s t) : (buildTree L s).Agree p q (buildTree L t) := by
  rw [buildTree_eq, buildTree_eq]
  split
  · exact .raise { h with blCount := .refl _ } nofun
  · exact .ok { h with blCount := .refl _, nextCode := .refl _ }

theorem readCll_agrees (cs : List Nat) (h : Agree p q s t) : (readCll cs s).Agree p q (readCll cs t) := by
  induction cs generalizing s t with
  | nil => exact .ok h
  | cons c cs ih =>
    exact (readBits_agrees 3 h).bind fun _ _ _ h => (readReg_agrees h h.cll).bind fun _ _ _ h =>
      ih { h with cll := .refl _ }

theorem readCodeLengthCodeLengths_agrees (h : Agree p q s t) :
    (readCodeLengthCodeLengths s).Agree p q (readCodeLengthCodeLengths t) :=
  (readReg_agrees h h.hclen).bind fun _ _ _ h => readCll_agrees _ { h with cll := .refl _ }

theorem buildClTree_agrees (h : Agree p q s t) : (buildClTree s).Agree p q (buildClTree t) :=
  (readReg_agrees h h.cll).bind fun _ _ _ h => (buildTree_agrees _ h).bind fun _ _ _ h =>
    .ok { h with clTree := .refl _ }

theorem blkDynamic_agrees (bfinal : Bool) (h : Agree p q s t) :
    (blkDynamic bfinal s).Agree p q (blkDynamic bfinal t) :=
  (readBasePlus_agrees 257 5 ((h.withHeader bfinal 2).withPhase (ph := .dynHeader) nofun)).bind fun _ _ _ h =>
    (readBasePlus_agrees 1 5 (by exact { h with hlit := .refl _ })).bind fun _ _ _ h =>
      (readBasePlus_agrees 4 4 (by exact { h with hdist := .refl _ })).bind fun _ _ _ h =>
        (readCodeLengthCodeLengths_agrees (by exact { h with hclen := .refl _ })).bind fun _ _ _ h =>
          (buildClTree_agrees h).bind fun _ _ _ h => .ok (by exact { h with lengths := .refl _ })

theorem appendLengths_agrees (v : BitVec 4) (n : Nat) (h : Agree p q s t) :
    (appendLengths v n s).Agree p q (appendLengths v n t) := by
  refine (readReg_agrees h h.lengths).bind fun _ _ _ h => (readReg_agrees h h.hlit).bind fun _ _ _ h =>
    (readReg_agrees h h.hdist).bind fun _ _ _ h => ?_
  split
  · exact .raise h nofun
  · exact .ok { h with lengths := .refl _ }

theorem Agree.beginTokens (h : Agree p q s t) :
    Agree p q { s with phase := .tokens, distPending := false } { t with phase := .tokens, distPending := false } :=
  { h.withPhase (ph := .tokens) nofun with distPending := rfl }

theorem splitAndBuild_agrees (h : Agree p q s t) : (splitAndBuild s).Agree p q (splitAndBuild t) :=
  (readReg_agrees h h.lengths).bind fun _ _ _ h => (readReg_agrees h h.hlit).bind fun _ _ _ h =>
    (readReg_agrees h h.hdist).bind fun _ _ _ h => (buildTree_agrees _ h).bind fun _ _ _ h =>
      (buildTree_agrees _ (by exact { h with litTree := .refl _ })).bind fun _ _ _ h =>
        .ok (by exact { h.beginTokens with distTree := .refl _ })

theorem clRun_agrees (v : BitVec 4) (n : Nat) (h : Agree p q s t) : (clRun v n s).Agree p q (clRun v n t) := by
  refine (appendLengths_agrees v n h).bind fun _ _ _ h => (readReg_agrees h h.lengths).bind fun _ _ _ h =>
    (readReg_agrees h h.hlit).bind fun _ _ _ h => (readReg_agrees h h.hdist).bind fun _ _ _ h => ?_
  split
  · exact .ok h
  · exact splitAndBuild_agrees h

theorem readBasePlus_clRun_agrees (v : BitVec 4) (base e : Nat) (h : Agree p q s t) :
    ((readBasePlus base e s).bind fun n s => clRun v n s).Agree p q
      ((readBasePlus base e t).bind fun n t => clRun v n t) :=
  (readBasePlus_agrees base e h).bind fun n _ _ h => clRun_agrees v n h

theorem clRep16_agrees (h : Agree p q s t) : (clRep16 s).Agree p q (clRep16 t) := by
  refine (readReg_agrees h h.lengths).bind fun lengths _ _ h => ?_
  cases lengths.getLast? with
  | none => exact .raise h nofun
  | some v => exact readBasePlus_clRun_agrees v 3 2 h

/-! ## Length and distance codes (43_token_loop.md) -/

theorem lengthCode_agrees (sym : Nat) (h : Agree p q s t) : (lengthCode sym s).Agree p q (lengthCode sym t) :=
  (readBasePlus_agrees _ _ (by exact { h with sym := .refl _ })).bind fun _ _ _ h =>
    .ok { h with matchLen := .refl _, distPending := rfl }

theorem checkDistance_agrees (h : Agree p q s t) : (checkDistance s).Agree p q (checkDistance t) := by
  refine (readReg_agrees h h.matchDist).bind fun dist s t h => ?_
  rw [h.outLen]
  split
  · exact .raise h nofun
  · exact .ok h

theorem copyMatch_agrees (h : Agree p q s t) : (copyMatch s).Agree p q (copyMatch t) :=
  (readReg_agrees h h.matchLen).bind fun _ _ _ h => (readReg_agrees h h.matchDist).bind fun _ _ _ h =>
    copyMatchLoop_agrees _ _ { h with copyRemain := .refl _ }

theorem distanceCode_agrees (d : Nat) (h : Agree p q s t) : (distanceCode d s).Agree p q (distanceCode d t) :=
  (readBasePlus_agrees _ _ (by exact { h with dsym := .refl _ })).bind fun _ _ _ h =>
    (checkDistance_agrees (by exact { h with matchDist := .refl _ })).bind fun _ _ _ h =>
      (copyMatch_agrees h).bind fun _ _ _ h => .ok (by exact { h with distPending := rfl })

/-! ## Elements and turns -/

theorem Agree.withSym (h : Agree p q s t) (x : BitVec 9) : Agree p q (s.withSym x) (t.withSym x) :=
  { h with sym := .refl _ }

/-- An element does the same in agreeing states; under two policies, until `SRC` ends. -/
theorem exec_agrees (i : Instr) (h : Agree p q s t) : OutcomesAgree p q (exec i s) (exec i t) := by
  induction i using instr_byKind with
  | blkStored f => exact (blkStored_agrees f h).outcome
  | blkFixed f => exact .next (h.withHeader f 1).beginTokens
  | blkDynamic f => exact (blkDynamic_agrees f h).outcome
  | blkReserved f => exact .next ((h.withHeader f 3).abort _ nofun)
  | lit x => exact (outAppend_agrees _ (h.withSym x)).outcome
  | eob => exact (endOfBlock_agrees (h.withSym 256)).outcome
  | length row hrow =>
    rw [exec_lengthRow row hrow, exec_lengthRow row hrow]
    exact (lengthCode_agrees _ h).outcome
  | litlenInvalid x => exact .next ((h.withSym x).abort _ nofun)
  | distance row hrow =>
    rw [exec_distRow row hrow, exec_distRow row hrow]
    exact (distanceCode_agrees _ h).outcome
  | distInvalid d => exact .next (Agree.abort (by exact { h with dsym := .refl _ }) _ nofun)
  | clLen c => exact (clRun_agrees _ _ h).outcome
  | clRep16 => exact (clRep16_agrees h).outcome
  | clZero17 => exact (readBasePlus_clRun_agrees 0 3 3 h).outcome
  | clZero18 => exact (readBasePlus_clRun_agrees 0 11 7 h).outcome

theorem readFixedMode_agrees (h : Agree p q s t) : (readFixedMode s).Agree p q (readFixedMode t) :=
  (readReg_agrees h h.btype).bind fun _ _ _ h => .ok h

/-- A symbol read with the tree of a register. -/
theorem readReg_decodeSymbol_agrees {r r' : Reg Tree} (h : Agree p q s t) (hr : RegsAgree (p ≠ q) r r') :
    ((readReg r s).bind decodeSymbol).Agree p q ((readReg r' t).bind decodeSymbol) :=
  (readReg_agrees h hr).bind fun T _ _ h => decodeSymbol_agrees T h

theorem fetchValue_agrees (f : Format) (h : Agree p q s t) : (fetchValue f s).Agree p q (fetchValue f t) := by
  cases f with
  | blockHdr =>
    exact (nextBit_agrees h).bind fun _ _ _ h =>
      (readBits_agrees 2 (by exact { h with bfinal := .refl _ })).bind fun _ _ _ h => .ok h
  | litlenSymbol =>
    refine (readFixedMode_agrees h).bind fun fixed _ _ h => ?_
    cases fixed
    · exact readReg_decodeSymbol_agrees h h.litTree
    · exact decodeSymbol_agrees fixedLitTree h
  | distSymbol =>
    refine (readFixedMode_agrees h).bind fun fixed _ _ h => ?_
    cases fixed
    · exact readReg_decodeSymbol_agrees h h.distTree
    · exact readBitsReversedFrom_agrees 0 5 h
  | clSymbol => exact readReg_decodeSymbol_agrees h h.clTree

theorem fetchAndRun_agrees (f : Format) (h : Agree p q s t) : OutcomesAgree p q (fetchAndRun f s) (fetchAndRun f t) := by
  have hfetch := fetchValue_agrees f h
  rw [fetchAndRun, fetchAndRun]
  generalize fetchValue f s = r, fetchValue f t = r' at hfetch ⊢
  cases hfetch with
  | ok h =>
    simp only [runValue]
    split
    · exact exec_agrees _ h
    · exact .refused
  | raise h hk => exact .next (h.abort _ hk)
  | fault => exact .fault
  | overrun hpq halone => exact .overrun hpq halone

theorem instanceTurn_agrees (h : Agree p q s t) : OutcomesAgree p q (instanceTurn s) (instanceTurn t) := by
  have hformat : fetchFormat s = fetchFormat t := by rw [fetchFormat, fetchFormat, h.phase, h.distPending]
  rw [instanceTurn, instanceTurn, hformat, h.phase]
  split
  · exact fetchAndRun_agrees _ h
  · split
    · exact (resumeStored_agrees h).outcome
    · exact .next h

/-! ## Runs -/

/-- A decode that has ended stays as it is (60_exceptions.md R822, R829). -/
theorem run_of_not_busy (k : Nat) (hcmds : s.hostCmds = []) (hbusy : s.busy = false) :
    Host.Core.run Sys2Proof.core k s = .next s := by
  induction k with
  | zero => rfl
  | succ k ih => rw [run_of_next ((step_alone hcmds).trans (instanceTurn_not_busy hbusy)), ih]

/-- So do two runs, step for step: the one that has raised `OutOfRange` stays at its end. -/
theorem run_agrees (k : Nat) (h : Agree p q s t) :
    OutcomesAgree p q (Host.Core.run Sys2Proof.core k s) (Host.Core.run Sys2Proof.core k t) := by
  induction k generalizing s t with
  | zero => exact .next h
  | succ k ih =>
    have hstep : OutcomesAgree p q (Sys2Proof.core.step s) (Sys2Proof.core.step t) := by
      have hturn := instanceTurn_agrees h
      rwa [← step_alone h.alone, ← step_alone h.alone'] at hturn
    simp only [Host.Core.run]
    generalize Sys2Proof.core.step s = o, Sys2Proof.core.step t = o' at hstep ⊢
    cases hstep with
    | next h => exact ih h
    | fault => exact .fault
    | refused => exact .refused
    | @overrun u hpq halone =>
      have hended := run_of_not_busy (s := u.abort .outOfRange .none) k halone rfl
      simp only [hended]
      exact .overrun hpq halone

/-! ## What two decodes begin and end with -/

/-- `START` under one policy, with the same inputs, whatever it finds (42_inflate_blocks.md R500). -/
theorem start_agrees (hsrc : s.src = t.src) (hsrcLen : s.srcLen = t.srcLen) (hpolicy : s.policy = t.policy)
    (hcapacity : s.outCapacity = t.outCapacity) (hs : s.hostCmds = []) (ht : t.hostCmds = []) :
    Agree t.policy t.policy s.start t.start := by
  have hforget {α : Type} (r r' : Reg α) := forgetReg_agrees (not_not.mpr (rfl : t.policy = t.policy)) r r'
  exact {
    policies := absurd rfl, policy := hpolicy, policy' := rfl, alone := hs, alone' := ht, inSource := absurd rfl
    finalPos := fun h => h.elim (absurd rfl) nofun, src := hsrc, srcLen := hsrcLen, outCapacity := hcapacity
    bfinal := hforget _ _, btype := hforget _ _, len := hforget _ _, nlen := hforget _ _, remain := hforget _ _
    hlit := hforget _ _, hdist := hforget _ _, hclen := hforget _ _, cll := hforget _ _, lengths := hforget _ _
    clTree := hforget _ _, litTree := hforget _ _, distTree := hforget _ _, blCount := hforget _ _
    nextCode := hforget _ _, sym := hforget _ _, dsym := hforget _ _, matchLen := hforget _ _
    matchDist := hforget _ _, copyRemain := hforget _ _ }

/-- `START` under `CHECKED` and under `RAW`. -/
theorem start_agrees_raw (hpolicy : s.policy = .checked) (hs : s.hostCmds = []) :
    Agree .checked .raw s.start { s.start with policy := .raw } where
  policies _ := ⟨rfl, rfl⟩
  policy := hpolicy
  policy' := rfl
  alone := hs
  alone' := hs
  inSource := nofun
  finalPos _ := rfl

/-- Under two policies nothing else differs. -/
theorem Agree.withPolicy_eq (h : Agree p q s t) (hpq : p ≠ q) : { s with policy := q } = t := by
  obtain ⟨⟩ := s
  obtain ⟨⟩ := t
  simp only [State.mk.injEq]
  exact ⟨h.src, h.srcLen, h.policy'.symm, h.outCapacity, h.alone.trans h.alone'.symm, h.phase, h.errKind, h.errCause,
    h.finalPos (.inl hpq), h.byteIdx, h.bitIdx, h.bfinal.eq hpq, h.btype.eq hpq, h.len.eq hpq, h.nlen.eq hpq,
    h.remain.eq hpq, h.hlit.eq hpq, h.hdist.eq hpq, h.hclen.eq hpq, h.cll.eq hpq, h.lengths.eq hpq, h.clTree.eq hpq,
    h.litTree.eq hpq, h.distTree.eq hpq, h.blCount.eq hpq, h.nextCode.eq hpq, h.sym.eq hpq, h.dsym.eq hpq,
    h.matchLen.eq hpq, h.matchDist.eq hpq, h.copyRemain.eq hpq, h.distPending, h.out, h.outLen⟩

/-- The host reads the same of both (10_state.md R127). -/
theorem Agree.hostView_eq (h : Agree p q s t) : hostView s = hostView t := by
  have hstatus : s.status = t.status := congrArg statusOf h.phase
  have hfinalPos : hostFinalPos s = hostFinalPos t := by
    rw [hostFinalPos, hostFinalPos, ← hstatus]
    split
    · rw [h.finalPos (.inr (phase_of_status_doneOk ‹_›))]
    · rfl
  rw [hostView, hostView, hfinalPos, hostStatus, hostStatus, hostOut, hostOut, hostOutLen, hostOutLen, hstatus,
    h.errKind, h.errCause, h.out, h.outLen]

end

end Sys2Proof.Machine

open Sys2Proof.Machine

/-- Settles O56: the two runs agree, in all but the policy, until the end of `SRC`. -/
theorem policiesAgreeUntilTheEndOfSource : Obligations.PoliciesAgreeUntilTheEndOfSource := by
  intro s t k hpolicy hcmds hrun
  have hagree := run_agrees k (start_agrees_raw hpolicy hcmds)
  rw [hrun] at hagree
  generalize Host.Core.run Sys2Proof.core k { s.start with policy := .raw } = o at hagree ⊢
  cases hagree with
  | next h => exact ⟨fun _ => congrArg _ (h.withPolicy_eq nofun).symm, fun hkind => absurd hkind (h.inSource nofun)⟩
  | overrun => exact ⟨fun hkind => absurd rfl hkind, fun _ => rfl⟩

/-- Settles O57: the two runs agree in all that can be read, and under one policy both overrun `SRC` alike. -/
theorem decodeDependsOnItsInputsAlone : Obligations.DecodeDependsOnItsInputsAlone := by
  intro s₁ s₂ k hsrc hsrcLen hpolicy hcapacity hcmds₁ hcmds₂
  have hagree := run_agrees k (start_agrees hsrc hsrcLen hpolicy hcapacity hcmds₁ hcmds₂)
  refine ⟨fun t₁ hrun => ?_, fun f hrun => ?_⟩
  all_goals
    rw [hrun] at hagree
    generalize Host.Core.run Sys2Proof.core k s₂.start = o at hagree ⊢
  · cases hagree with
    | next h => exact ⟨_, rfl, h.hostView_eq⟩
    | overrun hpq => exact absurd rfl hpq
  · cases hagree
    rfl
end

section
/-! PROOFS. The two commands that begin an instance anew: the power-on reset and `START`. -/

namespace Sys2Proof.Machine

section
variable {s : State}

/-- A power-on reset that is due takes effect in any phase (70_reset_and_hazards.md R902). -/
theorem hostTurn_powerOnReset {cs : List HostCmd} (h : s.hostCmds = .powerOnReset 0 :: cs) :
    hostTurn s = some { s with hostCmds := cs }.powerOn := by
  simp only [hostTurn, h]

/-- The registers are those of `State.reset`. -/
theorem powerOn_allUnwritten (s : State) : s.powerOn.allUnwritten := by
  obtain ⟨-, -, -, -, hunwritten, -⟩ := resetIsIdleWithNothingWritten
  exact hunwritten

/-- An idle instance has no output for the host to read (10_state.md R127). -/
theorem powerOn_unreadable (s : State) :
    hostOut s.powerOn = none ∧ hostOutLen s.powerOn = none ∧ hostFinalPos s.powerOn = none := by
  have hidle : s.powerOn.status = .idle := rfl
  exact (outputIsReadableExactlyAfterSuccess s.powerOn).1 (by rw [hidle]; decide)

/-- Whatever an earlier decode has written, none of it counts as written for the new one (10_state.md R128). -/
theorem start_allUnwritten (s : State) : s.start.allUnwritten := by
  simp only [State.allUnwritten, start_bfinal, start_btype, start_len, start_nlen, start_remain, start_hlit,
    start_hdist, start_hclen, start_cll, start_lengths, start_clTree, start_litTree, start_distTree, start_blCount,
    start_nextCode, start_sym, start_dsym, start_matchLen, start_matchDist, start_copyRemain, forgetReg_written,
    and_self]

end

end Sys2Proof.Machine

open Sys2Proof.Machine

/-- Settles O2: the reset is taken before any turn of the decode. -/
theorem powerOnResetEndsAnyDecode : Obligations.PowerOnResetEndsAnyDecode := by
  intro s cs hcmds
  obtain ⟨hout, houtLen, hfinalPos⟩ := powerOn_unreadable { s with hostCmds := cs }
  exact ⟨_, step_of_hostTurn_some (hostTurn_powerOnReset hcmds), rfl, rfl, rfl, rfl, powerOn_allUnwritten _, hout,
    houtLen, hfinalPos, rfl, rfl, rfl, rfl, rfl⟩

/-- Settles O3: where no decode runs `START` takes effect at once. -/
theorem startBeginsADecode : Obligations.StartBeginsADecode := by
  intro s cs hcmds hidle
  have hturn : hostTurn s = some { s with hostCmds := cs }.start := by
    rw [hostTurn_start hcmds, if_neg (mt busy_iff.mp hidle)]
  exact ⟨_, step_of_hostTurn_some hturn, rfl, rfl, rfl, fun _ => rfl, rfl, rfl, rfl, rfl, start_allUnwritten _, rfl,
    rfl, rfl, rfl, rfl⟩
end
